-- ==== Sys2Proof/Config.lean ====
section
/-! DEFINITION. The implementation parameters of spec/00_scope.md R6. They are fixed for the block's lifetime and the
model holds them in the machine's state, where no step changes them, so that every statement about all states is a
statement about all parameters (log 1). -/
namespace Sys2Proof

/-- `P_BULK_WRITE_MODE`: what a bulk 16- or 32-bit write stores for each element (spec/40_rombuffer.md R122). -/
inductive BulkWriteMode where
  | fullWidth
  | legacyByte
  deriving DecidableEq, Repr

/-- `P_PIXEL_MODE`: which extraction formula `PIXEL_GET` uses (spec/43_pixelplane.md R212, R213). -/
inductive PixelMode where
  | generalized
  | legacy
  deriving DecidableEq, Repr

/-- `P_OVERRUN`: what a back-reference past the declared length does (spec/41_lz77.md R158). -/
inductive OverrunMode where
  | clip
  | fault
  deriving DecidableEq, Repr

/-- The parameters of spec/00_scope.md R6, each with the range the rule gives it. -/
structure Params where
  /-- `P_ROM_SIZE`, 0 to 2^32 - 1. -/
  romSize : BitVec 32
  /-- `P_BUF_CAP`, 0 to 2^32; 2^32 means no limit. -/
  bufCap : Fin 4294967297
  /-- `P_BULK_WRITE_MODE`. -/
  bulkWrite : BulkWriteMode
  /-- `P_PIXEL_MODE`. -/
  pixel : PixelMode
  /-- `P_OVERRUN`. -/
  overrun : OverrunMode
  deriving DecidableEq, Repr

/-- The parameters `State.reset` stands on: the three modes at the defaults of spec/00_scope.md R6.
DESIGN CHOICE (log 1, unsafe): R6 gives `P_ROM_SIZE` and `P_BUF_CAP` no default; the model takes the largest ROM, which
covers the whole address space, and no limit on the buffers. No statement rests on the two values. -/
def Params.default : Params where
  romSize := 4294967295#32
  bufCap := ⟨4294967296, by decide⟩
  bulkWrite := .fullWidth
  pixel := .generalized
  overrun := .clip

end Sys2Proof
end

