-- ==== Sys2Proof/Word.lean ====
section
/-! DEFINITION. The two word types of the block: a byte of the ROM or of a buffer, and a 32-bit record field, register
or list element (spec/30_encoding.md R80, R88; spec/10_state.md R22 to R28). -/
namespace Sys2Proof

/-- One byte of the ROM, of a buffer or of an LZ77 stream. -/
abbrev Byte := BitVec 8

/-- One 32-bit field of a command or response record, one element of `DATA`, or one register. -/
abbrev Word := BitVec 32

end Sys2Proof
end

