-- ==== Sys2Proof/Record.lean ====
section
/-! DEFINITION. The records the host and the block exchange, the operand forms a command has, and the elements of an
LZ77 stream (spec/30_encoding.md R80, R82, R88, R91 to R97; spec/10_state.md R36; spec/60_exceptions.md R241). -/
namespace Sys2Proof

/-- The command record of spec/30_encoding.md R80. -/
structure Command where
  /-- `CMD`, the command word (R81). -/
  cmd : Word
  /-- `ADDR`, a ROM byte address. -/
  addr : Word
  /-- `COUNT`, an element or byte count. -/
  count : Word
  /-- `VALUE`, a value to write or a color word. -/
  value : Word
  /-- `INDEX`, an entry, pixel or register number. -/
  index : Word
  /-- `DATA`, the values of a bulk write. -/
  data : List Word
  deriving DecidableEq, Repr

/-- The response record of spec/30_encoding.md R88. -/
structure Response where
  /-- `ERR`, 0 on success, else the error code. -/
  err : BitVec 4
  /-- `VALUE`, the scalar result or the fault information. -/
  value : Word
  /-- `DATA`, the list result. -/
  data : List Word
  deriving DecidableEq, Repr

/-- The errors of spec/60_exceptions.md R241, by name. The last three are named there for out-of-scope components
and no command of this block raises them. -/
inductive Error where
  | outOfBounds
  | invalidOpcode
  | invalidBackReference
  | illegalCommand
  | outputTooLarge
  | overrun
  | endOfBuffer
  | unmappableCharacter
  | invalidDimensions
  deriving DecidableEq, Repr

/-- Where an accessor command starts, selected by the `A` bit (spec/30_encoding.md R82): at `ADDR`, or at `CURSOR`. -/
inductive Start where
  | addressed (addr : Word)
  | atCursor
  deriving DecidableEq, Repr

/-- The readable registers of spec/10_state.md R36. -/
inductive RegName where
  | cursor
  | status
  | palLen
  | pixLen
  | pixDepth
  | romSize
  | config
  deriving DecidableEq, Repr

/-- One element of an LZ77 stream (spec/30_encoding.md R91 to R95). -/
inductive Element where
  /-- The short header: a nonzero 24-bit declared length. -/
  | hdr (l3 : BitVec 24)
  /-- The extended header: a 32-bit declared length. -/
  | hdrx (l4 : Word)
  /-- A flag byte. -/
  | flags (f : Byte)
  /-- A literal, or a trailing pad. -/
  | lit (b : Byte)
  /-- A back-reference: `v[7:4]`, and the offset `v[3:0]` followed by `e`. -/
  | ref (len : BitVec 4) (offset : BitVec 12)
  deriving DecidableEq, Repr

/-- What the decoder reads next, which it knows "from its state alone" (spec/30_encoding.md R97). -/
inductive Expect where
  | header
  | flags
  | literal
  | backRef
  deriving DecidableEq, Repr

/-- A move of the host at the interface of spec/44_system.md R235. -/
inductive HostMove where
  /-- Issue one command record. -/
  | issue (c : Command)
  /-- Reset the block, with a new ROM image loaded before reset is released, or with the ROM left as it is. -/
  | reset (image : Option (List Byte))
  deriving DecidableEq, Repr

end Sys2Proof
end

