-- ==== Sys2Proof/Syntax.lean ====
section
/-! DEFINITION. The instructions: the twenty commands of spec/30_encoding.md R85, each with the operands R86 gives it,
and the five LZ77 stream elements of R91 to R95, one constructor per row of spec/opcode_table.json. Fields a command
ignores (R87) are not part of its instruction. -/
namespace Sys2Proof

inductive Instr where
  -- spec/40_rombuffer.md: scalar reads
  | readU8 (start : Start)
  | readU16 (start : Start)
  | readU32 (start : Start)
  | readPtr (start : Start)
  -- bulk reads
  | readU8N (start : Start) (count : Word)
  | readU16N (start : Start) (count : Word)
  | readU32N (start : Start) (count : Word)
  -- scalar writes
  | writeU8 (start : Start) (value : Word)
  | writeU16 (start : Start) (value : Word)
  | writeU32 (start : Start) (value : Word)
  -- bulk writes: `COUNT` is the length of `DATA` (spec/30_encoding.md R90 item 4)
  | writeU8N (start : Start) (data : List Word)
  | writeU16N (start : Start) (data : List Word)
  | writeU32N (start : Start) (data : List Word)
  -- spec/41_lz77.md
  | lz77Decompress (addr : Word)
  -- spec/42_palette.md
  | paletteLoad (addr : Word) (count : Word)
  | paletteGet (index : Word)
  | rgbUnpack (value : Word)
  -- spec/43_pixelplane.md
  | pixelLoad (addr : Word) (count : Word) (depth : BitVec 2)
  | pixelGet (index : Word)
  -- spec/44_system.md
  | readReg (reg : RegName)
  -- the elements of an LZ77 stream
  | lz77Hdr (l3 : BitVec 24)
  | lz77Hdrx (l4 : Word)
  | lz77Flags (f : Byte)
  | lz77Lit (b : Byte)
  | lz77Ref (len : BitVec 4) (offset : BitVec 12)
  deriving DecidableEq, Repr

end Sys2Proof
end

