-- ==== Sys2Proof/Machine/State.lean ====
section
/-! DEFINITION. The state of the block: the architectural state of spec/10_state.md R20, the hidden LZ77 working state
of R31, the parameters of spec/00_scope.md R6, and the host's side of the interface of spec/44_system.md R235. All of
it is plain data. -/
namespace Sys2Proof.Machine

/-- The ROM as the bytes that differ from the unlisted byte, at strictly rising addresses. -/
abbrev Memory := List Host.Cell

/-- Who takes the bytes of a decompression: `LZ77_DECOMPRESS` returns them (spec/41_lz77.md R150), `PALETTE_LOAD` and
`PIXEL_LOAD` fill a buffer with them (spec/42_palette.md R192, spec/43_pixelplane.md R215). The model's own (log 6). -/
inductive Consumer where
  | response
  | palette
  | pixels (depth : BitVec 2)
  deriving DecidableEq, Repr

/-- Where the decoder stands between two elements (spec/30_encoding.md R97): before the header, before a flag byte,
or before the item that flag bit `bit` governs. The model's own (log 6). -/
inductive Phase where
  | header
  | group
  | item
  deriving DecidableEq, Repr

/-- The LZ77 working state of spec/10_state.md R31, with the two fields that say which command runs and what it reads
next. `out` holds the bytes produced so far, the part of the work buffer below `position` (log 6). -/
structure Lz77Work where
  consumer : Consumer
  phase : Phase
  /-- The declared length. -/
  length : BitVec 32
  /-- The output position, at most `length + 18`. -/
  position : Nat
  /-- The current flag byte. -/
  flags : BitVec 8
  /-- The index of the flag bit being processed, 7 down to 0. -/
  bit : Fin 8
  /-- The bytes produced so far. -/
  out : List Byte
  deriving DecidableEq, Repr

structure State where
  /-- The parameters (spec/00_scope.md R6). -/
  params : Params
  /-- `rom` (spec/10_state.md R21). -/
  rom : Memory
  /-- `CURSOR` (R22). -/
  cursor : BitVec 32
  /-- `STATUS` (R23). -/
  status : BitVec 32
  /-- `PAL_LEN` (R24). -/
  palLen : BitVec 32
  /-- `PIX_LEN` (R25). -/
  pixLen : BitVec 32
  /-- `PIX_DEPTH`, the depth code (R26). -/
  pixDepth : BitVec 2
  /-- `pal_buf` (R29). -/
  palBuf : List Byte
  /-- `pix_buf` (R30). -/
  pixBuf : List Byte
  /-- The LZ77 working state while a decompression runs, none between commands (R31, spec/70_reset_and_hazards.md R270). -/
  work : Option Lz77Work
  /-- The host's moves still to come, in its order (spec/44_system.md R233, R235). The model's own (log 3). -/
  inbox : List HostMove
  /-- The response of the most recently completed command (spec/30_encoding.md R88). The model's own (log 5). -/
  response : Option Response
  deriving DecidableEq, Repr

/-- Why the machine has no next state. -/
inductive Fault where
  /-- Raised by a step that takes a host reset whose ROM image is not `P_ROM_SIZE` bytes long. Safe: the host breaks
  its duty of spec/70_reset_and_hazards.md R272, and "a model gives a host that breaks a duty no move"
  (spec/44_system.md R235); log 8. -/
  | imageIncomplete
  deriving DecidableEq, Repr

/-- Why an instruction has no meaning in a state. -/
inductive Refusal where
  /-- Raised by an arm of `exec` that has no meaning yet. Safe: nothing is claimed of the instruction. -/
  | notModelled (mnemonic : String)
  /-- Raised by the meaning of an LZ77 stream element in a state whose decoder does not read an element of that kind.
  Safe: an element exists only where the decoder's state selects it (spec/30_encoding.md R97), and no step runs one
  elsewhere; log 7. -/
  | elementOutOfPlace
  deriving DecidableEq, Repr

/-- The state right after reset is released (spec/70_reset_and_hazards.md R270): every register and buffer at its
reset value, the ROM as it was or as it was loaded (R271, R272), the parameters as they are fixed. -/
def State.afterReset (params : Params) (rom : Memory) (inbox : List HostMove) : State where
  params := params
  rom := rom
  cursor := 0
  status := 0
  palLen := 0
  pixLen := 0
  pixDepth := 2
  palBuf := []
  pixBuf := []
  work := none
  inbox := inbox
  response := none

/-- The block right after its first reset.
DESIGN CHOICE (logs 1, 2 and 3, unsafe): the spec gives no ROM size, no buffer capacity, no image and no host; the
model takes the parameters of `Params.default`, an image with nothing listed, and a host that has sent nothing. -/
def State.reset : State := State.afterReset Params.default [] []

end Sys2Proof.Machine
end

