-- ==== Sys2Proof/Machine/Flags.lean ====
section
/-! DEFINITION. The fields of `STATUS` (spec/10_state.md R23) and the error codes (spec/60_exceptions.md R241). The block
has no condition codes (spec/10_state.md R35); these fields are its only flags. -/
namespace Sys2Proof.Machine

/-- The code of an error (spec/60_exceptions.md R241). -/
def errorCode : Error → BitVec 4
  | .outOfBounds => 1
  | .invalidOpcode => 2
  | .invalidBackReference => 3
  | .illegalCommand => 4
  | .outputTooLarge => 5
  | .overrun => 6
  | .endOfBuffer => 8
  | .unmappableCharacter => 9
  | .invalidDimensions => 10

/-- `STATUS.ERR`, bits [3:0]. -/
def statusErr (status : Word) : BitVec 4 := status.extractLsb' 0 4

/-- `STATUS.PAL_COMP`, bit 4. -/
def statusPalComp (status : Word) : Bool := status.getLsbD 4

/-- `STATUS.PIX_COMP`, bit 5. -/
def statusPixComp (status : Word) : Bool := status.getLsbD 5

/-- `STATUS[31:6]`, reserved. -/
def statusReserved (status : Word) : BitVec 26 := status.extractLsb' 6 26

/-- `STATUS` with `ERR` replaced, every other bit kept. -/
def withErr (status : Word) (code : BitVec 4) : Word := status.extractLsb' 4 28 ++ code

/-- `STATUS` with `PAL_COMP` replaced, every other bit kept. -/
def withPalComp (status : Word) (comp : Bool) : Word :=
  (status.extractLsb' 5 27 ++ BitVec.ofBool comp) ++ status.extractLsb' 0 4

/-- `STATUS` with `PIX_COMP` replaced, every other bit kept. -/
def withPixComp (status : Word) (comp : Bool) : Word :=
  (status.extractLsb' 6 26 ++ BitVec.ofBool comp) ++ status.extractLsb' 0 5

end Sys2Proof.Machine
end

