-- ==== Sys2Proof/Machine/Ops.lean ====
section
/-! DEFINITION. The named operations over the ROM and the registers: bytes and little-endian values (spec/20_memory.md
R52 to R58), the bounds check (R54), ending a command with a response or with an error (spec/44_system.md R232, R234;
spec/60_exceptions.md R245), and reset (spec/70_reset_and_hazards.md R270 to R272). -/
namespace Sys2Proof.Machine

/-! ### The ROM -/

/-- What an address that is not listed reads as.
DESIGN CHOICE (log 2, unsafe): the spec gives the loaded image no contents. -/
def unlistedByte : Byte := 0

/-- The canonical form: strictly rising addresses, no cell equal to the unlisted byte. -/
def Memory.wf : Memory → Bool
  | [] => true
  | c :: m => decide (c.2 ≠ unlistedByte) && m.all (fun d => decide (c.1 < d.1)) && Memory.wf m

/-- Every listed address is below `size`: the memory has no byte the ROM does not have (spec/10_state.md R34 (ii)). -/
def Memory.below (size : Nat) (m : Memory) : Bool := m.all (fun c => decide (c.1 < size))

/-- `rom[a]` (spec/00_scope.md R9). -/
def Memory.byte : Memory → Nat → Byte
  | [], _ => unlistedByte
  | c :: m, a => if c.1 = a then c.2 else Memory.byte m a

/-- A cell, unless it holds the unlisted byte. -/
def cellIfListed (a : Nat) (v : Byte) (m : Memory) : Memory := if v = unlistedByte then m else (a, v) :: m

/-- `rom[a] <- v`, keeping the canonical form. -/
def Memory.put : Memory → Nat → Byte → Memory
  | [], a, v => cellIfListed a v []
  | c :: m, a, v =>
    if a < c.1 then cellIfListed a v (c :: m)
    else if a = c.1 then cellIfListed a v m
    else c :: Memory.put m a v

/-- The little-endian value of the `n` bytes at `a`, zero-extended to 32 bits: the sum of `MemRead` (R56). -/
def Memory.readLE (m : Memory) (a : Nat) : Nat → Word
  | 0 => 0
  | n + 1 => (m.byte a).setWidth 32 ||| (Memory.readLE m (a + 1) n <<< 8)

/-- The low `n` bytes of `v` written at `a`, little-endian: the loop of `MemWrite` (R57). -/
def Memory.writeLE (m : Memory) (a : Nat) (v : Word) : Nat → Memory
  | 0 => m
  | n + 1 => Memory.writeLE (m.put a (v.setWidth 8)) (a + 1) (v >>> 8) n

/-- The `n` bytes from `a` on, in ascending address order. -/
def Memory.bytes (m : Memory) (a n : Nat) : List Byte := (List.range n).map (fun i => m.byte (a + i))

/-- A list of bytes written from `a` on. -/
def Memory.putAll (m : Memory) (a : Nat) : List Byte → Memory
  | [] => m
  | v :: vs => Memory.putAll (m.put a v) (a + 1) vs

/-- The memory whose bytes from `a` on are the ones given, and unlisted elsewhere. -/
def imageFrom (a : Nat) : List Byte → Memory
  | [] => []
  | v :: vs => cellIfListed a v (imageFrom (a + 1) vs)

/-- The bounds check of R54, on unbounded naturals. -/
def inBounds (s : State) (a n : Nat) : Bool := decide (a + n ≤ s.params.romSize.toNat)

/-! ### Registers -/

/-- `CURSOR <- a`, for an `a` that passed a bounds check and so fits in 32 bits. -/
def State.moveCursor (s : State) (a : Nat) : State := { s with cursor := BitVec.ofNat 32 a }

/-- The ROM replaced. -/
def State.setRom (s : State) (m : Memory) : State := { s with rom := m }

/-- The LZ77 working state replaced. -/
def State.setWork (s : State) (w : Lz77Work) : State := { s with work := some w }

/-- The host's first remaining move taken. -/
def State.setInbox (s : State) (moves : List HostMove) : State := { s with inbox := moves }

/-- The palette buffer replaced whole (spec/42_palette.md R192). -/
def State.setPalette (s : State) (bytes : List Byte) (comp : Bool) : State :=
  { s with
    palBuf := bytes
    palLen := BitVec.ofNat 32 bytes.length
    status := withPalComp s.status comp }

/-- The pixel plane replaced whole (spec/43_pixelplane.md R215). -/
def State.setPlane (s : State) (bytes : List Byte) (depth : BitVec 2) (comp : Bool) : State :=
  { s with
    pixBuf := bytes
    pixLen := BitVec.ofNat 32 bytes.length
    pixDepth := depth
    status := withPixComp s.status comp }

/-! ### The end of a command -/

/-- A command ends with this response: `STATUS.ERR` takes its code as the last step (spec/44_system.md R232), and no
LZ77 working state is left (spec/10_state.md R31). -/
def State.finish (s : State) (r : Response) : State :=
  { s with status := withErr s.status r.err, response := some r, work := none }

/-- `respond(v, d)` (spec/00_scope.md R9, spec/44_system.md R234). -/
def State.respond (s : State) (v : Word) (d : List Word) : State :=
  s.finish { err := 0, value := v, data := d }

/-- `raise E(info)`: the one way a command takes an error (spec/60_exceptions.md R240, R243, R245). -/
def State.raise (s : State) (e : Error) (info : Word) : State :=
  s.finish { err := errorCode e, value := info, data := [] }

/-- An illegal command: `IllegalCommand`, fault information 0, nothing else changed (spec/44_system.md R231). -/
def State.rejectCommand (s : State) : State := s.raise .illegalCommand 0

/-! ### Reset -/

/-- A host reset between commands: the registers and buffers at their reset values (spec/70_reset_and_hazards.md
R270), the ROM as it is (R271) or as the host loads it before release (R272, spec/44_system.md R235). -/
def hostReset (s : State) (image : Option (List Byte)) (moves : List HostMove) : Except Fault State :=
  match image with
  | none => .ok (State.afterReset s.params s.rom moves)
  | some bytes =>
    if bytes.length = s.params.romSize.toNat then .ok (State.afterReset s.params (imageFrom 0 bytes) moves)
    else .error .imageIncomplete

end Sys2Proof.Machine
end

