-- ==== Sys2Proof/Machine/Operands.lean ====
section
/-! DEFINITION. The operand forms: the start of an accessor command (spec/40_rombuffer.md R110), the values `READ_REG`
reads (spec/44_system.md R230), the color function (spec/42_palette.md R190) and the pixel extraction formulas
(spec/43_pixelplane.md R210 to R213). -/
namespace Sys2Proof.Machine

/-- `Base(cmd)` (spec/40_rombuffer.md R110). -/
def base (start : Start) (s : State) : Word :=
  match start with
  | .addressed addr => addr
  | .atCursor => s.cursor

/-- `CONFIG` (spec/10_state.md R28). -/
def configWord (p : Params) : Word :=
  0#29 ++ (BitVec.ofBool (decide (p.overrun = .fault)) ++
    (BitVec.ofBool (decide (p.pixel = .legacy)) ++ BitVec.ofBool (decide (p.bulkWrite = .legacyByte))))

/-- The value of a register (spec/44_system.md R230). -/
def regValue (r : RegName) (s : State) : Word :=
  match r with
  | .cursor => s.cursor
  | .status => s.status
  | .palLen => s.palLen
  | .pixLen => s.pixLen
  | .pixDepth => s.pixDepth.setWidth 32
  | .romSize => s.params.romSize
  | .config => configWord s.params

/-- The mask of a domain pointer: the low 25 bits (spec/40_rombuffer.md R114). -/
def pointerMask (v : Word) : Word := v &&& 0x01FFFFFF#32

/-- `Rgb(w)` (spec/42_palette.md R190). -/
def rgb (w : BitVec 16) : Word :=
  let red := (w &&& 0x001F#16) <<< 3
  let green := (w &&& 0x03E0#16) >>> 2
  let blue := (w &&& 0x7C00#16) >>> 7
  (red.setWidth 32 <<< 16) ||| (green.setWidth 32 <<< 8) ||| blue.setWidth 32

/-- Byte `i` of a buffer. Every reachable state has the bytes `PAL_LEN` or `PIX_LEN` counts (spec/10_state.md R34);
log 11 says what a state without them reads. -/
def bufferByte (buf : List Byte) (i : Nat) : Byte := buf.getD i 0

/-- The color word of entry `i` (spec/10_state.md R29). -/
def colorEntry (buf : List Byte) (i : Nat) : BitVec 16 :=
  (bufferByte buf (2 * i)).setWidth 16 ||| ((bufferByte buf (2 * i + 1)).setWidth 16 <<< 8)

/-- The depth `D` in bits of a depth code (spec/43_pixelplane.md R210). -/
def depthBits (code : BitVec 2) : Nat := 1 <<< code.toNat

/-- Pixels in a byte, `ppb = 8 / D` (R210). -/
def pixelsPerByte (code : BitVec 2) : Nat := 8 / depthBits code

/-- `PixGen(index, D)` on the byte that holds the pixel (R212). -/
def pixGen (raw : Byte) (index : Nat) (code : BitVec 2) : Byte :=
  (raw >>> ((index % pixelsPerByte code) * depthBits code)) &&& BitVec.ofNat 8 ((1 <<< depthBits code) - 1)

/-- `PixLegacy(index, D)` on the byte that holds the pixel (R213). -/
def pixLegacy (raw : Byte) (index : Nat) (code : BitVec 2) : Byte :=
  if index % 2 = 0 then raw &&& 0x0F#8 else (raw &&& 0xF0#8) >>> depthBits code

/-- The formula `P_PIXEL_MODE` selects (R216). -/
def pixelOf (mode : PixelMode) (raw : Byte) (index : Nat) (code : BitVec 2) : Byte :=
  match mode with
  | .generalized => pixGen raw index code
  | .legacy => pixLegacy raw index code

end Sys2Proof.Machine
end

