-- ==== Sys2Proof/Machine/Accessor.lean ====
section
/-! DEFINITION. The byte accessor commands of spec/40_rombuffer.md (R110 to R126). -/
namespace Sys2Proof.Machine

/-- A scalar read of `w` bytes, its value passed through `f` (R111 to R114). -/
def scalarRead (start : Start) (w : Nat) (f : Word → Word) (s : State) : State :=
  let a := base start s
  if inBounds s a.toNat w then (s.moveCursor (a.toNat + w)).respond (f (s.rom.readLE a.toNat w)) []
  else s.raise .outOfBounds a

/-- `BulkRead(cmd, w)` (R115). -/
def bulkRead (start : Start) (w : Nat) (count : Word) (s : State) : State :=
  let a := base start s
  let n := count.toNat
  if inBounds s a.toNat (n * w) then
    (s.moveCursor (a.toNat + n * w)).respond count
      ((List.range n).map (fun i => s.rom.readLE (a.toNat + i * w) w))
  else s.raise .outOfBounds a

/-- A scalar write of `w` bytes (R119 to R121). -/
def scalarWrite (start : Start) (w : Nat) (value : Word) (s : State) : State :=
  let a := base start s
  if inBounds s a.toNat w then
    ((s.setRom (s.rom.writeLE a.toNat value w)).moveCursor (a.toNat + w)).respond 0 []
  else s.raise .outOfBounds a

/-- How many bytes of each element a bulk write of width `w` stores (R122). -/
def storedWidth (mode : BulkWriteMode) (w : Nat) : Nat :=
  match mode with
  | .fullWidth => w
  | .legacyByte => 1

/-- The loop of `BulkWrite`: the elements at stride `w`, `k` bytes of each (R122). -/
def bulkStore (m : Memory) (a w k : Nat) : List Word → Memory
  | [] => m
  | v :: vs => bulkStore (m.writeLE a v k) (a + w) w k vs

/-- `BulkWrite(cmd, w)` (R122). For `w = 1` the two modes store the same. -/
def bulkWrite (start : Start) (w : Nat) (data : List Word) (s : State) : State :=
  let a := base start s
  let n := data.length
  if inBounds s a.toNat (n * w) then
    ((s.setRom (bulkStore s.rom a.toNat w (storedWidth s.params.bulkWrite w) data)).moveCursor
      (a.toNat + n * w)).respond 0 []
  else s.raise .outOfBounds a

/-- `READ_U8` (R111). -/
def execReadU8 (start : Start) (s : State) : Host.Outcome State Fault Refusal :=
  .next (scalarRead start 1 id s)

/-- `READ_U16` (R112). -/
def execReadU16 (start : Start) (s : State) : Host.Outcome State Fault Refusal :=
  .next (scalarRead start 2 id s)

/-- `READ_U32` (R113). -/
def execReadU32 (start : Start) (s : State) : Host.Outcome State Fault Refusal :=
  .next (scalarRead start 4 id s)

/-- `READ_PTR` (R114). -/
def execReadPtr (start : Start) (s : State) : Host.Outcome State Fault Refusal :=
  .next (scalarRead start 4 pointerMask s)

/-- `READ_U8_N` (R116). -/
def execReadU8N (start : Start) (count : Word) (s : State) : Host.Outcome State Fault Refusal :=
  .next (bulkRead start 1 count s)

/-- `READ_U16_N` (R117). -/
def execReadU16N (start : Start) (count : Word) (s : State) : Host.Outcome State Fault Refusal :=
  .next (bulkRead start 2 count s)

/-- `READ_U32_N` (R118). -/
def execReadU32N (start : Start) (count : Word) (s : State) : Host.Outcome State Fault Refusal :=
  .next (bulkRead start 4 count s)

/-- `WRITE_U8` (R119). -/
def execWriteU8 (start : Start) (value : Word) (s : State) : Host.Outcome State Fault Refusal :=
  .next (scalarWrite start 1 value s)

/-- `WRITE_U16` (R120). -/
def execWriteU16 (start : Start) (value : Word) (s : State) : Host.Outcome State Fault Refusal :=
  .next (scalarWrite start 2 value s)

/-- `WRITE_U32` (R121). -/
def execWriteU32 (start : Start) (value : Word) (s : State) : Host.Outcome State Fault Refusal :=
  .next (scalarWrite start 4 value s)

/-- `WRITE_U8_N` (R123). -/
def execWriteU8N (start : Start) (data : List Word) (s : State) : Host.Outcome State Fault Refusal :=
  .next (bulkWrite start 1 data s)

/-- `WRITE_U16_N` (R124). -/
def execWriteU16N (start : Start) (data : List Word) (s : State) : Host.Outcome State Fault Refusal :=
  .next (bulkWrite start 2 data s)

/-- `WRITE_U32_N` (R125). -/
def execWriteU32N (start : Start) (data : List Word) (s : State) : Host.Outcome State Fault Refusal :=
  .next (bulkWrite start 4 data s)

end Sys2Proof.Machine
end

