-- ==== Sys2Proof/WellFormed.lean ====
section
/-! DEFINITION. Which instructions have an encoding: a bulk write's `DATA` is a list of at most 2^32 - 1 words
(spec/30_encoding.md R80), whose length is `COUNT`, and a short LZ77 header declares a nonzero length (R91). Every
other field is as wide in the syntax as in the encoding. -/
namespace Sys2Proof

/-- `DATA` is a list of 0 to 2^32 - 1 words (spec/30_encoding.md R80). -/
def dataFits (data : List Word) : Bool := decide (data.length < 4294967296)

def Instr.wellFormed : Instr → Bool
  | .writeU8N _ data => dataFits data
  | .writeU16N _ data => dataFits data
  | .writeU32N _ data => dataFits data
  | .lz77Hdr l3 => decide (l3 ≠ 0)
  | .readU8 _ | .readU16 _ | .readU32 _ | .readPtr _ => true
  | .readU8N _ _ | .readU16N _ _ | .readU32N _ _ => true
  | .writeU8 _ _ | .writeU16 _ _ | .writeU32 _ _ => true
  | .lz77Decompress _ => true
  | .paletteLoad _ _ | .paletteGet _ | .rgbUnpack _ => true
  | .pixelLoad _ _ _ | .pixelGet _ => true
  | .readReg _ => true
  | .lz77Hdrx _ | .lz77Flags _ | .lz77Lit _ | .lz77Ref _ _ => true

end Sys2Proof
end

