-- ==== Sys2Proof/Decode.lean ====
section
/-! DEFINITION. The decoder of command records (spec/30_encoding.md R81 to R90) and of LZ77 stream elements (R91 to
R97), both total and both rejecting by name, and after them the encoders, written from the same rules. -/
namespace Sys2Proof

/-- Why a record or a run of stream bytes is no instruction. -/
inductive Reject where
  /-- R90 item 1. -/
  | unassignedOp (op : Byte)
  /-- R90 item 2: `CMD[31:11]` is nonzero. -/
  | reservedBits
  /-- R90 item 3: `A = 1` on a command that has no cursor form. -/
  | addressSelectUnused
  /-- R90 item 3: `DEPTH` is nonzero on a command other than `PIXEL_LOAD`. -/
  | depthUnused
  /-- R90 item 4: `len(DATA)` is not `COUNT`. -/
  | dataLength
  /-- R90 item 5: a register number of 7 or more. -/
  | unassignedRegister
  /-- The stream ends inside the element. -/
  | truncated
  /-- The first byte of a header is not 0x10 (R91). -/
  | badMarker
  deriving DecidableEq, Repr

/-! ### The command word (R81) -/

/-- `CMD[7:0]`, the opcode. -/
def opField (cmd : Word) : Byte := cmd.extractLsb' 0 8

/-- `CMD[8]`, the address select. -/
def aField (cmd : Word) : Bool := cmd.getLsbD 8

/-- `CMD[10:9]`, the depth code. -/
def depthField (cmd : Word) : BitVec 2 := cmd.extractLsb' 9 2

/-- `CMD[31:11]`, reserved. -/
def reservedField (cmd : Word) : BitVec 21 := cmd.extractLsb' 11 21

/-- The start of an accessor command (R82): with `A = 0` the `ADDR` field is ignored. -/
def startOf (c : Command) : Start := if aField c.cmd then .addressed c.addr else .atCursor

/-- The register numbers of spec/10_state.md R36. -/
def regOfIndex (index : Word) : Option RegName :=
  match index.toNat with
  | 0 => some .cursor
  | 1 => some .status
  | 2 => some .palLen
  | 3 => some .pixLen
  | 4 => some .pixDepth
  | 5 => some .romSize
  | 6 => some .config
  | _ => none

/-- An accessor command (R90 item 3): `A` is its address select, `DEPTH` must be 0. -/
def accessorForm (c : Command) (i : Instr) : Except Reject Instr :=
  if depthField c.cmd ≠ 0 then .error .depthUnused else .ok i

/-- A bulk write (R90 items 3 and 4). -/
def bulkWriteForm (c : Command) (i : Instr) : Except Reject Instr :=
  if c.data.length ≠ c.count.toNat then .error .dataLength else accessorForm c i

/-- A command that uses `DEPTH` but not `A` (R82, R83). -/
def depthForm (c : Command) (i : Instr) : Except Reject Instr :=
  if aField c.cmd then .error .addressSelectUnused else .ok i

/-- A command that uses neither `A` nor `DEPTH` (R90 item 3). -/
def plainForm (c : Command) (i : Instr) : Except Reject Instr :=
  if aField c.cmd then .error .addressSelectUnused else accessorForm c i

/-- `READ_REG` (R90 item 5). -/
def readRegForm (c : Command) : Except Reject Instr :=
  match regOfIndex c.index with
  | some r => plainForm c (.readReg r)
  | none => .error .unassignedRegister

/-- The opcode map of R85, on a command whose reserved bits are 0. -/
def decodeOp (c : Command) : Except Reject Instr :=
  match (opField c.cmd).toNat with
  | 0x01 => accessorForm c (.readU8 (startOf c))
  | 0x02 => accessorForm c (.readU16 (startOf c))
  | 0x03 => accessorForm c (.readU32 (startOf c))
  | 0x04 => accessorForm c (.readPtr (startOf c))
  | 0x05 => accessorForm c (.readU8N (startOf c) c.count)
  | 0x06 => accessorForm c (.readU16N (startOf c) c.count)
  | 0x07 => accessorForm c (.readU32N (startOf c) c.count)
  | 0x09 => accessorForm c (.writeU8 (startOf c) c.value)
  | 0x0A => accessorForm c (.writeU16 (startOf c) c.value)
  | 0x0B => accessorForm c (.writeU32 (startOf c) c.value)
  | 0x0D => bulkWriteForm c (.writeU8N (startOf c) c.data)
  | 0x0E => bulkWriteForm c (.writeU16N (startOf c) c.data)
  | 0x0F => bulkWriteForm c (.writeU32N (startOf c) c.data)
  | 0x10 => plainForm c (.lz77Decompress c.addr)
  | 0x20 => plainForm c (.paletteLoad c.addr c.count)
  | 0x21 => plainForm c (.paletteGet c.index)
  | 0x22 => plainForm c (.rgbUnpack c.value)
  | 0x30 => depthForm c (.pixelLoad c.addr c.count (depthField c.cmd))
  | 0x31 => plainForm c (.pixelGet c.index)
  | 0x40 => readRegForm c
  | _ => .error (.unassignedOp (opField c.cmd))

/-- The instruction of a command record, or why the command is illegal (R90). When several of R90's conditions hold
the result is the same response, so the order in which they are found does not matter (spec/60_exceptions.md R244). -/
def decode (c : Command) : Except Reject Instr :=
  if reservedField c.cmd ≠ 0 then .error .reservedBits else decodeOp c

/-! ### Stream elements (R91 to R97) -/

/-- Little-endian assembly of three bytes (R91). -/
def le24 (b1 b2 b3 : Byte) : BitVec 24 := b3 ++ b2 ++ b1

/-- Little-endian assembly of four bytes (R92). -/
def le32 (b4 b5 b6 b7 : Byte) : Word := b7 ++ b6 ++ b5 ++ b4

/-- The bytes of a header after its marker (R91, R92): a zero 3-byte length selects the extended form. -/
def decodeLength : List Byte → Except Reject Element
  | b1 :: b2 :: b3 :: rest =>
    if le24 b1 b2 b3 ≠ 0 then .ok (.hdr (le24 b1 b2 b3))
    else
      match rest with
      | b4 :: b5 :: b6 :: b7 :: _ => .ok (.hdrx (le32 b4 b5 b6 b7))
      | _ => .error .truncated
  | _ => .error .truncated

/-- The element at the head of the stream bytes, for a decoder that expects `x` (R97). -/
def decodeElement (x : Expect) (bs : List Byte) : Except Reject Element :=
  match x with
  | .header =>
    match bs with
    | m :: rest => if m = 0x10#8 then decodeLength rest else .error .badMarker
    | [] => .error .truncated
  | .flags =>
    match bs with
    | f :: _ => .ok (.flags f)
    | [] => .error .truncated
  | .literal =>
    match bs with
    | b :: _ => .ok (.lit b)
    | [] => .error .truncated
  | .backRef =>
    match bs with
    | v :: e :: _ => .ok (.ref (v.extractLsb' 4 4) (v.extractLsb' 0 4 ++ e))
    | _ => .error .truncated

/-- A stream element as an instruction. -/
def elementInstr : Element → Instr
  | .hdr l3 => .lz77Hdr l3
  | .hdrx l4 => .lz77Hdrx l4
  | .flags f => .lz77Flags f
  | .lit b => .lz77Lit b
  | .ref len offset => .lz77Ref len offset

/-! ### The two kinds of encoded instruction -/

/-- An instruction as it is given to the block: a command record, or stream bytes met by a decoder that expects `x`. -/
inductive Encoded where
  | record (c : Command)
  | stream (x : Expect) (bytes : List Byte)
  deriving DecidableEq, Repr

/-- The instruction of either kind of encoding. -/
def decodeEncoded : Encoded → Except Reject Instr
  | .record c => decode c
  | .stream x bytes => (decodeElement x bytes).map elementInstr

/-! ### The encoder -/

/-- The command word of R81 with its reserved bits 0. -/
def commandWord (op : Byte) (a : Bool) (depth : BitVec 2) : Word :=
  (0#21 ++ depth) ++ (BitVec.ofBool a ++ op)

/-- A record whose operand fields are 0, with the command word given: "an omitted field is 0" (R100). -/
def bareRecord (cmd : Word) : Command :=
  { cmd := cmd, addr := 0, count := 0, value := 0, index := 0, data := [] }

/-- An accessor's record: `A` and `ADDR` from the start (R82). -/
def accessorRecord (op : Byte) : Start → Command
  | .addressed addr => { bareRecord (commandWord op true 0) with addr := addr }
  | .atCursor => bareRecord (commandWord op false 0)

/-- The record of a command that uses neither `A` nor `DEPTH`. -/
def plainRecord (op : Byte) : Command := bareRecord (commandWord op false 0)

/-- A bulk write's record: `COUNT` is the length of `DATA` (R90 item 4). -/
def bulkWriteRecord (op : Byte) (start : Start) (data : List Word) : Command :=
  { accessorRecord op start with count := BitVec.ofNat 32 data.length, data := data }

/-- The number of a register (spec/10_state.md R36). -/
def regIndex : RegName → Word
  | .cursor => 0
  | .status => 1
  | .palLen => 2
  | .pixLen => 3
  | .pixDepth => 4
  | .romSize => 5
  | .config => 6

/-- Byte `k` of a value, the least significant being byte 0. -/
def byteOf {w : Nat} (v : BitVec w) (k : Nat) : Byte := v.extractLsb' (8 * k) 8

/-- The bytes of a stream element, in stream order (R91 to R95). -/
def encodeElement : Element → List Byte
  | .hdr l3 => [0x10#8, byteOf l3 0, byteOf l3 1, byteOf l3 2]
  | .hdrx l4 => [0x10#8, 0#8, 0#8, 0#8, byteOf l4 0, byteOf l4 1, byteOf l4 2, byteOf l4 3]
  | .flags f => [f]
  | .lit b => [b]
  | .ref len offset => [len ++ offset.extractLsb' 8 4, offset.extractLsb' 0 8]

/-- What the decoder must expect to read this element. -/
def elementExpect : Element → Expect
  | .hdr _ => .header
  | .hdrx _ => .header
  | .flags _ => .flags
  | .lit _ => .literal
  | .ref _ _ => .backRef

/-- An element's encoding. -/
def streamEncoding (e : Element) : Encoded := .stream (elementExpect e) (encodeElement e)

/-- The encoding of an instruction (R85, R86; R91 to R95). -/
def encode : Instr → Encoded
  | .readU8 start => .record (accessorRecord 0x01#8 start)
  | .readU16 start => .record (accessorRecord 0x02#8 start)
  | .readU32 start => .record (accessorRecord 0x03#8 start)
  | .readPtr start => .record (accessorRecord 0x04#8 start)
  | .readU8N start count => .record { accessorRecord 0x05#8 start with count := count }
  | .readU16N start count => .record { accessorRecord 0x06#8 start with count := count }
  | .readU32N start count => .record { accessorRecord 0x07#8 start with count := count }
  | .writeU8 start value => .record { accessorRecord 0x09#8 start with value := value }
  | .writeU16 start value => .record { accessorRecord 0x0A#8 start with value := value }
  | .writeU32 start value => .record { accessorRecord 0x0B#8 start with value := value }
  | .writeU8N start data => .record (bulkWriteRecord 0x0D#8 start data)
  | .writeU16N start data => .record (bulkWriteRecord 0x0E#8 start data)
  | .writeU32N start data => .record (bulkWriteRecord 0x0F#8 start data)
  | .lz77Decompress addr => .record { plainRecord 0x10#8 with addr := addr }
  | .paletteLoad addr count => .record { plainRecord 0x20#8 with addr := addr, count := count }
  | .paletteGet index => .record { plainRecord 0x21#8 with index := index }
  | .rgbUnpack value => .record { plainRecord 0x22#8 with value := value }
  | .pixelLoad addr count depth =>
    .record { bareRecord (commandWord 0x30#8 false depth) with addr := addr, count := count }
  | .pixelGet index => .record { plainRecord 0x31#8 with index := index }
  | .readReg r => .record { plainRecord 0x40#8 with index := regIndex r }
  | .lz77Hdr l3 => streamEncoding (.hdr l3)
  | .lz77Hdrx l4 => streamEncoding (.hdrx l4)
  | .lz77Flags f => streamEncoding (.flags f)
  | .lz77Lit b => streamEncoding (.lit b)
  | .lz77Ref len offset => streamEncoding (.ref len offset)

/-! ### The opcode table's numbering -/

/-- The bytes of a number, least significant first. -/
def littleBytes (w : Nat) : Nat → List Byte
  | 0 => []
  | n + 1 => BitVec.ofNat 8 w :: littleBytes (w / 256) n

/-- How the block meets the word `w` of `nbits` bits of spec/opcode_table.json, every bit above them 0.
DESIGN CHOICE (log 9, safe): the table has rows of different kinds with the same words. A word of 8 bits is met as a
flag byte and one of 16 bits as a back-reference (`v` in bits 15:8, as the table numbers it); any other word is met
as `CMD` of a command record whose operand fields are 0, and only where that is illegal, and its bytes are an LZ77
header, as the header. -/
def tableEncoding (nbits w : Nat) : Encoded :=
  let w := w % 2 ^ nbits
  if nbits = 8 then .stream .flags [BitVec.ofNat 8 w]
  else if nbits = 16 then .stream .backRef [BitVec.ofNat 8 (w / 256), BitVec.ofNat 8 w]
  else
    let c := bareRecord (BitVec.ofNat 32 w)
    match decode c, decodeElement .header (littleBytes w 8) with
    | .error _, .ok _ => .stream .header (littleBytes w 8)
    | _, _ => .record c

/-- The instruction the decoder reads from a word numbered as spec/opcode_table.json numbers it. -/
def decodeTableWord (nbits w : Nat) : Option Instr :=
  (decodeEncoded (tableEncoding nbits w)).toOption

end Sys2Proof
end

