-- ==== Sys2Proof/Machine/Lz77.lean ====
section
/-! DEFINITION. The LZ77 decompressor of spec/41_lz77.md: the procedure `Lz77(a)` of R151 as the run of its stream
elements, each element's effect on the working state of spec/10_state.md R31, the meaning of each element as an
instruction, and `LZ77_DECOMPRESS` (R150). -/
namespace Sys2Proof.Machine

/-! ### Where the decoder stands -/

/-- The working state before the first stream byte, for the command that takes the bytes. -/
def freshWork (consumer : Consumer) : Lz77Work where
  consumer := consumer
  phase := .header
  length := 0
  position := 0
  flags := 0
  bit := 7
  out := []

/-- What the decoder reads next (spec/30_encoding.md R97): an item is a back-reference if its flag bit is 1, else a
literal (R155). -/
def nextExpect (w : Lz77Work) : Expect :=
  match w.phase with
  | .header => .header
  | .group => .flags
  | .item => if w.flags.getLsbD w.bit.val then .backRef else .literal

/-! ### Reading the stream (spec/20_memory.md R58) -/

/-- A stream byte read at the end of the ROM: `OutOfBounds` at the first byte that could not be read, `CURSOR` after
the bytes that could (R58, spec/41_lz77.md R163, spec/60_exceptions.md R243). -/
def streamEnds (s : State) : State :=
  let missing := max s.cursor.toNat s.params.romSize.toNat
  (s.moveCursor missing).raise .outOfBounds (BitVec.ofNat 32 missing)

/-- The `n` bytes of an element read by `RdB`, then `f` on the state whose `CURSOR` is after them. -/
def consume (n : Nat) (s : State) (f : State → State) : State :=
  if inBounds s s.cursor.toNat n then f (s.moveCursor (s.cursor.toNat + n)) else streamEnds s

/-- The stream bytes an element could have: eight at `CURSOR`, fewer at the end of the ROM. -/
def streamBytes (s : State) : List Byte :=
  s.rom.bytes s.cursor.toNat (min 8 (s.params.romSize.toNat - s.cursor.toNat))

/-- The next element, read for what the decoder expects. -/
def fetchElement (w : Lz77Work) (s : State) : Except Reject Element := decodeElement (nextExpect w) (streamBytes s)

/-- A stream that holds no next element: a first byte that is not the marker is read and raises `InvalidOpcode` with
its address (R152); else the ROM ends inside the element (R58). -/
def streamRejects (r : Reject) (s : State) : State :=
  match r with
  | .badMarker => (s.moveCursor (s.cursor.toNat + 1)).raise .invalidOpcode s.cursor
  | _ => streamEnds s

/-! ### The bytes' destination -/

/-- The bytes of an asset go where its command wants them, with the flag that says which path they came by
(spec/41_lz77.md R150, spec/42_palette.md R192, spec/43_pixelplane.md R215). -/
def deliver (consumer : Consumer) (bytes : List Byte) (comp : Bool) (s : State) : State :=
  match consumer with
  | .response => s.respond (BitVec.ofNat 32 bytes.length) (bytes.map (BitVec.setWidth 32))
  | .palette => (s.setPalette bytes comp).respond (BitVec.ofNat 32 (bytes.length / 2)) []
  | .pixels depth => (s.setPlane bytes depth comp).respond (BitVec.ofNat 32 bytes.length) []

/-- The loop condition of R154: another flag byte while `position < length`, else the result (R162). -/
def mainLoop (w : Lz77Work) (s : State) : State :=
  if w.position < w.length.toNat then s.setWork { w with phase := .group } else deliver w.consumer w.out true s

/-- The end of a flag bit (R155): the group ends if the item leaves it (R160), if `position > length` (R161), or after
bit 0; else the next bit. -/
def afterItem (leave : Bool) (w : Lz77Work) (s : State) : State :=
  if leave || decide (w.length.toNat < w.position) || decide (w.bit.val = 0) then mainLoop w s
  else s.setWork { w with phase := .item, bit := ⟨w.bit.val - 1, by omega⟩ }

/-! ### The elements -/

/-- A header of `n` bytes that declares `length` (R152, R153): the capacity check, then the main loop. -/
def takeHeader (n : Nat) (length : Word) (w : Lz77Work) (s : State) : State :=
  consume n s fun t =>
    if s.params.bufCap.val < length.toNat then t.raise .outputTooLarge length
    else mainLoop { w with length := length, position := 0, out := [] } t

/-- A flag byte (R155): its items start at bit 7. -/
def takeFlags (f : Byte) (w : Lz77Work) (s : State) : State :=
  consume 1 s fun t => t.setWork { w with phase := .item, flags := f, bit := 7 }

/-- A literal (R159), or a trailing pad once `position` has reached `length`, which leaves the group if it is 0
(R160). -/
def takeLiteral (x : Byte) (w : Lz77Work) (s : State) : State :=
  consume 1 s fun t =>
    if w.position < w.length.toNat then
      afterItem false { w with out := w.out ++ [x], position := w.position + 1 } t
    else afterItem (decide (x = 0)) w t

/-- One byte of the match copy, byte `j` (R157), with the test of R158. -/
def copyByte (position offset length : Nat) (out : List Byte) (j : Nat) : List Byte :=
  if position + j < length then out ++ [out.getD (position - offset - 1 + j) 0] else out

/-- The match copy: one byte at a time, `j` ascending (R157). -/
def matchCopy (position offset length copyLength : Nat) (out : List Byte) : List Byte :=
  (List.range copyLength).foldl (copyByte position offset length) out

/-- A back-reference (R156 to R158). -/
def takeRef (len : BitVec 4) (offset : BitVec 12) (w : Lz77Work) (s : State) : State :=
  let va := s.cursor
  let copyLength := len.toNat + 3
  consume 2 s fun t =>
    if w.position ≤ offset.toNat then t.raise .invalidBackReference va
    else if s.params.overrun = .fault ∧ w.length.toNat < w.position + copyLength then t.raise .overrun va
    else
      afterItem false
        { w with
          out := matchCopy w.position offset.toNat w.length.toNat copyLength w.out
          position := w.position + copyLength } t

/-- The effect of an element on the decoder that reads it. -/
def takeElement (e : Element) (w : Lz77Work) (s : State) : State :=
  match e with
  | .hdr l3 => takeHeader 4 (l3.setWidth 32) w s
  | .hdrx l4 => takeHeader 8 l4 w s
  | .flags f => takeFlags f w s
  | .lit b => takeLiteral b w s
  | .ref len offset => takeRef len offset w s

/-! ### The procedure -/

/-- One element of the stream, read and carried out; nothing where no decompression runs. -/
def elementStep (s : State) : State :=
  match s.work with
  | none => s
  | some w =>
    match fetchElement w s with
    | .ok e => takeElement e w s
    | .error r => streamRejects r s

/-- Elements until the decompression ends. Each reads at least one byte of the ROM, so with `n` bytes left it has
ended after `n` of them or ends at the next, which meets the end of the ROM (R166). -/
def drain : Nat → State → State
  | 0, s => elementStep s
  | n + 1, s =>
    match s.work with
    | none => s
    | some _ => drain n (elementStep s)

/-- `Lz77(a)` (R151): the first read is at `a`, and if it fails `CURSOR` is unchanged (R152). -/
def lz77 (consumer : Consumer) (a : Word) (s : State) : State :=
  if inBounds s a.toNat 1 then
    drain (s.params.romSize.toNat - a.toNat) ((s.moveCursor a.toNat).setWork (freshWork consumer))
  else s.raise .outOfBounds a

/-- `LoadBytes(a, n)` (spec/42_palette.md R191) and the rest of the load that called it: the first-byte read, then the
compressed path, or the range check, the capacity check and the copy. -/
def loadAsset (consumer : Consumer) (a : Word) (n : Nat) (s : State) : State :=
  if inBounds s a.toNat 1 then
    let t := s.moveCursor (a.toNat + 1)
    if s.rom.byte a.toNat = 0x10#8 then lz77 consumer a t
    else if !inBounds s a.toNat n then t.raise .outOfBounds a
    else if s.params.bufCap.val < n then t.raise .outputTooLarge (BitVec.ofNat 32 n)
    else deliver consumer (s.rom.bytes a.toNat n) false (s.moveCursor (a.toNat + n))
  else s.raise .outOfBounds a

/-! ### The meanings -/

/-- An element as an instruction: its effect where a decoder reads an element of its kind, refused elsewhere (log 7). -/
def whereExpected (x : Expect) (s : State) (f : Lz77Work → State) : Host.Outcome State Fault Refusal :=
  match s.work with
  | some w => if nextExpect w = x then .next (f w) else .refused .elementOutOfPlace
  | none => .refused .elementOutOfPlace

/-- `LZ77_DECOMPRESS` (R150). -/
def execLz77Decompress (addr : Word) (s : State) : Host.Outcome State Fault Refusal :=
  .next (lz77 .response addr s)

/-- `LZ77_HDR`: the marker and a nonzero 3-byte length (R152, R153). -/
def execLz77Hdr (l3 : BitVec 24) (s : State) : Host.Outcome State Fault Refusal :=
  whereExpected .header s fun w => takeHeader 4 (l3.setWidth 32) w s

/-- `LZ77_HDRX`: the marker, a zero 3-byte length and a 4-byte length (R152, R153). -/
def execLz77Hdrx (l4 : Word) (s : State) : Host.Outcome State Fault Refusal :=
  whereExpected .header s fun w => takeHeader 8 l4 w s

/-- `LZ77_FLAGS` (R155). -/
def execLz77Flags (f : Byte) (s : State) : Host.Outcome State Fault Refusal :=
  whereExpected .flags s fun w => takeFlags f w s

/-- `LZ77_LIT` (R159, R160). -/
def execLz77Lit (b : Byte) (s : State) : Host.Outcome State Fault Refusal :=
  whereExpected .literal s fun w => takeLiteral b w s

/-- `LZ77_REF` (R156 to R158). -/
def execLz77Ref (len : BitVec 4) (offset : BitVec 12) (s : State) : Host.Outcome State Fault Refusal :=
  whereExpected .backRef s fun w => takeRef len offset w s

end Sys2Proof.Machine
end

