-- ==== Sys2Proof/Machine/Palette.lean ====
section
/-! DEFINITION. The palette color unpacker of spec/42_palette.md (R190 to R196). -/
namespace Sys2Proof.Machine

/-- `PALETTE_LOAD` (R192): `2 * COUNT` is computed without wrap. -/
def execPaletteLoad (addr count : Word) (s : State) : Host.Outcome State Fault Refusal :=
  .next (loadAsset .palette addr (2 * count.toNat) s)

/-- `PALETTE_GET` (R193). -/
def execPaletteGet (index : Word) (s : State) : Host.Outcome State Fault Refusal :=
  if s.palLen.toNat / 2 ≤ index.toNat then .next (s.raise .outOfBounds index)
  else .next (s.respond (rgb (colorEntry s.palBuf index.toNat)) [])

/-- `RGB_UNPACK` (R194): `VALUE[31:16]` is ignored. -/
def execRgbUnpack (value : Word) (s : State) : Host.Outcome State Fault Refusal :=
  .next (s.respond (rgb (value.extractLsb' 0 16)) [])

end Sys2Proof.Machine
end

