-- ==== Sys2Proof/Machine/Pixel.lean ====
section
/-! DEFINITION. The indexed-color pixel plane decoder of spec/43_pixelplane.md (R210 to R217). -/
namespace Sys2Proof.Machine

/-- `PIXEL_LOAD` (R215). -/
def execPixelLoad (addr count : Word) (depth : BitVec 2) (s : State) : Host.Outcome State Fault Refusal :=
  .next (loadAsset (.pixels depth) addr count.toNat s)

/-- `PIXEL_GET` (R216). -/
def execPixelGet (index : Word) (s : State) : Host.Outcome State Fault Refusal :=
  if s.pixLen.toNat * pixelsPerByte s.pixDepth ≤ index.toNat then .next (s.raise .outOfBounds index)
  else
    .next (s.respond
      ((pixelOf s.params.pixel (bufferByte s.pixBuf (index.toNat / pixelsPerByte s.pixDepth)) index.toNat
        s.pixDepth).setWidth 32) [])

end Sys2Proof.Machine
end

