-- ==== Sys2Proof/Machine/System.lean ====
section
/-! DEFINITION. The system command of spec/44_system.md. -/
namespace Sys2Proof.Machine

/-- `READ_REG` (R230): the register's value before this command's own update of `STATUS.ERR`. -/
def execReadReg (reg : RegName) (s : State) : Host.Outcome State Fault Refusal :=
  .next (s.respond (regValue reg s) [])

end Sys2Proof.Machine
end

