-- ==== Sys2Proof/Machine/Dispatch.lean ====
section
/-! DEFINITION. One arm per instruction (spec/44_system.md R234). -/
namespace Sys2Proof.Machine

def exec (i : Instr) (s : State) : Host.Outcome State Fault Refusal :=
  match i with
  | .readU8 start => Sys2Proof.Machine.execReadU8 start s
  | .readU16 start => Sys2Proof.Machine.execReadU16 start s
  | .readU32 start => Sys2Proof.Machine.execReadU32 start s
  | .readPtr start => Sys2Proof.Machine.execReadPtr start s
  | .readU8N start count => Sys2Proof.Machine.execReadU8N start count s
  | .readU16N start count => Sys2Proof.Machine.execReadU16N start count s
  | .readU32N start count => Sys2Proof.Machine.execReadU32N start count s
  | .writeU8 start value => Sys2Proof.Machine.execWriteU8 start value s
  | .writeU16 start value => Sys2Proof.Machine.execWriteU16 start value s
  | .writeU32 start value => Sys2Proof.Machine.execWriteU32 start value s
  | .writeU8N start data => Sys2Proof.Machine.execWriteU8N start data s
  | .writeU16N start data => Sys2Proof.Machine.execWriteU16N start data s
  | .writeU32N start data => Sys2Proof.Machine.execWriteU32N start data s
  | .lz77Decompress addr => Sys2Proof.Machine.execLz77Decompress addr s
  | .paletteLoad addr count => Sys2Proof.Machine.execPaletteLoad addr count s
  | .paletteGet index => Sys2Proof.Machine.execPaletteGet index s
  | .rgbUnpack value => Sys2Proof.Machine.execRgbUnpack value s
  | .pixelLoad addr count depth => Sys2Proof.Machine.execPixelLoad addr count depth s
  | .pixelGet index => Sys2Proof.Machine.execPixelGet index s
  | .readReg reg => Sys2Proof.Machine.execReadReg reg s
  | .lz77Hdr l3 => Sys2Proof.Machine.execLz77Hdr l3 s
  | .lz77Hdrx l4 => Sys2Proof.Machine.execLz77Hdrx l4 s
  | .lz77Flags f => Sys2Proof.Machine.execLz77Flags f s
  | .lz77Lit b => Sys2Proof.Machine.execLz77Lit b s
  | .lz77Ref len offset => Sys2Proof.Machine.execLz77Ref len offset s

end Sys2Proof.Machine
end

