-- ==== Sys2Proof/Machine/Fetch.lean ====
section
/-! DEFINITION. What the block does next: the next stream element of a decompression that runs, else the host's next
move (spec/44_system.md R233 to R235). -/
namespace Sys2Proof.Machine

/-- What the block meets. -/
inductive Fetched where
  /-- An instruction, and the state it runs in. -/
  | instr (i : Instr) (s : State)
  /-- No instruction: the state the block goes to. -/
  | settled (s : State)
  /-- The host breaks a duty. -/
  | stopped (r : Fault)
  deriving DecidableEq, Repr

/-- The next stream element of a running decompression. -/
def fetchStream (w : Lz77Work) (s : State) : Fetched :=
  match fetchElement w s with
  | .ok e => .instr (elementInstr e) s
  | .error r => .settled (streamRejects r s)

/-- `Execute(cmd)` up to the run of the command's rule (spec/44_system.md R234). -/
def fetchCommand (c : Command) (s : State) : Fetched :=
  match decode c with
  | .ok i => .instr i s
  | .error _ => .settled s.rejectCommand

/-- A host reset. -/
def fetchReset (s : State) (image : Option (List Byte)) (moves : List HostMove) : Fetched :=
  match hostReset s image moves with
  | .ok t => .settled t
  | .error r => .stopped r

/-- A block whose host has sent nothing stays as it is: nothing but a command or a reset changes state
(spec/60_exceptions.md R252; log 4). -/
def fetch (s : State) : Fetched :=
  match s.work with
  | some w => fetchStream w s
  | none =>
    match s.inbox with
    | [] => .settled s
    | .issue c :: moves => fetchCommand c (s.setInbox moves)
    | .reset image :: moves => fetchReset s image moves

/-- A working state that reads an element of this kind next, for `State.withFetchWord`. -/
def workExpecting (x : Expect) : Lz77Work :=
  match x with
  | .header => freshWork .response
  | .flags => { freshWork .response with phase := .group, length := 1 }
  | .literal => { freshWork .response with phase := .item, length := 1 }
  | .backRef => { freshWork .response with phase := .item, length := 1, flags := 0x80#8 }

/-- An encoded instruction put where the next step meets it: a record as the host's next move, stream bytes at
`CURSOR` with a decoder that reads them. -/
def placeEncoded (e : Encoded) (s : State) : State :=
  match e with
  | .record c => { s with work := none, inbox := .issue c :: s.inbox }
  | .stream x bytes => (s.setRom (s.rom.putAll s.cursor.toNat bytes)).setWork (workExpecting x)

end Sys2Proof.Machine
end

