-- ==== Sys2Proof/Machine/Step.lean ====
section
/-! DEFINITION. One step of the block: one whole command, one host reset, or nothing (spec/44_system.md R233), and the
host's aid that places a word of the opcode table where the next step runs it. -/
namespace Sys2Proof.Machine

/-- One step (log 4). -/
def step (s : State) : Host.Outcome State Fault Refusal :=
  match fetch s with
  | .instr i t => exec i t
  | .settled t => .next t
  | .stopped r => .fault r

/-- The state whose next step runs the word `w` of the opcode table (log 3 and log 9). -/
def State.withFetchWord (s : State) (nbits w : Nat) : State := placeEncoded (tableEncoding nbits w) s

end Sys2Proof.Machine
end

