-- ==== Sys2Proof/Machine/Reference.lean ====
section
/-! DEFINITION. The procedure `Lz77(a)` written as spec/41_lz77.md R151 writes it: nested loops over a work buffer of
`length` bytes that is written in place. No instruction calls it; statements compare the decoder with it. -/
namespace Sys2Proof.Machine

/-- A procedure that reads the stream: it moves `CURSOR`, and may end with an error and its fault information, in
which case `CURSOR` stays where the reads left it (spec/41_lz77.md R163). -/
abbrev Proc (α : Type) := EStateM (Error × Nat) Nat α

/-- `RdB()` (spec/20_memory.md R58). -/
def procRdB (s : State) : Proc Byte := fun cursor =>
  if cursor + 1 ≤ s.params.romSize.toNat then .ok (s.rom.byte cursor) (cursor + 1)
  else .error (.outOfBounds, cursor) cursor

/-- `RdB(a)` (R58): where it fails, `CURSOR` is unchanged. -/
def procRdBAt (s : State) (a : Nat) : Proc Byte := fun cursor =>
  if a + 1 ≤ s.params.romSize.toNat then .ok (s.rom.byte a) (a + 1) else .error (.outOfBounds, a) cursor

/-- `CURSOR`, read. -/
def procCursor : Proc Nat := fun cursor => .ok cursor cursor

/-- The work buffer, all `length` bytes of it, and the position. -/
structure WorkBuffer where
  out : List Byte
  position : Nat
  deriving DecidableEq, Repr

/-- The copy loop, `j` from 0 to `copyLength - 1` (R157, R158). -/
def procCopy (length offset copyLength : Nat) (b : WorkBuffer) : List Byte :=
  (List.range copyLength).foldl
    (fun out j =>
      if b.position + j < length then out.set (b.position + j) (out.getD (b.position - offset - 1 + j) 0) else out)
    b.out

/-- The back-reference branch (R156 to R158). -/
def procRef (s : State) (length : Nat) (b : WorkBuffer) : Proc (WorkBuffer × Bool) := do
  let va ← procCursor
  let v ← procRdB s
  let e ← procRdB s
  let copyLength := (v >>> 4).toNat + 3
  let offset := ((v &&& 0x0F#8).toNat <<< 8) ||| e.toNat
  if b.position ≤ offset then throw (.invalidBackReference, va)
  else if s.params.overrun = .fault ∧ length < b.position + copyLength then throw (.overrun, va)
  else pure (⟨procCopy length offset copyLength b, b.position + copyLength⟩, false)

/-- The literal branch (R159, R160); `true` leaves the for loop. -/
def procLiteral (s : State) (length : Nat) (b : WorkBuffer) : Proc (WorkBuffer × Bool) := do
  let x ← procRdB s
  if b.position < length then pure (⟨b.out.set b.position x, b.position + 1⟩, false)
  else pure (b, decide (x = 0))

/-- The for loop over the flag bits below `k`, from the highest down (R155), with the over-run guard (R161). -/
def procGroup (s : State) (length : Nat) (flags : Byte) : Nat → WorkBuffer → Proc WorkBuffer
  | 0, b => pure b
  | k + 1, b => do
    let r ← if flags.getLsbD k then procRef s length b else procLiteral s length b
    if r.2 || decide (length < r.1.position) then pure r.1 else procGroup s length flags k r.1

/-- The while loop (R154). `position` grows on every pass (R166), so `length` passes are enough. -/
def procLoop (s : State) (length : Nat) : Nat → WorkBuffer → Proc WorkBuffer
  | 0, b => pure b
  | n + 1, b =>
    if b.position < length then do
      let flags ← procRdB s
      let b' ← procGroup s length flags 8 b
      procLoop s length n b'
    else pure b

/-- Three or four length bytes, little-endian (R153). -/
def procLength (s : State) : Proc Nat := do
  let b1 ← procRdB s
  let b2 ← procRdB s
  let b3 ← procRdB s
  let l3 := b1.toNat ||| (b2.toNat <<< 8) ||| (b3.toNat <<< 16)
  if l3 = 0 then do
    let b4 ← procRdB s
    let b5 ← procRdB s
    let b6 ← procRdB s
    let b7 ← procRdB s
    pure (b4.toNat ||| (b5.toNat <<< 8) ||| (b6.toNat <<< 16) ||| (b7.toNat <<< 24))
  else pure l3

/-- `Lz77(a)` (R151). -/
def procLz77 (s : State) (a : Nat) : Proc (List Byte) := do
  let op ← procRdBAt s a
  if op = 0x10#8 then do
    let length ← procLength s
    if s.params.bufCap.val < length then throw (.outputTooLarge, length)
    else do
      let b ← procLoop s length length ⟨List.replicate length 0, 0⟩
      pure b.out
  else throw (.invalidOpcode, a)

/-- How a command ends whose decompression ends so: with the bytes delivered, or with the error (spec/44_system.md
R234). -/
def procEnd (consumer : Consumer) (s : State) (r : EStateM.Result (Error × Nat) Nat (List Byte)) : State :=
  match r with
  | .ok bytes cursor => deliver consumer bytes true (s.moveCursor cursor)
  | .error e cursor => (s.moveCursor cursor).raise e.1 (BitVec.ofNat 32 e.2)

end Sys2Proof.Machine
end

