-- ==== Sys2Proof/Safety.lean ====
section
/-! DEFINITION. The terms the statements use: the invariant of spec/10_state.md R34, the ends a command can have, and
what a run may not do. -/
namespace Sys2Proof

/-- The twenty commands, as against the five stream elements. -/
def Instr.isCommand : Instr → Bool
  | .readU8 _ | .readU16 _ | .readU32 _ | .readPtr _ => true
  | .readU8N _ _ | .readU16N _ _ | .readU32N _ _ => true
  | .writeU8 _ _ | .writeU16 _ _ | .writeU32 _ _ => true
  | .writeU8N _ _ | .writeU16N _ _ | .writeU32N _ _ => true
  | .lz77Decompress _ => true
  | .paletteLoad _ _ | .paletteGet _ | .rgbUnpack _ => true
  | .pixelLoad _ _ _ | .pixelGet _ => true
  | .readReg _ => true
  | .lz77Hdr _ | .lz77Hdrx _ | .lz77Flags _ | .lz77Lit _ | .lz77Ref _ _ => false

/-- An accessor command's start and how many bytes of the ROM it covers from there: `n * w` for `n` elements of width
`w`, with `n = 1` for the scalar forms (spec/40_rombuffer.md R110, R115, R122). -/
def Instr.accessRange : Instr → Option (Start × Nat)
  | .readU8 start => some (start, 1)
  | .readU16 start => some (start, 2)
  | .readU32 start => some (start, 4)
  | .readPtr start => some (start, 4)
  | .readU8N start count => some (start, count.toNat)
  | .readU16N start count => some (start, count.toNat * 2)
  | .readU32N start count => some (start, count.toNat * 4)
  | .writeU8 start _ => some (start, 1)
  | .writeU16 start _ => some (start, 2)
  | .writeU32 start _ => some (start, 4)
  | .writeU8N start data => some (start, data.length)
  | .writeU16N start data => some (start, data.length * 2)
  | .writeU32N start data => some (start, data.length * 4)
  | .lz77Decompress _ | .paletteLoad _ _ | .paletteGet _ | .rgbUnpack _ => none
  | .pixelLoad _ _ _ | .pixelGet _ | .readReg _ => none
  | .lz77Hdr _ | .lz77Hdrx _ | .lz77Flags _ | .lz77Lit _ | .lz77Ref _ _ => none

/-- The six commands that write the ROM (spec/10_state.md R21). -/
def Instr.writesRom : Instr → Bool
  | .writeU8 _ _ | .writeU16 _ _ | .writeU32 _ _ => true
  | .writeU8N _ _ | .writeU16N _ _ | .writeU32N _ _ => true
  | .readU8 _ | .readU16 _ | .readU32 _ | .readPtr _ => false
  | .readU8N _ _ | .readU16N _ _ | .readU32N _ _ => false
  | .lz77Decompress _ | .paletteLoad _ _ | .paletteGet _ | .rgbUnpack _ => false
  | .pixelLoad _ _ _ | .pixelGet _ | .readReg _ => false
  | .lz77Hdr _ | .lz77Hdrx _ | .lz77Flags _ | .lz77Lit _ | .lz77Ref _ _ => false

/-- The commands that run the decompressor or move `CURSOR` by stream reads (spec/20_memory.md R58). -/
def Instr.readsStream : Instr → Bool
  | .lz77Decompress _ | .paletteLoad _ _ | .pixelLoad _ _ _ => true
  | .readU8 _ | .readU16 _ | .readU32 _ | .readPtr _ => false
  | .readU8N _ _ | .readU16N _ _ | .readU32N _ _ => false
  | .writeU8 _ _ | .writeU16 _ _ | .writeU32 _ _ => false
  | .writeU8N _ _ | .writeU16N _ _ | .writeU32N _ _ => false
  | .paletteGet _ | .rgbUnpack _ | .pixelGet _ | .readReg _ => false
  | .lz77Hdr _ | .lz77Hdrx _ | .lz77Flags _ | .lz77Lit _ | .lz77Ref _ _ => false

end Sys2Proof

namespace Sys2Proof.Machine

/-- What the LZ77 working state satisfies between two elements (spec/10_state.md R31, spec/41_lz77.md R154, R161,
R162): before the header nothing is claimed; after it the declared length passed the capacity check, `out` is the
bytes below `position`, and `position` has not passed `length`. -/
def Lz77Work.sound (cap : Nat) (w : Lz77Work) : Bool :=
  match w.phase with
  | .header => true
  | .group =>
    decide (w.position < w.length.toNat) && decide (w.out.length = w.position) && decide (w.length.toNat ≤ cap)
  | .item =>
    decide (w.position ≤ w.length.toNat) && decide (w.out.length = w.position) && decide (w.length.toNat ≤ cap)

/-- The invariant: R34 (i) to (iv), the ROM's canonical form, the reserved bits of `STATUS` (R23), and a sound working
state where a decompression runs. -/
structure State.Inv (s : State) : Prop where
  /-- The memory is in canonical form. -/
  romWf : s.rom.wf = true
  /-- R34 (ii): the ROM has the bytes below `P_ROM_SIZE` and no other. -/
  romBelow : s.rom.below s.params.romSize.toNat = true
  /-- R34 (i). -/
  cursorIn : s.cursor.toNat ≤ s.params.romSize.toNat
  /-- R34 (iii). -/
  palLength : s.palBuf.length = s.palLen.toNat
  palCap : s.palLen.toNat ≤ s.params.bufCap.val
  /-- R34 (iv). -/
  pixLength : s.pixBuf.length = s.pixLen.toNat
  pixCap : s.pixLen.toNat ≤ s.params.bufCap.val
  /-- R23: `STATUS[31:6]` reads 0. -/
  statusReserved : statusReserved s.status = 0
  /-- R31. -/
  workSound : ∀ w, s.work = some w → w.sound s.params.bufCap.val = true

/-- A command that ended successfully: `CURSOR` at `cursor`, `STATUS.ERR` 0 and its other bits kept, the response
record of spec/30_encoding.md R88, no LZ77 working state, everything else as in `s`. -/
def State.succeeded (s : State) (cursor : Word) (value : Word) (data : List Word) : State :=
  { s with
    cursor := cursor
    status := withErr s.status 0
    response := some { err := 0, value := value, data := data }
    work := none }

/-- A command that ended with error code `code` and fault information `info` (spec/60_exceptions.md R243, R245). -/
def State.failed (s : State) (cursor : Word) (code : BitVec 4) (info : Word) : State :=
  { s with
    cursor := cursor
    status := withErr s.status code
    response := some { err := code, value := info, data := [] }
    work := none }

/-- Where an accessor command starts (spec/40_rombuffer.md R110): at `ADDR` in the addressed form, at `CURSOR` in the
cursor form. -/
def startsAt (start : Start) (s : State) (a : Word) : Prop :=
  start = .addressed a ∨ (start = .atCursor ∧ s.cursor = a)

/-- The accessor opcode whose cursor form is the command word `cmd` and whose addressed form has bit 8 set as well
(spec/30_encoding.md R81, R82): the records with these command words, and `legal` operands, are the instructions
`make` builds from them. -/
def accessorOpcode (cmd : Word) (legal : Command → Prop) (make : Start → Command → Instr) : Prop :=
  ∀ c : Command, legal c →
    (c.cmd = cmd → decode c = .ok (make .atCursor c)) ∧
    (c.cmd = cmd ||| 0x100#32 → decode c = .ok (make (.addressed c.addr) c))

/-- A record's `DATA` has as many words as its `COUNT` says (spec/30_encoding.md R90 item 4). -/
def countMatches (c : Command) : Prop := c.data.length = c.count.toNat

/-- The records with this command word are the instruction `make` builds from them. -/
def plainOpcode (cmd : Word) (make : Command → Instr) : Prop :=
  ∀ c : Command, c.cmd = cmd → decode c = .ok (make c)

/-- The values of one, two and four ROM bytes, little-endian, zero-extended (spec/20_memory.md R53). -/
def romU8 (m : Memory) (a : Nat) : Word := (m.byte a).setWidth 32

def romU16 (m : Memory) (a : Nat) : Word := romU8 m a ||| romU8 m (a + 1) <<< 8

def romU32 (m : Memory) (a : Nat) : Word :=
  romU8 m a ||| romU8 m (a + 1) <<< 8 ||| romU8 m (a + 2) <<< 16 ||| romU8 m (a + 3) <<< 24

/-- A color packed as `(red << 16) | (green << 8) | blue` (spec/30_encoding.md R89), each channel a 5-bit field of the
word shifted left by 3 (R98). -/
def packedColor (w : BitVec 16) : Word :=
  ((w.extractLsb' 0 5).setWidth 32 <<< 3) <<< 16 ||| ((w.extractLsb' 5 5).setWidth 32 <<< 3) <<< 8 |||
    (w.extractLsb' 10 5).setWidth 32 <<< 3

/-- The groups of a stream whose items are all literals: a flag byte 0 before every eight of them, and a 0 pad after
the last where its group has bits left (`left` is how many the current group has; spec/30_encoding.md R93, R94,
spec/41_lz77.md R160). -/
def storedBody : Nat → List Byte → List Byte
  | left, [] => if left = 0 then [] else [0#8]
  | 0, b :: bs => 0#8 :: b :: storedBody 7 bs
  | left + 1, b :: bs => b :: storedBody left bs

/-- A compressed block that stores the bytes as literals, with a short header (spec/30_encoding.md R91). -/
def storedBlock (bs : List Byte) : List Byte :=
  [0x10#8, BitVec.ofNat 8 bs.length, BitVec.ofNat 8 (bs.length / 256), BitVec.ofNat 8 (bs.length / 65536)] ++
    storedBody 0 bs

/-- The palette side of the state: `pal_buf`, `PAL_LEN` and `STATUS.PAL_COMP`. -/
def samePalette (s t : State) : Prop :=
  t.palBuf = s.palBuf ∧ t.palLen = s.palLen ∧ statusPalComp t.status = statusPalComp s.status

/-- The plane side of the state: `pix_buf`, `PIX_LEN`, `PIX_DEPTH` and `STATUS.PIX_COMP`. -/
def samePlane (s t : State) : Prop :=
  t.pixBuf = s.pixBuf ∧ t.pixLen = s.pixLen ∧ t.pixDepth = s.pixDepth ∧
    statusPixComp t.status = statusPixComp s.status

/-- What no instruction changes: the parameters, the reserved bits of `STATUS`, and the host's moves. -/
def sameBlock (s t : State) : Prop :=
  t.params = s.params ∧ statusReserved t.status = statusReserved s.status ∧ t.inbox = s.inbox

end Sys2Proof.Machine
end

