-- ==== Sys2Proof/Certificates/Slice0/Obligations.lean ====
section
/-! DEFINITION. The statements for the provers. Each docstring names the rules of spec/ it formalises. A statement about
all states is about all values of the parameters of spec/00_scope.md R6, which are part of the state. -/

open Sys2Proof Sys2Proof.Machine

/-! ### Encoding -/

/-- Words written out from spec/30_encoding.md R81, R85, R92, R93, R95 decode to the instructions they stand for, one
for each family. -/
def Obligations.SpecWordsDecode : Prop :=
  (∀ c : Command, c.cmd = 0b00000000000000000000000100000010#32 → decode c = .ok (.readU16 (.addressed c.addr))) ∧
  (∀ c : Command, c.cmd = 0b00000000000000000000000000001001#32 → decode c = .ok (.writeU8 .atCursor c.value)) ∧
  (∀ c : Command, c.cmd = 0b00000000000000000000000000010000#32 → decode c = .ok (.lz77Decompress c.addr)) ∧
  (∀ c : Command, c.cmd = 0b00000000000000000000000000100001#32 → decode c = .ok (.paletteGet c.index)) ∧
  (∀ c : Command, c.cmd = 0b00000000000000000000010000110000#32 →
    decode c = .ok (.pixelLoad c.addr c.count 2#2)) ∧
  (∀ c : Command, c.cmd = 0b00000000000000000000000001000000#32 → c.index = 4 →
    decode c = .ok (.readReg .pixDepth)) ∧
  (∀ rest, decodeElement .header (0x10#8 :: 0x04#8 :: 0x00#8 :: 0x01#8 :: rest) = .ok (.hdr 0x010004#24)) ∧
  (∀ rest, decodeElement .header (0x10#8 :: 0#8 :: 0#8 :: 0#8 :: 0x03#8 :: 0#8 :: 0x02#8 :: 0#8 :: rest) =
    .ok (.hdrx 0x00020003#32)) ∧
  (∀ rest, decodeElement .backRef (0b11110101#8 :: 0b00100011#8 :: rest) = .ok (.ref 0b1111#4 0b010100100011#12))

/-- Every well-formed instruction is decoded from its encoding, with every operand at every value the encoding admits
(spec/30_encoding.md R81 to R86, R91 to R95). -/
def Obligations.DecodeOfEncode : Prop :=
  ∀ i : Instr, i.wellFormed = true → decodeEncoded (encode i) = .ok i

/-- In a stream an element is decoded from the bytes it begins with, whatever bytes follow (spec/30_encoding.md R97). -/
def Obligations.ElementDecodesBeforeMoreBytes : Prop :=
  ∀ (e : Element) (rest : List Byte), (elementInstr e).wellFormed = true →
    decodeElement (elementExpect e) (encodeElement e ++ rest) = .ok e

/-- A record the decoder accepts is a well-formed command whose encoding has the same command word: no two command
words stand for one instruction (spec/30_encoding.md R81, R85). -/
def Obligations.DecodedCommandKeepsItsWord : Prop :=
  ∀ (c : Command) (i : Instr), decode c = .ok i →
    i.wellFormed = true ∧ i.isCommand = true ∧ ∃ c' : Command, encode i = .record c' ∧ c'.cmd = c.cmd

/-- A command is illegal exactly when one of the five conditions of spec/30_encoding.md R90 holds, and an illegal command
answers ERR 4, VALUE 0 and no DATA, sets `STATUS.ERR` to 4 and changes nothing else (spec/44_system.md R231). -/
def Obligations.IllegalCommandsExactly : Prop :=
  ∀ c : Command,
    let op := c.cmd.toNat % 256
    let a := c.cmd.toNat / 256 % 2
    let depth := c.cmd.toNat / 512 % 4
    let illegal :=
      (op = 0x00 ∨ op = 0x08 ∨ op = 0x0C ∨ (0x11 ≤ op ∧ op ≤ 0x1F) ∨ (0x23 ≤ op ∧ op ≤ 0x2F) ∨
        (0x32 ≤ op ∧ op ≤ 0x3F) ∨ (0x41 ≤ op ∧ op ≤ 0xFF)) ∨
      c.cmd.toNat / 2048 ≠ 0 ∨
      ((a = 1 ∧ ¬(0x01 ≤ op ∧ op ≤ 0x0F)) ∨ (depth ≠ 0 ∧ op ≠ 0x30)) ∨
      ((op = 0x0D ∨ op = 0x0E ∨ op = 0x0F) ∧ c.data.length ≠ c.count.toNat) ∨
      (op = 0x40 ∧ 7 ≤ c.index.toNat)
    (¬illegal → ∃ i, decode c = .ok i) ∧
    (illegal → (∃ r, decode c = .error r) ∧
      ∀ (s : State) (moves : List HostMove), s.work = none → s.inbox = .issue c :: moves →
        step s = .next (State.failed { s with inbox := moves } s.cursor 4 0))

/-- Operand fields a command ignores have no effect on state or response: two records with the same command word that
agree on the fields spec/30_encoding.md R86 does not mark with a dash make the same step (R87). -/
def Obligations.IgnoredFieldsHaveNoEffect : Prop :=
  ∀ (s : State) (moves : List HostMove) (c c' : Command),
    let op := c.cmd.toNat % 256
    let a := c.cmd.toNat / 256 % 2
    s.work = none →
    c'.cmd = c.cmd →
    ((0x01 ≤ op ∧ op ≤ 0x0F ∧ a = 1) ∨ op = 0x10 ∨ op = 0x20 ∨ op = 0x30 → c'.addr = c.addr) →
    ((0x05 ≤ op ∧ op ≤ 0x07) ∨ (0x0D ≤ op ∧ op ≤ 0x0F) ∨ op = 0x20 ∨ op = 0x30 → c'.count = c.count) →
    ((0x09 ≤ op ∧ op ≤ 0x0B) ∨ op = 0x22 → c'.value = c.value) →
    (op = 0x21 ∨ op = 0x31 ∨ op = 0x40 → c'.index = c.index) →
    (0x0D ≤ op ∧ op ≤ 0x0F → c'.data = c.data) →
    step { s with inbox := .issue c' :: moves } = step { s with inbox := .issue c :: moves }

/-! ### The step, the host and reset -/

/-- A step that takes a command which decodes runs exactly that instruction, on the state with the record taken
(spec/44_system.md R233, R234). That one step is one whole command is the model's choice (log 4). -/
def Obligations.StepRunsTheDecodedCommand : Prop :=
  ∀ (s : State) (c : Command) (moves : List HostMove) (i : Instr),
    s.work = none → s.inbox = .issue c :: moves → decode c = .ok i →
    step s = exec i { s with inbox := moves }

/-- While a decompression runs, a step runs the next stream element, read at `CURSOR` for what the decoder's state
expects (spec/30_encoding.md R97, spec/20_memory.md R58). That a step can be taken in the middle of a decompression, and
that it runs one element, is the model's choice (logs 3, 4 and 7): a command's own step runs its decompression to the
end. -/
def Obligations.StepRunsTheNextElement : Prop :=
  ∀ (s : State) (w : Lz77Work) (e : Element),
    s.work = some w → decodeElement (nextExpect w) (streamBytes s) = .ok e →
    step s = exec (elementInstr e) s

/-- A stream that ends before or inside its next element ends with `OutOfBounds` at the first byte the ROM does not have,
`CURSOR` there: a short header, an extended header whose three length bytes are 0, a flag byte, a literal or a trailing
pad, a back-reference (spec/20_memory.md R58, spec/41_lz77.md R153, R160, R163). A header whose first byte is in the ROM
and is not the marker ends with `InvalidOpcode` instead (R152). That a step can be taken in the middle of a decompression
is the model's choice (logs 3, 4 and 7). -/
def Obligations.StreamPastTheRomEnd : Prop :=
  ∀ (s : State) (w : Lz77Work), s.work = some w → s.cursor.toNat ≤ s.params.romSize.toNat →
    let c := s.cursor.toNat
    let size := s.params.romSize.toNat
    (nextExpect w = .header → (c = size ∨ s.rom.byte c = 0x10#8) →
      (size < c + 4 ∨
        (s.rom.byte (c + 1) = 0 ∧ s.rom.byte (c + 2) = 0 ∧ s.rom.byte (c + 3) = 0 ∧ size < c + 8)) →
      step s = .next (s.failed s.params.romSize 1 s.params.romSize)) ∧
    ((nextExpect w = .flags ∨ nextExpect w = .literal) → c = size →
      step s = .next (s.failed s.params.romSize 1 s.params.romSize)) ∧
    (nextExpect w = .backRef → size < c + 2 →
      step s = .next (s.failed s.params.romSize 1 s.params.romSize))

/-- Without a command, a reset or a running decompression nothing changes (spec/60_exceptions.md R252). That the model
makes such a step at all is its own choice (log 4). -/
def Obligations.IdleBlockKeepsItsState : Prop :=
  ∀ s : State, s.work = none → s.inbox = [] → step s = .next s

/-- A reset sets every register and buffer to its reset value and does not change the ROM, and after it every
`PALETTE_GET` and `PIXEL_GET` fails with `OutOfBounds` until a load (spec/70_reset_and_hazards.md R270, R271). -/
def Obligations.ResetGivesTheResetValues : Prop :=
  ∀ (s : State) (moves : List HostMove), s.work = none → s.inbox = .reset none :: moves →
    ∃ t, step s = .next t ∧ t.cursor = 0 ∧ t.status = 0 ∧ t.palLen = 0 ∧ t.pixLen = 0 ∧ t.pixDepth = 2 ∧
      t.palBuf = [] ∧ t.pixBuf = [] ∧ t.work = none ∧ t.rom = s.rom ∧ t.params = s.params ∧
      ∀ index : Word,
        exec (.paletteGet index) t = .next (t.failed t.cursor 1 index) ∧
        exec (.pixelGet index) t = .next (t.failed t.cursor 1 index)

/-- The state the model starts from has the reset values of spec/70_reset_and_hazards.md R270. -/
def Obligations.StartStateHasTheResetValues : Prop :=
  State.reset.cursor = 0 ∧ State.reset.status = 0 ∧ State.reset.palLen = 0 ∧ State.reset.pixLen = 0 ∧
  State.reset.pixDepth = 2 ∧ State.reset.palBuf = [] ∧ State.reset.pixBuf = [] ∧ State.reset.work = none

/-- A reset with a whole image, loaded before reset is released, sets every register and buffer to its reset value
(spec/70_reset_and_hazards.md R270) and puts every byte of the image in the ROM; one with an image of another length has
no move (R272, spec/44_system.md R235; the fault is the model's, log 8). -/
def Obligations.LoadedImageIsInTheRom : Prop :=
  ∀ (s : State) (image : List Byte) (moves : List HostMove), s.work = none →
    s.inbox = .reset (some image) :: moves →
    (image.length = s.params.romSize.toNat →
      ∃ t, step s = .next t ∧ t.cursor = 0 ∧ t.status = 0 ∧ t.palLen = 0 ∧ t.pixLen = 0 ∧ t.pixDepth = 2 ∧
        t.palBuf = [] ∧ t.pixBuf = [] ∧ t.work = none ∧ t.params = s.params ∧ t.inbox = moves ∧
        (∀ k, k < image.length → t.rom.byte k = image.getD k 0) ∧ t.rom.wf = true ∧
        t.rom.below t.params.romSize.toNat = true) ∧
    (image.length ≠ s.params.romSize.toNat → step s = .fault .imageIncomplete)

/-! ### Accessor commands (spec/40_rombuffer.md) -/

/-- `READ_U8`, `READ_U16`, `READ_U32`: encoding, value, cursor, and the one error (R111, R112, R113). -/
def Obligations.ScalarReads : Prop :=
  accessorOpcode 0x01#32 (fun _ => True) (fun st _ => .readU8 st) ∧
  accessorOpcode 0x02#32 (fun _ => True) (fun st _ => .readU16 st) ∧
  accessorOpcode 0x03#32 (fun _ => True) (fun st _ => .readU32 st) ∧
  ∀ (s : State) (start : Start) (a : Word), startsAt start s a →
    (a.toNat + 1 ≤ s.params.romSize.toNat →
      exec (.readU8 start) s = .next (s.succeeded (BitVec.ofNat 32 (a.toNat + 1)) (romU8 s.rom a.toNat) [])) ∧
    (s.params.romSize.toNat < a.toNat + 1 → exec (.readU8 start) s = .next (s.failed s.cursor 1 a)) ∧
    (a.toNat + 2 ≤ s.params.romSize.toNat →
      exec (.readU16 start) s = .next (s.succeeded (BitVec.ofNat 32 (a.toNat + 2)) (romU16 s.rom a.toNat) [])) ∧
    (s.params.romSize.toNat < a.toNat + 2 → exec (.readU16 start) s = .next (s.failed s.cursor 1 a)) ∧
    (a.toNat + 4 ≤ s.params.romSize.toNat →
      exec (.readU32 start) s = .next (s.succeeded (BitVec.ofNat 32 (a.toNat + 4)) (romU32 s.rom a.toNat) [])) ∧
    (s.params.romSize.toNat < a.toNat + 4 → exec (.readU32 start) s = .next (s.failed s.cursor 1 a))

/-- `READ_PTR`: encoding, the low 25 bits of the word, cursor, and the one error (R114). -/
def Obligations.PointerRead : Prop :=
  accessorOpcode 0x04#32 (fun _ => True) (fun st _ => .readPtr st) ∧
  ∀ (s : State) (start : Start) (a : Word), startsAt start s a →
    (a.toNat + 4 ≤ s.params.romSize.toNat →
      exec (.readPtr start) s = .next
        (s.succeeded (BitVec.ofNat 32 (a.toNat + 4))
          (((romU32 s.rom a.toNat).extractLsb' 0 25).setWidth 32) [])) ∧
    (s.params.romSize.toNat < a.toNat + 4 → exec (.readPtr start) s = .next (s.failed s.cursor 1 a))

/-- `READ_U8_N`, `READ_U16_N`, `READ_U32_N`: encoding, the `COUNT` values in address order, cursor, and the whole range
checked first (R115 to R118). -/
def Obligations.BulkReads : Prop :=
  accessorOpcode 0x05#32 (fun _ => True) (fun st c => .readU8N st c.count) ∧
  accessorOpcode 0x06#32 (fun _ => True) (fun st c => .readU16N st c.count) ∧
  accessorOpcode 0x07#32 (fun _ => True) (fun st c => .readU32N st c.count) ∧
  ∀ (s : State) (start : Start) (a count : Word), startsAt start s a →
    let n := count.toNat
    (a.toNat + n ≤ s.params.romSize.toNat →
      ∃ d, exec (.readU8N start count) s = .next (s.succeeded (BitVec.ofNat 32 (a.toNat + n)) count d) ∧
        d.length = n ∧ ∀ i, i < n → d.getD i 0 = romU8 s.rom (a.toNat + i)) ∧
    (s.params.romSize.toNat < a.toNat + n → exec (.readU8N start count) s = .next (s.failed s.cursor 1 a)) ∧
    (a.toNat + 2 * n ≤ s.params.romSize.toNat →
      ∃ d, exec (.readU16N start count) s = .next (s.succeeded (BitVec.ofNat 32 (a.toNat + 2 * n)) count d) ∧
        d.length = n ∧ ∀ i, i < n → d.getD i 0 = romU16 s.rom (a.toNat + 2 * i)) ∧
    (s.params.romSize.toNat < a.toNat + 2 * n → exec (.readU16N start count) s = .next (s.failed s.cursor 1 a)) ∧
    (a.toNat + 4 * n ≤ s.params.romSize.toNat →
      ∃ d, exec (.readU32N start count) s = .next (s.succeeded (BitVec.ofNat 32 (a.toNat + 4 * n)) count d) ∧
        d.length = n ∧ ∀ i, i < n → d.getD i 0 = romU32 s.rom (a.toNat + 4 * i)) ∧
    (s.params.romSize.toNat < a.toNat + 4 * n → exec (.readU32N start count) s = .next (s.failed s.cursor 1 a))

/-- `WRITE_U8`, `WRITE_U16`, `WRITE_U32`: encoding, the bytes stored and every other byte kept, cursor, and the one
error, which writes nothing (R119, R120, R121). -/
def Obligations.ScalarWrites : Prop :=
  accessorOpcode 0x09#32 (fun _ => True) (fun st c => .writeU8 st c.value) ∧
  accessorOpcode 0x0A#32 (fun _ => True) (fun st c => .writeU16 st c.value) ∧
  accessorOpcode 0x0B#32 (fun _ => True) (fun st c => .writeU32 st c.value) ∧
  ∀ (s : State) (start : Start) (a v : Word), s.rom.wf = true → startsAt start s a →
    (a.toNat + 1 ≤ s.params.romSize.toNat →
      ∃ m : Memory, exec (.writeU8 start v) s =
          .next (State.succeeded { s with rom := m } (BitVec.ofNat 32 (a.toNat + 1)) 0 []) ∧
        m.byte a.toNat = v.extractLsb' 0 8 ∧
        ∀ b, (b < a.toNat ∨ a.toNat + 1 ≤ b) → m.byte b = s.rom.byte b) ∧
    (s.params.romSize.toNat < a.toNat + 1 → exec (.writeU8 start v) s = .next (s.failed s.cursor 1 a)) ∧
    (a.toNat + 2 ≤ s.params.romSize.toNat →
      ∃ m : Memory, exec (.writeU16 start v) s =
          .next (State.succeeded { s with rom := m } (BitVec.ofNat 32 (a.toNat + 2)) 0 []) ∧
        m.byte a.toNat = v.extractLsb' 0 8 ∧ m.byte (a.toNat + 1) = v.extractLsb' 8 8 ∧
        ∀ b, (b < a.toNat ∨ a.toNat + 2 ≤ b) → m.byte b = s.rom.byte b) ∧
    (s.params.romSize.toNat < a.toNat + 2 → exec (.writeU16 start v) s = .next (s.failed s.cursor 1 a)) ∧
    (a.toNat + 4 ≤ s.params.romSize.toNat →
      ∃ m : Memory, exec (.writeU32 start v) s =
          .next (State.succeeded { s with rom := m } (BitVec.ofNat 32 (a.toNat + 4)) 0 []) ∧
        m.byte a.toNat = v.extractLsb' 0 8 ∧ m.byte (a.toNat + 1) = v.extractLsb' 8 8 ∧
        m.byte (a.toNat + 2) = v.extractLsb' 16 8 ∧ m.byte (a.toNat + 3) = v.extractLsb' 24 8 ∧
        ∀ b, (b < a.toNat ∨ a.toNat + 4 ≤ b) → m.byte b = s.rom.byte b) ∧
    (s.params.romSize.toNat < a.toNat + 4 → exec (.writeU32 start v) s = .next (s.failed s.cursor 1 a))

/-- `WRITE_U8_N`, `WRITE_U16_N`, `WRITE_U32_N` in both bulk-write modes: encoding, the bytes stored and every other byte
kept, cursor, the whole range checked first, and a `DATA` of the wrong length illegal (R122 to R125). In `LEGACY_BYTE`
mode only byte 0 of each 16- or 32-bit element is stored. -/
def Obligations.BulkWrites : Prop :=
  accessorOpcode 0x0D#32 countMatches (fun st c => .writeU8N st c.data) ∧
  accessorOpcode 0x0E#32 countMatches (fun st c => .writeU16N st c.data) ∧
  accessorOpcode 0x0F#32 countMatches (fun st c => .writeU32N st c.data) ∧
  (∀ c : Command, ¬countMatches c →
    (c.cmd = 0x0D#32 ∨ c.cmd = 0x10D#32 ∨ c.cmd = 0x0E#32 ∨ c.cmd = 0x10E#32 ∨ c.cmd = 0x0F#32 ∨
      c.cmd = 0x10F#32) → ∃ r, decode c = .error r) ∧
  ∀ (s : State) (start : Start) (a : Word) (data : List Word), s.rom.wf = true → startsAt start s a →
    let n := data.length
    (a.toNat + n ≤ s.params.romSize.toNat →
      ∃ m : Memory, exec (.writeU8N start data) s =
          .next (State.succeeded { s with rom := m } (BitVec.ofNat 32 (a.toNat + n)) 0 []) ∧
        (∀ i, i < n → m.byte (a.toNat + i) = (data.getD i 0).extractLsb' 0 8) ∧
        ∀ b, (b < a.toNat ∨ a.toNat + n ≤ b) → m.byte b = s.rom.byte b) ∧
    (s.params.romSize.toNat < a.toNat + n → exec (.writeU8N start data) s = .next (s.failed s.cursor 1 a)) ∧
    (a.toNat + 2 * n ≤ s.params.romSize.toNat →
      ∃ m : Memory, exec (.writeU16N start data) s =
          .next (State.succeeded { s with rom := m } (BitVec.ofNat 32 (a.toNat + 2 * n)) 0 []) ∧
        (∀ i k, i < n → k < 2 → m.byte (a.toNat + 2 * i + k) =
          if s.params.bulkWrite = .fullWidth ∨ k = 0 then (data.getD i 0).extractLsb' (8 * k) 8
          else s.rom.byte (a.toNat + 2 * i + k)) ∧
        ∀ b, (b < a.toNat ∨ a.toNat + 2 * n ≤ b) → m.byte b = s.rom.byte b) ∧
    (s.params.romSize.toNat < a.toNat + 2 * n → exec (.writeU16N start data) s = .next (s.failed s.cursor 1 a)) ∧
    (a.toNat + 4 * n ≤ s.params.romSize.toNat →
      ∃ m : Memory, exec (.writeU32N start data) s =
          .next (State.succeeded { s with rom := m } (BitVec.ofNat 32 (a.toNat + 4 * n)) 0 []) ∧
        (∀ i k, i < n → k < 4 → m.byte (a.toNat + 4 * i + k) =
          if s.params.bulkWrite = .fullWidth ∨ k = 0 then (data.getD i 0).extractLsb' (8 * k) 8
          else s.rom.byte (a.toNat + 4 * i + k)) ∧
        ∀ b, (b < a.toNat ∨ a.toNat + 4 * n ≤ b) → m.byte b = s.rom.byte b) ∧
    (s.params.romSize.toNat < a.toNat + 4 * n → exec (.writeU32N start data) s = .next (s.failed s.cursor 1 a))

/-- An accessor command whose range does not lie in the ROM changes nothing but `STATUS.ERR` and returns no list,
whichever of the thirteen it is (R126, spec/20_memory.md R54). -/
def Obligations.FailedAccessChangesNothing : Prop :=
  ∀ (i : Instr) (start : Start) (n : Nat) (s : State) (a : Word),
    i.accessRange = some (start, n) → startsAt start s a → s.params.romSize.toNat < a.toNat + n →
    exec i s = .next (s.failed s.cursor 1 a)

/-- The mixed-width view of spec/20_memory.md R53: bytes, halves and the word at `a` are read from the same bytes, and a
`WRITE_U16` at `a + 1` changes two of them and is seen by a `READ_U32` at `a`. -/
def Obligations.MixedWidthView : Prop :=
  ∀ (s : State) (a : Word) (v : Word), s.rom.wf = true → a.toNat + 4 ≤ s.params.romSize.toNat →
    let b := fun k => romU8 s.rom (a.toNat + k)
    let at_ := fun k => Start.addressed (BitVec.ofNat 32 (a.toNat + k))
    (∀ k, k < 4 → ∃ t, exec (.readU8 (at_ k)) s = .next t ∧ t.response = some ⟨0, b k, []⟩) ∧
    (∃ t, exec (.readU16 (at_ 0)) s = .next t ∧ t.response = some ⟨0, b 0 ||| b 1 <<< 8, []⟩) ∧
    (∃ t, exec (.readU16 (at_ 2)) s = .next t ∧ t.response = some ⟨0, b 2 ||| b 3 <<< 8, []⟩) ∧
    (∃ t, exec (.readU32 (at_ 0)) s = .next t ∧
      t.response = some ⟨0, b 0 ||| b 1 <<< 8 ||| b 2 <<< 16 ||| b 3 <<< 24, []⟩) ∧
    ∃ t u, exec (.writeU16 (at_ 1) v) s = .next t ∧
      t.rom.byte (a.toNat + 1) = v.extractLsb' 0 8 ∧ t.rom.byte (a.toNat + 2) = v.extractLsb' 8 8 ∧
      (∀ k, k ≠ a.toNat + 1 → k ≠ a.toNat + 2 → t.rom.byte k = s.rom.byte k) ∧
      exec (.readU32 (at_ 0)) t = .next u ∧
      u.response = some ⟨0,
        b 0 ||| (v.extractLsb' 0 8).setWidth 32 <<< 8 ||| (v.extractLsb' 8 8).setWidth 32 <<< 16 ||| b 3 <<< 24, []⟩

/-- A value written is the value a later read of the same width at the same place returns, its high bits cleared
(spec/20_memory.md R57, R62). -/
def Obligations.WriteThenReadBack : Prop :=
  ∀ (s : State) (a : Word) (v : Word), s.rom.wf = true →
    (a.toNat + 1 ≤ s.params.romSize.toNat → ∃ t u, exec (.writeU8 (.addressed a) v) s = .next t ∧
      exec (.readU8 (.addressed a)) t = .next u ∧ u.response = some ⟨0, (v.setWidth 8).setWidth 32, []⟩) ∧
    (a.toNat + 2 ≤ s.params.romSize.toNat → ∃ t u, exec (.writeU16 (.addressed a) v) s = .next t ∧
      exec (.readU16 (.addressed a)) t = .next u ∧ u.response = some ⟨0, (v.setWidth 16).setWidth 32, []⟩) ∧
    (a.toNat + 4 ≤ s.params.romSize.toNat → ∃ t u, exec (.writeU32 (.addressed a) v) s = .next t ∧
      exec (.readU32 (.addressed a)) t = .next u ∧ u.response = some ⟨0, v, []⟩)

/-! ### Frames -/

/-- The commands that neither write the ROM nor load a buffer (the seven reads, `LZ77_DECOMPRESS`, `PALETTE_GET`,
`RGB_UNPACK`, `PIXEL_GET`, `READ_REG`) leave all of memory, both buffers with their registers, the parameters and
every bit of `STATUS` but `ERR` unchanged; only the reads and `LZ77_DECOMPRESS` move `CURSOR`. -/
def Obligations.FrameOfReadingCommands : Prop :=
  ∀ (i : Instr) (s t : State), i.isCommand = true → i.writesRom = false →
    (∀ addr count, i ≠ .paletteLoad addr count) → (∀ addr count depth, i ≠ .pixelLoad addr count depth) →
    exec i s = .next t →
    (∀ b, t.rom.byte b = s.rom.byte b) ∧ t.rom = s.rom ∧ samePalette s t ∧ samePlane s t ∧ sameBlock s t ∧
      (i.accessRange = none → i.readsStream = false → t.cursor = s.cursor)

/-- The six writes leave every byte outside the range they store to, both buffers with their registers, the
parameters and every bit of `STATUS` but `ERR` unchanged. -/
def Obligations.FrameOfWritingCommands : Prop :=
  ∀ (i : Instr) (start : Start) (n : Nat) (s t : State) (a : Word), i.writesRom = true →
    i.accessRange = some (start, n) → startsAt start s a → s.rom.wf = true → exec i s = .next t →
    (∀ b, (b < a.toNat ∨ a.toNat + n ≤ b) → t.rom.byte b = s.rom.byte b) ∧
      samePalette s t ∧ samePlane s t ∧ sameBlock s t

/-- The loads leave all of memory and the parameters unchanged, `PALETTE_LOAD` the whole pixel plane with
`STATUS.PIX_COMP`, `PIXEL_LOAD` the whole palette with `STATUS.PAL_COMP`. -/
def Obligations.FrameOfLoads : Prop :=
  (∀ (addr count : Word) (s t : State), exec (.paletteLoad addr count) s = .next t →
    (∀ b, t.rom.byte b = s.rom.byte b) ∧ t.rom = s.rom ∧ samePlane s t ∧ sameBlock s t) ∧
  (∀ (addr count : Word) (depth : BitVec 2) (s t : State), exec (.pixelLoad addr count depth) s = .next t →
    (∀ b, t.rom.byte b = s.rom.byte b) ∧ t.rom = s.rom ∧ samePalette s t ∧ sameBlock s t)

/-- The five stream elements leave all of memory and the parameters unchanged. Until the decompression ends they leave
`STATUS`, the response and both buffers unchanged as well, and the buffer its command does not load always. -/
def Obligations.FrameOfStreamElements : Prop :=
  ∀ (i : Instr) (s t : State), i.isCommand = false → exec i s = .next t →
    (∀ b, t.rom.byte b = s.rom.byte b) ∧ t.rom = s.rom ∧ sameBlock s t ∧
    (∀ w, t.work = some w → t.status = s.status ∧ t.response = s.response ∧ samePalette s t ∧ samePlane s t) ∧
    (∀ w, s.work = some w → (w.consumer ≠ .palette → samePalette s t) ∧
      ((∀ depth, w.consumer ≠ .pixels depth) → samePlane s t))

/-! ### The LZ77 stream elements (spec/41_lz77.md)

The decoder's state holds the bytes produced so far, where the spec has a buffer written in place (log 6). -/

/-- A header starts the main loop with its declared length, and a declared length of 0 gives the empty output at once
(R153). The last clause is about `LZ77_DECOMPRESS`. -/
def Obligations.HeaderDeclaresTheLength : Prop :=
  ∀ (s : State) (w : Lz77Work), s.work = some w → w.phase = .header →
    (∀ l3 : BitVec 24, l3 ≠ 0 → s.cursor.toNat + 4 ≤ s.params.romSize.toNat →
      l3.toNat ≤ s.params.bufCap.val →
      exec (.lz77Hdr l3) s = .next { s with
        cursor := BitVec.ofNat 32 (s.cursor.toNat + 4)
        work := some { w with phase := .group, length := l3.setWidth 32, position := 0, out := [] } }) ∧
    (∀ l4 : Word, l4 ≠ 0 → s.cursor.toNat + 8 ≤ s.params.romSize.toNat → l4.toNat ≤ s.params.bufCap.val →
      exec (.lz77Hdrx l4) s = .next { s with
        cursor := BitVec.ofNat 32 (s.cursor.toNat + 8)
        work := some { w with phase := .group, length := l4, position := 0, out := [] } }) ∧
    (w.consumer = .response → s.cursor.toNat + 8 ≤ s.params.romSize.toNat →
      exec (.lz77Hdrx 0) s = .next (s.succeeded (BitVec.ofNat 32 (s.cursor.toNat + 8)) 0 []))

/-- A declared length above `P_BUF_CAP` raises `OutputTooLarge` with the length, after the header (R153). -/
def Obligations.HeaderAboveCapacity : Prop :=
  ∀ (s : State) (w : Lz77Work), s.work = some w → w.phase = .header →
    (∀ l3 : BitVec 24, s.cursor.toNat + 4 ≤ s.params.romSize.toNat → s.params.bufCap.val < l3.toNat →
      exec (.lz77Hdr l3) s =
        .next (s.failed (BitVec.ofNat 32 (s.cursor.toNat + 4)) 5 (l3.setWidth 32))) ∧
    (∀ l4 : Word, s.cursor.toNat + 8 ≤ s.params.romSize.toNat → s.params.bufCap.val < l4.toNat →
      exec (.lz77Hdrx l4) s = .next (s.failed (BitVec.ofNat 32 (s.cursor.toNat + 8)) 5 l4))

/-- A flag byte opens a group whose first item bit 7 governs (R155). -/
def Obligations.FlagByteOpensAGroup : Prop :=
  ∀ (s : State) (w : Lz77Work) (f : Byte), s.work = some w → w.phase = .group →
    s.cursor.toNat + 1 ≤ s.params.romSize.toNat →
    exec (.lz77Flags f) s = .next { s with
      cursor := BitVec.ofNat 32 (s.cursor.toNat + 1)
      work := some { w with phase := .item, flags := f, bit := 7 } }

/-- A literal is stored and the position advances; the decoder goes on to the next flag bit, to the next flag byte
after bit 0, or to the result when the output is full after bit 0 (R159, R155, R154). -/
def Obligations.LiteralIsStored : Prop :=
  ∀ (s : State) (w : Lz77Work) (x : Byte), s.work = some w → w.phase = .item →
    w.flags.getLsbD w.bit.val = false → w.position < w.length.toNat →
    s.cursor.toNat + 1 ≤ s.params.romSize.toNat →
    (∀ b : Fin 8, w.bit.val = b.val + 1 →
      exec (.lz77Lit x) s = .next { s with
        cursor := BitVec.ofNat 32 (s.cursor.toNat + 1)
        work := some { w with bit := b, position := w.position + 1, out := w.out ++ [x] } }) ∧
    (w.bit.val = 0 → w.position + 1 < w.length.toNat →
      exec (.lz77Lit x) s = .next { s with
        cursor := BitVec.ofNat 32 (s.cursor.toNat + 1)
        work := some { w with phase := .group, position := w.position + 1, out := w.out ++ [x] } }) ∧
    (w.bit.val = 0 → w.position + 1 = w.length.toNat → w.consumer = .response →
      exec (.lz77Lit x) s = .next (s.succeeded (BitVec.ofNat 32 (s.cursor.toNat + 1))
        (BitVec.ofNat 32 (w.out.length + 1)) ((w.out ++ [x]).map (BitVec.setWidth 32))))

/-- A literal met when the output is full is read and dropped; a 0 byte, or bit 0, ends the group and so the
decompression, and a nonzero byte before bit 0 goes on to the next flag bit (R160, R154). -/
def Obligations.TrailingPadIsDropped : Prop :=
  ∀ (s : State) (w : Lz77Work) (x : Byte), s.work = some w → w.phase = .item →
    w.flags.getLsbD w.bit.val = false → w.position = w.length.toNat →
    s.cursor.toNat + 1 ≤ s.params.romSize.toNat →
    (x = 0 ∨ w.bit.val = 0 → w.consumer = .response →
      exec (.lz77Lit x) s = .next (s.succeeded (BitVec.ofNat 32 (s.cursor.toNat + 1))
        (BitVec.ofNat 32 w.out.length) (w.out.map (BitVec.setWidth 32)))) ∧
    (∀ b : Fin 8, x ≠ 0 → w.bit.val = b.val + 1 →
      exec (.lz77Lit x) s = .next { s with
        cursor := BitVec.ofNat 32 (s.cursor.toNat + 1)
        work := some { w with bit := b } })

/-- A back-reference inside the declared length copies `copyLength` bytes, each equal to the byte `offset + 1` before
it, itself included when the ranges overlap; the bytes before it stay (R156, R157). The decoder goes on to the next flag
bit, to the next flag byte after bit 0, or to the result when the output is full after bit 0 (R155, R154, R162); the
last clause is about `LZ77_DECOMPRESS`. -/
def Obligations.BackReferenceCopies : Prop :=
  ∀ (s : State) (w : Lz77Work) (len : BitVec 4) (offset : BitVec 12),
    s.work = some w → w.phase = .item → w.flags.getLsbD w.bit.val = true →
    w.out.length = w.position → offset.toNat < w.position →
    w.position + (len.toNat + 3) ≤ w.length.toNat → s.cursor.toNat + 2 ≤ s.params.romSize.toNat →
    ∃ out : List Byte,
      (out.length = w.position + (len.toNat + 3) ∧
        (∀ k, k < w.position → out.getD k 0 = w.out.getD k 0) ∧
        ∀ j, j < len.toNat + 3 →
          out.getD (w.position + j) 0 = out.getD (w.position + j - (offset.toNat + 1)) 0) ∧
      (∀ b : Fin 8, w.bit.val = b.val + 1 →
        exec (.lz77Ref len offset) s = .next { s with
          cursor := BitVec.ofNat 32 (s.cursor.toNat + 2)
          work := some { w with bit := b, position := w.position + (len.toNat + 3), out := out } }) ∧
      (w.bit.val = 0 → w.position + (len.toNat + 3) < w.length.toNat →
        exec (.lz77Ref len offset) s = .next { s with
          cursor := BitVec.ofNat 32 (s.cursor.toNat + 2)
          work := some { w with phase := .group, position := w.position + (len.toNat + 3), out := out } }) ∧
      (w.bit.val = 0 → w.position + (len.toNat + 3) = w.length.toNat → w.consumer = .response →
        exec (.lz77Ref len offset) s = .next (s.succeeded (BitVec.ofNat 32 (s.cursor.toNat + 2)) w.length
          (out.map (BitVec.setWidth 32))))

/-- A back-reference past the declared length under `P_OVERRUN = CLIP` fills the output to exactly the declared length
by the same copy and ends the decompression (R158, R161, R162). -/
def Obligations.BackReferenceClips : Prop :=
  ∀ (s : State) (w : Lz77Work) (len : BitVec 4) (offset : BitVec 12),
    s.work = some w → w.phase = .item → w.flags.getLsbD w.bit.val = true → w.consumer = .response →
    w.out.length = w.position → offset.toNat < w.position → w.position ≤ w.length.toNat →
    w.length.toNat < w.position + (len.toNat + 3) → s.params.overrun = .clip →
    s.cursor.toNat + 2 ≤ s.params.romSize.toNat →
    ∃ out : List Byte,
      exec (.lz77Ref len offset) s = .next (s.succeeded (BitVec.ofNat 32 (s.cursor.toNat + 2)) w.length
        (out.map (BitVec.setWidth 32))) ∧
      out.length = w.length.toNat ∧
      (∀ k, k < w.position → out.getD k 0 = w.out.getD k 0) ∧
      ∀ j, w.position + j < w.length.toNat →
        out.getD (w.position + j) 0 = out.getD (w.position + j - (offset.toNat + 1)) 0

/-- A back-reference whose offset reaches before the start of the output raises `InvalidBackReference`, and under
`P_OVERRUN = FAULT` one that passes the declared length raises `Overrun`, each with the address of `v` and `CURSOR`
after `e` (R156, R158, R163). -/
def Obligations.BackReferenceErrors : Prop :=
  ∀ (s : State) (w : Lz77Work) (len : BitVec 4) (offset : BitVec 12),
    s.work = some w → w.phase = .item → w.flags.getLsbD w.bit.val = true →
    s.cursor.toNat + 2 ≤ s.params.romSize.toNat →
    (w.position ≤ offset.toNat →
      exec (.lz77Ref len offset) s = .next (s.failed (BitVec.ofNat 32 (s.cursor.toNat + 2)) 3 s.cursor)) ∧
    (offset.toNat < w.position → w.length.toNat < w.position + (len.toNat + 3) → s.params.overrun = .fault →
      exec (.lz77Ref len offset) s = .next (s.failed (BitVec.ofNat 32 (s.cursor.toNat + 2)) 6 s.cursor))

/-! ### The decompressor as a whole -/

/-- The decoder that runs element by element is the procedure of R151 with its nested loops and its buffer written in
place, for all three commands: same bytes, same error and fault information, same `CURSOR`. -/
def Obligations.DecoderRefinesTheProcedure : Prop :=
  (∀ (s : State) (a : Word),
    exec (.lz77Decompress a) s = .next (procEnd .response s (procLz77 s a.toNat s.cursor.toNat))) ∧
  (∀ (s : State) (a count : Word), a.toNat < s.params.romSize.toNat → s.rom.byte a.toNat = 0x10#8 →
    exec (.paletteLoad a count) s = .next (procEnd .palette s (procLz77 s a.toNat (a.toNat + 1)))) ∧
  (∀ (s : State) (a count : Word) (depth : BitVec 2), a.toNat < s.params.romSize.toNat →
    s.rom.byte a.toNat = 0x10#8 →
    exec (.pixelLoad a count depth) s = .next (procEnd (.pixels depth) s (procLz77 s a.toNat (a.toNat + 1))))

/-- A block that stores any bytes as literals decompresses to exactly those bytes, and `CURSOR` ends after the block
(R150, spec/30_encoding.md R91, R93, R94). -/
def Obligations.StoredBlockDecompresses : Prop :=
  ∀ (s : State) (a : Word) (bs : List Byte), 0 < bs.length → bs.length < 16777216 →
    bs.length ≤ s.params.bufCap.val → a.toNat + (storedBlock bs).length ≤ s.params.romSize.toNat →
    (∀ k, k < (storedBlock bs).length → s.rom.byte (a.toNat + k) = (storedBlock bs).getD k 0) →
    exec (.lz77Decompress a) s = .next
      (s.succeeded (BitVec.ofNat 32 (a.toNat + (storedBlock bs).length)) (BitVec.ofNat 32 bs.length)
        (bs.map (BitVec.setWidth 32)))

/-- An address outside the ROM and a block without its marker (R152). -/
def Obligations.DecompressionNeedsTheMarker : Prop :=
  ∀ (s : State) (a : Word),
    (s.params.romSize.toNat ≤ a.toNat → exec (.lz77Decompress a) s = .next (s.failed s.cursor 1 a)) ∧
    (a.toNat < s.params.romSize.toNat → s.rom.byte a.toNat ≠ 0x10#8 →
      exec (.lz77Decompress a) s = .next (s.failed (BitVec.ofNat 32 (a.toNat + 1)) 2 a))

/-- A successful decompression returns as many bytes as the header declares, one per word, and VALUE is that length
(R162, spec/30_encoding.md R89, R91, R92). -/
def Obligations.OutputLengthIsTheDeclaredLength : Prop :=
  ∀ (s t : State) (a v : Word) (d : List Word), exec (.lz77Decompress a) s = .next t →
    t.response = some ⟨0, v, d⟩ →
    let l3 := (romU32 s.rom a.toNat) >>> 8
    d.length = v.toNat ∧ (∀ x ∈ d, x.toNat ≤ 255) ∧
      v = (if l3 = 0 then romU32 s.rom (a.toNat + 4) else l3)

/-- The response of a decompression depends only on the address, the ROM bytes from there on, `P_ROM_SIZE`, `P_BUF_CAP` and
`P_OVERRUN`, and so does the final `CURSOR` once the first byte is read; run again it gives the same response and the
same final `CURSOR` (R165). -/
def Obligations.DecompressionIsPure : Prop :=
  ∀ (s s' : State) (a : Word), (∀ k, a.toNat ≤ k → s'.rom.byte k = s.rom.byte k) →
    s'.params.romSize = s.params.romSize → s'.params.bufCap = s.params.bufCap →
    s'.params.overrun = s.params.overrun →
    ∃ t t' u, exec (.lz77Decompress a) s = .next t ∧ exec (.lz77Decompress a) s' = .next t' ∧
      t'.response = t.response ∧ (a.toNat < s.params.romSize.toNat → t'.cursor = t.cursor) ∧
      exec (.lz77Decompress a) t = .next u ∧ u.response = t.response ∧ u.cursor = t.cursor

/-- A decompression or a compressed load whose first byte is in the ROM leaves `CURSOR` after it and at most at the end
of the ROM (R163). -/
def Obligations.CursorAfterDecompression : Prop :=
  ∀ (i : Instr) (s t : State) (a : Word), a.toNat < s.params.romSize.toNat → s.rom.byte a.toNat = 0x10#8 →
    (i = .lz77Decompress a ∨ (∃ n, i = .paletteLoad a n) ∨ ∃ n depth, i = .pixelLoad a n depth) →
    exec i s = .next t → a.toNat < t.cursor.toNat ∧ t.cursor.toNat ≤ s.params.romSize.toNat

/-! ### Loads (spec/42_palette.md R191, R192; spec/43_pixelplane.md R215) -/

/-- The direct path of both loads: the bytes copied, their length, the path flag, the depth, and `CURSOR` after them. -/
def Obligations.DirectLoads : Prop :=
  ∀ (s : State) (a count : Word), a.toNat < s.params.romSize.toNat → s.rom.byte a.toNat ≠ 0x10#8 →
    (a.toNat + 2 * count.toNat ≤ s.params.romSize.toNat → 2 * count.toNat ≤ s.params.bufCap.val →
      ∃ t, exec (.paletteLoad a count) s = .next t ∧ t.palBuf.length = 2 * count.toNat ∧
        (∀ k, k < 2 * count.toNat → t.palBuf.getD k 0 = s.rom.byte (a.toNat + k)) ∧
        t.palLen.toNat = 2 * count.toNat ∧ statusPalComp t.status = false ∧ statusErr t.status = 0 ∧
        t.cursor.toNat = a.toNat + 2 * count.toNat ∧ t.response = some ⟨0, count, []⟩ ∧ t.work = none) ∧
    (∀ depth : BitVec 2, a.toNat + count.toNat ≤ s.params.romSize.toNat → count.toNat ≤ s.params.bufCap.val →
      ∃ t, exec (.pixelLoad a count depth) s = .next t ∧ t.pixBuf.length = count.toNat ∧
        (∀ k, k < count.toNat → t.pixBuf.getD k 0 = s.rom.byte (a.toNat + k)) ∧
        t.pixLen = count ∧ t.pixDepth = depth ∧ statusPixComp t.status = false ∧ statusErr t.status = 0 ∧
        t.cursor.toNat = a.toNat + count.toNat ∧ t.response = some ⟨0, count, []⟩ ∧ t.work = none)

/-- The errors of the loads' first-byte read and direct path: the first byte outside the ROM, then the range check,
then the capacity check, with `CURSOR` after the first byte (R191). -/
def Obligations.DirectLoadErrors : Prop :=
  ∀ (s : State) (a count : Word) (depth : BitVec 2),
    (s.params.romSize.toNat ≤ a.toNat →
      exec (.paletteLoad a count) s = .next (s.failed s.cursor 1 a) ∧
      exec (.pixelLoad a count depth) s = .next (s.failed s.cursor 1 a)) ∧
    (a.toNat < s.params.romSize.toNat → s.rom.byte a.toNat ≠ 0x10#8 →
      (s.params.romSize.toNat < a.toNat + 2 * count.toNat →
        exec (.paletteLoad a count) s = .next (s.failed (BitVec.ofNat 32 (a.toNat + 1)) 1 a)) ∧
      (s.params.romSize.toNat < a.toNat + count.toNat →
        exec (.pixelLoad a count depth) s = .next (s.failed (BitVec.ofNat 32 (a.toNat + 1)) 1 a)) ∧
      (a.toNat + 2 * count.toNat ≤ s.params.romSize.toNat → s.params.bufCap.val < 2 * count.toNat →
        exec (.paletteLoad a count) s =
          .next (s.failed (BitVec.ofNat 32 (a.toNat + 1)) 5 (BitVec.ofNat 32 (2 * count.toNat)))) ∧
      (a.toNat + count.toNat ≤ s.params.romSize.toNat → s.params.bufCap.val < count.toNat →
        exec (.pixelLoad a count depth) s = .next (s.failed (BitVec.ofNat 32 (a.toNat + 1)) 5 count)))

/-- A compressed load is the decompression of the same block: where `LZ77_DECOMPRESS` returns bytes, the load puts
exactly those in its buffer, whatever `COUNT` is; where it fails, the load gives the same response, the same `CURSOR`,
and keeps the buffer, the registers and the path flag it had (R191, R192, R215). -/
def Obligations.CompressedLoadsAreDecompressions : Prop :=
  ∀ (s t : State) (a count : Word) (depth : BitVec 2) (r : Response),
    a.toNat < s.params.romSize.toNat → s.rom.byte a.toNat = 0x10#8 →
    exec (.lz77Decompress a) s = .next t → t.response = some r →
    ∃ p q, exec (.paletteLoad a count) s = .next p ∧ exec (.pixelLoad a count depth) s = .next q ∧
      p.cursor = t.cursor ∧ q.cursor = t.cursor ∧
      (r.err = 0 →
        p.palBuf.map (BitVec.setWidth 32) = r.data ∧ p.palLen = r.value ∧ statusPalComp p.status = true ∧
        p.response = some ⟨0, BitVec.ofNat 32 (r.value.toNat / 2), []⟩ ∧
        q.pixBuf.map (BitVec.setWidth 32) = r.data ∧ q.pixLen = r.value ∧ q.pixDepth = depth ∧
        statusPixComp q.status = true ∧ q.response = some ⟨0, r.value, []⟩) ∧
      (r.err ≠ 0 → p.response = some r ∧ samePalette s p ∧ q.response = some r ∧ samePlane s q)

/-! ### Colors and pixels -/

/-- `RGB_UNPACK`: encoding, and the three channels, each a 5-bit field shifted left by 3; bit 15 of the word and
VALUE[31:16] have no effect (spec/42_palette.md R190, R194). -/
def Obligations.RgbUnpacks : Prop :=
  plainOpcode 0x22#32 (fun c => .rgbUnpack c.value) ∧
  ∀ (s : State) (v : Word),
    exec (.rgbUnpack v) s = .next (s.succeeded s.cursor (packedColor (v.extractLsb' 0 16)) [])

/-- `PALETTE_GET`: encoding, the color of a loaded entry, and `OutOfBounds` with the index beyond the entries
(spec/42_palette.md R193). The premise on the buffer's length is spec/10_state.md R34 (iii), which `InvariantKept`
covers. -/
def Obligations.PaletteEntries : Prop :=
  plainOpcode 0x21#32 (fun c => .paletteGet c.index) ∧
  ∀ (s : State) (i : Word),
    (s.palBuf.length = s.palLen.toNat → i.toNat < s.palLen.toNat / 2 →
      exec (.paletteGet i) s = .next (s.succeeded s.cursor
        (packedColor (s.palBuf.getD (2 * i.toNat + 1) 0 ++ s.palBuf.getD (2 * i.toNat) 0)) [])) ∧
    (s.palLen.toNat / 2 ≤ i.toNat → exec (.paletteGet i) s = .next (s.failed s.cursor 1 i))

/-- `PIXEL_GET`: encoding, both extraction formulas at every depth as arithmetic on the byte's value, and `OutOfBounds`
with the index at or beyond the pixel count (spec/43_pixelplane.md R212, R213, R216). The premise on the buffer's length
is spec/10_state.md R34 (iv), which `InvariantKept` covers. -/
def Obligations.PixelValues : Prop :=
  plainOpcode 0x31#32 (fun c => .pixelGet c.index) ∧
  ∀ (s : State) (i : Word),
    let d := 2 ^ s.pixDepth.toNat
    let ppb := 8 / d
    let raw := (s.pixBuf.getD (i.toNat / ppb) 0).toNat
    (s.pixBuf.length = s.pixLen.toNat → i.toNat < s.pixLen.toNat * ppb → s.params.pixel = .generalized →
      exec (.pixelGet i) s = .next (s.succeeded s.cursor
        (BitVec.ofNat 32 (raw / 2 ^ (i.toNat % ppb * d) % 2 ^ d)) [])) ∧
    (s.pixBuf.length = s.pixLen.toNat → i.toNat < s.pixLen.toNat * ppb → s.params.pixel = .legacy →
      exec (.pixelGet i) s = .next (s.succeeded s.cursor
        (BitVec.ofNat 32 (if i.toNat % 2 = 0 then raw % 16 else raw / 16 * 16 / 2 ^ d)) [])) ∧
    (s.pixLen.toNat * ppb ≤ i.toNat → exec (.pixelGet i) s = .next (s.failed s.cursor 1 i))

/-- At depth 4 `P_PIXEL_MODE` has no effect on `PIXEL_GET` (spec/43_pixelplane.md R214). -/
def Obligations.PixelModesAgreeAtDepthFour : Prop :=
  ∀ (s : State) (i : Word) (m : PixelMode), s.pixDepth = 2 →
    ∃ t u, exec (.pixelGet i) s = .next t ∧
      exec (.pixelGet i) { s with params := { s.params with pixel := m } } = .next u ∧ u.response = t.response

/-! ### Registers -/

/-- `READ_REG`: encoding by register number, the value of each register as it was before the command, a number of 7 or
more illegal (spec/44_system.md R230, spec/10_state.md R28, R36). -/
def Obligations.RegistersRead : Prop :=
  (∀ c : Command, c.cmd = 0x40#32 →
    (c.index = 0 → decode c = .ok (.readReg .cursor)) ∧ (c.index = 1 → decode c = .ok (.readReg .status)) ∧
    (c.index = 2 → decode c = .ok (.readReg .palLen)) ∧ (c.index = 3 → decode c = .ok (.readReg .pixLen)) ∧
    (c.index = 4 → decode c = .ok (.readReg .pixDepth)) ∧ (c.index = 5 → decode c = .ok (.readReg .romSize)) ∧
    (c.index = 6 → decode c = .ok (.readReg .config)) ∧ (7 ≤ c.index.toNat → ∃ r, decode c = .error r)) ∧
  ∀ s : State,
    exec (.readReg .cursor) s = .next (s.succeeded s.cursor s.cursor []) ∧
    exec (.readReg .status) s = .next (s.succeeded s.cursor s.status []) ∧
    exec (.readReg .palLen) s = .next (s.succeeded s.cursor s.palLen []) ∧
    exec (.readReg .pixLen) s = .next (s.succeeded s.cursor s.pixLen []) ∧
    exec (.readReg .pixDepth) s = .next (s.succeeded s.cursor (s.pixDepth.setWidth 32) []) ∧
    exec (.readReg .romSize) s = .next (s.succeeded s.cursor s.params.romSize []) ∧
    ∃ v : Word, exec (.readReg .config) s = .next (s.succeeded s.cursor v []) ∧
      v.getLsbD 0 = decide (s.params.bulkWrite = .legacyByte) ∧
      v.getLsbD 1 = decide (s.params.pixel = .legacy) ∧
      v.getLsbD 2 = decide (s.params.overrun = .fault) ∧ v.toNat < 8

/-- After any command, `READ_REG 1` shows the code its response carried, and a second `READ_REG 1` shows 0
(spec/44_system.md R230, R232). -/
def Obligations.StatusShowsTheLastError : Prop :=
  ∀ (i : Instr) (s t : State) (r : Response), i.isCommand = true → exec i s = .next t → t.response = some r →
    ∃ u v x y, exec (.readReg .status) t = .next u ∧ u.response = some ⟨0, x, []⟩ ∧ statusErr x = r.err ∧
      exec (.readReg .status) u = .next v ∧ v.response = some ⟨0, y, []⟩ ∧ statusErr y = 0

/-! ### The whole machine -/

/-- The invariant holds in the state the model starts from, and after a reset of any block whose ROM is sound
(spec/10_state.md R34). -/
def Obligations.InvariantAtReset : Prop :=
  State.reset.Inv ∧
  ∀ (p : Params) (m : Memory) (moves : List HostMove), m.wf = true → m.below p.romSize.toNat = true →
    (State.afterReset p m moves).Inv

/-- Every step keeps the invariant of spec/10_state.md R34, from every state that has it: `CURSOR` in the ROM, the ROM
neither resized nor malformed, both buffers as long as their registers say and within `P_BUF_CAP`, the reserved bits of
`STATUS` 0, and a sound decoder where one runs. That the ROM is held in a canonical form is the model's (log 2). -/
def Obligations.InvariantKept : Prop :=
  ∀ s t : State, s.Inv → step s = .next t → t.Inv

/-- Every command ends with exactly one response, whose code is in `STATUS.ERR`, and leaves no decompression running
(spec/44_system.md R232, R233; spec/41_lz77.md R166; spec/30_encoding.md R88). -/
def Obligations.EveryCommandIsAnswered : Prop :=
  ∀ (i : Instr) (s : State), i.isCommand = true →
    ∃ t r, exec i s = .next t ∧ t.work = none ∧ t.response = some r ∧ statusErr t.status = r.err

/-- No decompression is left running between commands (spec/10_state.md R31, spec/70_reset_and_hazards.md R270). -/
def Obligations.NoWorkBetweenCommands : Prop :=
  ∀ s t : State, s.work = none → step s = .next t → t.work = none

/-- A command that ends with an error returns no data and leaves the ROM, both buffers and every register as they were,
but for `STATUS.ERR` and, after a decompression or a load, `CURSOR` (spec/60_exceptions.md R245). -/
def Obligations.ErrorsChangeNothingElse : Prop :=
  ∀ (i : Instr) (s t : State) (r : Response), i.isCommand = true → exec i s = .next t →
    t.response = some r → r.err ≠ 0 →
    r.data = [] ∧ t.rom = s.rom ∧ samePalette s t ∧ samePlane s t ∧ sameBlock s t ∧
      (i.readsStream = false → t.cursor = s.cursor)

/-- Only the codes 0 to 3, 5 and 6 come from a command that decodes; the loads never raise `InvalidOpcode`, and
`RGB_UNPACK` and `READ_REG` raise nothing (spec/60_exceptions.md R241, R242). -/
def Obligations.ErrorCodesRaised : Prop :=
  ∀ (i : Instr) (s t : State) (r : Response), i.isCommand = true → exec i s = .next t → t.response = some r →
    r.err.toNat ≤ 6 ∧ r.err ≠ 4 ∧
    (∀ a n, i = .paletteLoad a n → r.err ≠ 2) ∧ (∀ a n d, i = .pixelLoad a n d → r.err ≠ 2) ∧
    (∀ v, i = .rgbUnpack v → r.err = 0) ∧ (∀ x, i = .readReg x → r.err = 0)

/-- No command reads `STATUS.ERR` to decide its behaviour: whatever the previous command's result was, the next state
and the response are the same. `READ_REG 1`, which returns `STATUS`, is the one command left out
(spec/10_state.md R35, spec/44_system.md R232). -/
def Obligations.PreviousResultIsNeverConsulted : Prop :=
  ∀ (i : Instr) (s : State) (code : BitVec 4), i.isCommand = true → i ≠ .readReg .status →
    exec i { s with status := withErr s.status code } = exec i s

/-- A ROM write after a load does not change what `PALETTE_GET` and `PIXEL_GET` return (spec/20_memory.md R66). -/
def Obligations.BuffersAreSnapshots : Prop :=
  ∀ (i : Instr) (s t : State) (index : Word), i.writesRom = true → exec i s = .next t →
    ∃ u v x y, exec (.paletteGet index) s = .next u ∧ exec (.paletteGet index) t = .next v ∧
      exec (.pixelGet index) s = .next x ∧ exec (.pixelGet index) t = .next y ∧
      v.response = u.response ∧ y.response = x.response

/-- A step is never refused, and it stops only where the host loads an image that is not `P_ROM_SIZE` bytes long, which
breaks its duty of spec/70_reset_and_hazards.md R272 (logs 7 and 8). -/
def Obligations.StepStopsOnlyOnAHostBreach : Prop :=
  ∀ s : State, (∀ r, step s ≠ .refused r) ∧
    ∀ r, step s = .fault r →
      s.work = none ∧ ∃ image moves, s.inbox = .reset (some image) :: moves ∧
        image.length ≠ s.params.romSize.toNat
end

