-- ==== Sys2Proof/Laws/State.lean ====
section
/-! SUPPORT. What each named update of the state does to each field: one lemma per field per update, so that no proof
unfolds a record update. -/
namespace Sys2Proof.Machine

/-! ### moveCursor -/

@[simp] theorem State.moveCursor_params (s : State) (a : Nat) : (s.moveCursor a).params = s.params := rfl
@[simp] theorem State.moveCursor_rom (s : State) (a : Nat) : (s.moveCursor a).rom = s.rom := rfl
@[simp] theorem State.moveCursor_cursor (s : State) (a : Nat) : (s.moveCursor a).cursor = BitVec.ofNat 32 a := rfl
@[simp] theorem State.moveCursor_status (s : State) (a : Nat) : (s.moveCursor a).status = s.status := rfl
@[simp] theorem State.moveCursor_palLen (s : State) (a : Nat) : (s.moveCursor a).palLen = s.palLen := rfl
@[simp] theorem State.moveCursor_pixLen (s : State) (a : Nat) : (s.moveCursor a).pixLen = s.pixLen := rfl
@[simp] theorem State.moveCursor_pixDepth (s : State) (a : Nat) : (s.moveCursor a).pixDepth = s.pixDepth := rfl
@[simp] theorem State.moveCursor_palBuf (s : State) (a : Nat) : (s.moveCursor a).palBuf = s.palBuf := rfl
@[simp] theorem State.moveCursor_pixBuf (s : State) (a : Nat) : (s.moveCursor a).pixBuf = s.pixBuf := rfl
@[simp] theorem State.moveCursor_work (s : State) (a : Nat) : (s.moveCursor a).work = s.work := rfl
@[simp] theorem State.moveCursor_inbox (s : State) (a : Nat) : (s.moveCursor a).inbox = s.inbox := rfl
@[simp] theorem State.moveCursor_response (s : State) (a : Nat) : (s.moveCursor a).response = s.response := rfl

/-! ### setRom -/

@[simp] theorem State.setRom_params (s : State) (m : Memory) : (s.setRom m).params = s.params := rfl
@[simp] theorem State.setRom_rom (s : State) (m : Memory) : (s.setRom m).rom = m := rfl
@[simp] theorem State.setRom_cursor (s : State) (m : Memory) : (s.setRom m).cursor = s.cursor := rfl
@[simp] theorem State.setRom_status (s : State) (m : Memory) : (s.setRom m).status = s.status := rfl
@[simp] theorem State.setRom_palLen (s : State) (m : Memory) : (s.setRom m).palLen = s.palLen := rfl
@[simp] theorem State.setRom_pixLen (s : State) (m : Memory) : (s.setRom m).pixLen = s.pixLen := rfl
@[simp] theorem State.setRom_pixDepth (s : State) (m : Memory) : (s.setRom m).pixDepth = s.pixDepth := rfl
@[simp] theorem State.setRom_palBuf (s : State) (m : Memory) : (s.setRom m).palBuf = s.palBuf := rfl
@[simp] theorem State.setRom_pixBuf (s : State) (m : Memory) : (s.setRom m).pixBuf = s.pixBuf := rfl
@[simp] theorem State.setRom_work (s : State) (m : Memory) : (s.setRom m).work = s.work := rfl
@[simp] theorem State.setRom_inbox (s : State) (m : Memory) : (s.setRom m).inbox = s.inbox := rfl
@[simp] theorem State.setRom_response (s : State) (m : Memory) : (s.setRom m).response = s.response := rfl

/-! ### setWork -/

@[simp] theorem State.setWork_params (s : State) (w : Lz77Work) : (s.setWork w).params = s.params := rfl
@[simp] theorem State.setWork_rom (s : State) (w : Lz77Work) : (s.setWork w).rom = s.rom := rfl
@[simp] theorem State.setWork_cursor (s : State) (w : Lz77Work) : (s.setWork w).cursor = s.cursor := rfl
@[simp] theorem State.setWork_status (s : State) (w : Lz77Work) : (s.setWork w).status = s.status := rfl
@[simp] theorem State.setWork_palLen (s : State) (w : Lz77Work) : (s.setWork w).palLen = s.palLen := rfl
@[simp] theorem State.setWork_pixLen (s : State) (w : Lz77Work) : (s.setWork w).pixLen = s.pixLen := rfl
@[simp] theorem State.setWork_pixDepth (s : State) (w : Lz77Work) : (s.setWork w).pixDepth = s.pixDepth := rfl
@[simp] theorem State.setWork_palBuf (s : State) (w : Lz77Work) : (s.setWork w).palBuf = s.palBuf := rfl
@[simp] theorem State.setWork_pixBuf (s : State) (w : Lz77Work) : (s.setWork w).pixBuf = s.pixBuf := rfl
@[simp] theorem State.setWork_work (s : State) (w : Lz77Work) : (s.setWork w).work = some w := rfl
@[simp] theorem State.setWork_inbox (s : State) (w : Lz77Work) : (s.setWork w).inbox = s.inbox := rfl
@[simp] theorem State.setWork_response (s : State) (w : Lz77Work) : (s.setWork w).response = s.response := rfl

/-! ### setInbox -/

@[simp] theorem State.setInbox_params (s : State) (moves : List HostMove) : (s.setInbox moves).params = s.params := rfl
@[simp] theorem State.setInbox_rom (s : State) (moves : List HostMove) : (s.setInbox moves).rom = s.rom := rfl
@[simp] theorem State.setInbox_cursor (s : State) (moves : List HostMove) : (s.setInbox moves).cursor = s.cursor := rfl
@[simp] theorem State.setInbox_status (s : State) (moves : List HostMove) : (s.setInbox moves).status = s.status := rfl
@[simp] theorem State.setInbox_palLen (s : State) (moves : List HostMove) : (s.setInbox moves).palLen = s.palLen := rfl
@[simp] theorem State.setInbox_pixLen (s : State) (moves : List HostMove) : (s.setInbox moves).pixLen = s.pixLen := rfl
@[simp] theorem State.setInbox_pixDepth (s : State) (moves : List HostMove) : (s.setInbox moves).pixDepth = s.pixDepth := rfl
@[simp] theorem State.setInbox_palBuf (s : State) (moves : List HostMove) : (s.setInbox moves).palBuf = s.palBuf := rfl
@[simp] theorem State.setInbox_pixBuf (s : State) (moves : List HostMove) : (s.setInbox moves).pixBuf = s.pixBuf := rfl
@[simp] theorem State.setInbox_work (s : State) (moves : List HostMove) : (s.setInbox moves).work = s.work := rfl
@[simp] theorem State.setInbox_inbox (s : State) (moves : List HostMove) : (s.setInbox moves).inbox = moves := rfl
@[simp] theorem State.setInbox_response (s : State) (moves : List HostMove) : (s.setInbox moves).response = s.response := rfl

/-! ### setPalette -/

@[simp] theorem State.setPalette_params (s : State) (bytes : List Byte) (comp : Bool) : (s.setPalette bytes comp).params = s.params := rfl
@[simp] theorem State.setPalette_rom (s : State) (bytes : List Byte) (comp : Bool) : (s.setPalette bytes comp).rom = s.rom := rfl
@[simp] theorem State.setPalette_cursor (s : State) (bytes : List Byte) (comp : Bool) : (s.setPalette bytes comp).cursor = s.cursor := rfl
@[simp] theorem State.setPalette_status (s : State) (bytes : List Byte) (comp : Bool) : (s.setPalette bytes comp).status = withPalComp s.status comp := rfl
@[simp] theorem State.setPalette_palLen (s : State) (bytes : List Byte) (comp : Bool) : (s.setPalette bytes comp).palLen = BitVec.ofNat 32 bytes.length := rfl
@[simp] theorem State.setPalette_pixLen (s : State) (bytes : List Byte) (comp : Bool) : (s.setPalette bytes comp).pixLen = s.pixLen := rfl
@[simp] theorem State.setPalette_pixDepth (s : State) (bytes : List Byte) (comp : Bool) : (s.setPalette bytes comp).pixDepth = s.pixDepth := rfl
@[simp] theorem State.setPalette_palBuf (s : State) (bytes : List Byte) (comp : Bool) : (s.setPalette bytes comp).palBuf = bytes := rfl
@[simp] theorem State.setPalette_pixBuf (s : State) (bytes : List Byte) (comp : Bool) : (s.setPalette bytes comp).pixBuf = s.pixBuf := rfl
@[simp] theorem State.setPalette_work (s : State) (bytes : List Byte) (comp : Bool) : (s.setPalette bytes comp).work = s.work := rfl
@[simp] theorem State.setPalette_inbox (s : State) (bytes : List Byte) (comp : Bool) : (s.setPalette bytes comp).inbox = s.inbox := rfl
@[simp] theorem State.setPalette_response (s : State) (bytes : List Byte) (comp : Bool) : (s.setPalette bytes comp).response = s.response := rfl

/-! ### setPlane -/

@[simp] theorem State.setPlane_params (s : State) (bytes : List Byte) (depth : BitVec 2) (comp : Bool) : (s.setPlane bytes depth comp).params = s.params := rfl
@[simp] theorem State.setPlane_rom (s : State) (bytes : List Byte) (depth : BitVec 2) (comp : Bool) : (s.setPlane bytes depth comp).rom = s.rom := rfl
@[simp] theorem State.setPlane_cursor (s : State) (bytes : List Byte) (depth : BitVec 2) (comp : Bool) : (s.setPlane bytes depth comp).cursor = s.cursor := rfl
@[simp] theorem State.setPlane_status (s : State) (bytes : List Byte) (depth : BitVec 2) (comp : Bool) : (s.setPlane bytes depth comp).status = withPixComp s.status comp := rfl
@[simp] theorem State.setPlane_palLen (s : State) (bytes : List Byte) (depth : BitVec 2) (comp : Bool) : (s.setPlane bytes depth comp).palLen = s.palLen := rfl
@[simp] theorem State.setPlane_pixLen (s : State) (bytes : List Byte) (depth : BitVec 2) (comp : Bool) : (s.setPlane bytes depth comp).pixLen = BitVec.ofNat 32 bytes.length := rfl
@[simp] theorem State.setPlane_pixDepth (s : State) (bytes : List Byte) (depth : BitVec 2) (comp : Bool) : (s.setPlane bytes depth comp).pixDepth = depth := rfl
@[simp] theorem State.setPlane_palBuf (s : State) (bytes : List Byte) (depth : BitVec 2) (comp : Bool) : (s.setPlane bytes depth comp).palBuf = s.palBuf := rfl
@[simp] theorem State.setPlane_pixBuf (s : State) (bytes : List Byte) (depth : BitVec 2) (comp : Bool) : (s.setPlane bytes depth comp).pixBuf = bytes := rfl
@[simp] theorem State.setPlane_work (s : State) (bytes : List Byte) (depth : BitVec 2) (comp : Bool) : (s.setPlane bytes depth comp).work = s.work := rfl
@[simp] theorem State.setPlane_inbox (s : State) (bytes : List Byte) (depth : BitVec 2) (comp : Bool) : (s.setPlane bytes depth comp).inbox = s.inbox := rfl
@[simp] theorem State.setPlane_response (s : State) (bytes : List Byte) (depth : BitVec 2) (comp : Bool) : (s.setPlane bytes depth comp).response = s.response := rfl

/-! ### finish -/

@[simp] theorem State.finish_params (s : State) (r : Response) : (s.finish r).params = s.params := rfl
@[simp] theorem State.finish_rom (s : State) (r : Response) : (s.finish r).rom = s.rom := rfl
@[simp] theorem State.finish_cursor (s : State) (r : Response) : (s.finish r).cursor = s.cursor := rfl
@[simp] theorem State.finish_status (s : State) (r : Response) : (s.finish r).status = withErr s.status r.err := rfl
@[simp] theorem State.finish_palLen (s : State) (r : Response) : (s.finish r).palLen = s.palLen := rfl
@[simp] theorem State.finish_pixLen (s : State) (r : Response) : (s.finish r).pixLen = s.pixLen := rfl
@[simp] theorem State.finish_pixDepth (s : State) (r : Response) : (s.finish r).pixDepth = s.pixDepth := rfl
@[simp] theorem State.finish_palBuf (s : State) (r : Response) : (s.finish r).palBuf = s.palBuf := rfl
@[simp] theorem State.finish_pixBuf (s : State) (r : Response) : (s.finish r).pixBuf = s.pixBuf := rfl
@[simp] theorem State.finish_work (s : State) (r : Response) : (s.finish r).work = none := rfl
@[simp] theorem State.finish_inbox (s : State) (r : Response) : (s.finish r).inbox = s.inbox := rfl
@[simp] theorem State.finish_response (s : State) (r : Response) : (s.finish r).response = some r := rfl

/-! ### respond -/

@[simp] theorem State.respond_params (s : State) (v : Word) (d : List Word) : (s.respond v d).params = s.params := rfl
@[simp] theorem State.respond_rom (s : State) (v : Word) (d : List Word) : (s.respond v d).rom = s.rom := rfl
@[simp] theorem State.respond_cursor (s : State) (v : Word) (d : List Word) : (s.respond v d).cursor = s.cursor := rfl
@[simp] theorem State.respond_status (s : State) (v : Word) (d : List Word) : (s.respond v d).status = withErr s.status 0 := rfl
@[simp] theorem State.respond_palLen (s : State) (v : Word) (d : List Word) : (s.respond v d).palLen = s.palLen := rfl
@[simp] theorem State.respond_pixLen (s : State) (v : Word) (d : List Word) : (s.respond v d).pixLen = s.pixLen := rfl
@[simp] theorem State.respond_pixDepth (s : State) (v : Word) (d : List Word) : (s.respond v d).pixDepth = s.pixDepth := rfl
@[simp] theorem State.respond_palBuf (s : State) (v : Word) (d : List Word) : (s.respond v d).palBuf = s.palBuf := rfl
@[simp] theorem State.respond_pixBuf (s : State) (v : Word) (d : List Word) : (s.respond v d).pixBuf = s.pixBuf := rfl
@[simp] theorem State.respond_work (s : State) (v : Word) (d : List Word) : (s.respond v d).work = none := rfl
@[simp] theorem State.respond_inbox (s : State) (v : Word) (d : List Word) : (s.respond v d).inbox = s.inbox := rfl
@[simp] theorem State.respond_response (s : State) (v : Word) (d : List Word) : (s.respond v d).response = some { err := 0, value := v, data := d } := rfl

/-! ### raise -/

@[simp] theorem State.raise_params (s : State) (e : Error) (info : Word) : (s.raise e info).params = s.params := rfl
@[simp] theorem State.raise_rom (s : State) (e : Error) (info : Word) : (s.raise e info).rom = s.rom := rfl
@[simp] theorem State.raise_cursor (s : State) (e : Error) (info : Word) : (s.raise e info).cursor = s.cursor := rfl
@[simp] theorem State.raise_status (s : State) (e : Error) (info : Word) : (s.raise e info).status = withErr s.status (errorCode e) := rfl
@[simp] theorem State.raise_palLen (s : State) (e : Error) (info : Word) : (s.raise e info).palLen = s.palLen := rfl
@[simp] theorem State.raise_pixLen (s : State) (e : Error) (info : Word) : (s.raise e info).pixLen = s.pixLen := rfl
@[simp] theorem State.raise_pixDepth (s : State) (e : Error) (info : Word) : (s.raise e info).pixDepth = s.pixDepth := rfl
@[simp] theorem State.raise_palBuf (s : State) (e : Error) (info : Word) : (s.raise e info).palBuf = s.palBuf := rfl
@[simp] theorem State.raise_pixBuf (s : State) (e : Error) (info : Word) : (s.raise e info).pixBuf = s.pixBuf := rfl
@[simp] theorem State.raise_work (s : State) (e : Error) (info : Word) : (s.raise e info).work = none := rfl
@[simp] theorem State.raise_inbox (s : State) (e : Error) (info : Word) : (s.raise e info).inbox = s.inbox := rfl
@[simp] theorem State.raise_response (s : State) (e : Error) (info : Word) : (s.raise e info).response = some { err := errorCode e, value := info, data := [] } := rfl

/-! ### succeeded -/

@[simp] theorem State.succeeded_params (s : State) (c v : Word) (d : List Word) : (s.succeeded c v d).params = s.params := rfl
@[simp] theorem State.succeeded_rom (s : State) (c v : Word) (d : List Word) : (s.succeeded c v d).rom = s.rom := rfl
@[simp] theorem State.succeeded_cursor (s : State) (c v : Word) (d : List Word) : (s.succeeded c v d).cursor = c := rfl
@[simp] theorem State.succeeded_status (s : State) (c v : Word) (d : List Word) : (s.succeeded c v d).status = withErr s.status 0 := rfl
@[simp] theorem State.succeeded_palLen (s : State) (c v : Word) (d : List Word) : (s.succeeded c v d).palLen = s.palLen := rfl
@[simp] theorem State.succeeded_pixLen (s : State) (c v : Word) (d : List Word) : (s.succeeded c v d).pixLen = s.pixLen := rfl
@[simp] theorem State.succeeded_pixDepth (s : State) (c v : Word) (d : List Word) : (s.succeeded c v d).pixDepth = s.pixDepth := rfl
@[simp] theorem State.succeeded_palBuf (s : State) (c v : Word) (d : List Word) : (s.succeeded c v d).palBuf = s.palBuf := rfl
@[simp] theorem State.succeeded_pixBuf (s : State) (c v : Word) (d : List Word) : (s.succeeded c v d).pixBuf = s.pixBuf := rfl
@[simp] theorem State.succeeded_work (s : State) (c v : Word) (d : List Word) : (s.succeeded c v d).work = none := rfl
@[simp] theorem State.succeeded_inbox (s : State) (c v : Word) (d : List Word) : (s.succeeded c v d).inbox = s.inbox := rfl
@[simp] theorem State.succeeded_response (s : State) (c v : Word) (d : List Word) : (s.succeeded c v d).response = some { err := 0, value := v, data := d } := rfl

/-! ### failed -/

@[simp] theorem State.failed_params (s : State) (c : Word) (e : BitVec 4) (info : Word) : (s.failed c e info).params = s.params := rfl
@[simp] theorem State.failed_rom (s : State) (c : Word) (e : BitVec 4) (info : Word) : (s.failed c e info).rom = s.rom := rfl
@[simp] theorem State.failed_cursor (s : State) (c : Word) (e : BitVec 4) (info : Word) : (s.failed c e info).cursor = c := rfl
@[simp] theorem State.failed_status (s : State) (c : Word) (e : BitVec 4) (info : Word) : (s.failed c e info).status = withErr s.status e := rfl
@[simp] theorem State.failed_palLen (s : State) (c : Word) (e : BitVec 4) (info : Word) : (s.failed c e info).palLen = s.palLen := rfl
@[simp] theorem State.failed_pixLen (s : State) (c : Word) (e : BitVec 4) (info : Word) : (s.failed c e info).pixLen = s.pixLen := rfl
@[simp] theorem State.failed_pixDepth (s : State) (c : Word) (e : BitVec 4) (info : Word) : (s.failed c e info).pixDepth = s.pixDepth := rfl
@[simp] theorem State.failed_palBuf (s : State) (c : Word) (e : BitVec 4) (info : Word) : (s.failed c e info).palBuf = s.palBuf := rfl
@[simp] theorem State.failed_pixBuf (s : State) (c : Word) (e : BitVec 4) (info : Word) : (s.failed c e info).pixBuf = s.pixBuf := rfl
@[simp] theorem State.failed_work (s : State) (c : Word) (e : BitVec 4) (info : Word) : (s.failed c e info).work = none := rfl
@[simp] theorem State.failed_inbox (s : State) (c : Word) (e : BitVec 4) (info : Word) : (s.failed c e info).inbox = s.inbox := rfl
@[simp] theorem State.failed_response (s : State) (c : Word) (e : BitVec 4) (info : Word) : (s.failed c e info).response = some { err := e, value := info, data := [] } := rfl

/-! ### afterReset -/

@[simp] theorem State.afterReset_params (p : Params) (m : Memory) (moves : List HostMove) :
    (State.afterReset p m moves).params = p := rfl
@[simp] theorem State.afterReset_rom (p : Params) (m : Memory) (moves : List HostMove) :
    (State.afterReset p m moves).rom = m := rfl
@[simp] theorem State.afterReset_cursor (p : Params) (m : Memory) (moves : List HostMove) :
    (State.afterReset p m moves).cursor = 0 := rfl
@[simp] theorem State.afterReset_status (p : Params) (m : Memory) (moves : List HostMove) :
    (State.afterReset p m moves).status = 0 := rfl
@[simp] theorem State.afterReset_palLen (p : Params) (m : Memory) (moves : List HostMove) :
    (State.afterReset p m moves).palLen = 0 := rfl
@[simp] theorem State.afterReset_pixLen (p : Params) (m : Memory) (moves : List HostMove) :
    (State.afterReset p m moves).pixLen = 0 := rfl
@[simp] theorem State.afterReset_pixDepth (p : Params) (m : Memory) (moves : List HostMove) :
    (State.afterReset p m moves).pixDepth = 2 := rfl
@[simp] theorem State.afterReset_palBuf (p : Params) (m : Memory) (moves : List HostMove) :
    (State.afterReset p m moves).palBuf = [] := rfl
@[simp] theorem State.afterReset_pixBuf (p : Params) (m : Memory) (moves : List HostMove) :
    (State.afterReset p m moves).pixBuf = [] := rfl
@[simp] theorem State.afterReset_work (p : Params) (m : Memory) (moves : List HostMove) :
    (State.afterReset p m moves).work = none := rfl
@[simp] theorem State.afterReset_inbox (p : Params) (m : Memory) (moves : List HostMove) :
    (State.afterReset p m moves).inbox = moves := rfl
@[simp] theorem State.afterReset_response (p : Params) (m : Memory) (moves : List HostMove) :
    (State.afterReset p m moves).response = none := rfl

/-! ### The two ends of a command -/

/-- `respond` after a cursor move is the successful end. -/
theorem State.respond_eq_succeeded (s : State) (v : Word) (d : List Word) :
    s.respond v d = s.succeeded s.cursor v d := rfl

/-- `raise` is the failed end. -/
theorem State.raise_eq_failed (s : State) (e : Error) (info : Word) :
    s.raise e info = s.failed s.cursor (errorCode e) info := rfl

theorem State.moveCursor_respond (s : State) (a : Nat) (v : Word) (d : List Word) :
    (s.moveCursor a).respond v d = s.succeeded (BitVec.ofNat 32 a) v d := rfl

theorem State.moveCursor_raise (s : State) (a : Nat) (e : Error) (info : Word) :
    (s.moveCursor a).raise e info = s.failed (BitVec.ofNat 32 a) (errorCode e) info := rfl

/-! ### The fields of STATUS (spec/10_state.md R23), bit by bit -/

theorem getLsbD_withErr (v : Word) (c : BitVec 4) (i : Nat) :
    (withErr v c).getLsbD i = if i < 4 then c.getLsbD i else v.getLsbD i := by
  refine (BitVec.getLsbD_append (x := v.extractLsb' 4 28) (y := c) (i := i)).trans ?_
  split
  · rfl
  · rw [BitVec.getLsbD_extractLsb', Nat.add_sub_cancel' (by omega)]
    by_cases h : i < 32
    · simp [show i - 4 < 28 by omega]
    · rw [BitVec.getLsbD_of_ge _ _ (by omega)]; simp

theorem getLsbD_withPalComp (v : Word) (b : Bool) (i : Nat) :
    (withPalComp v b).getLsbD i = if i = 4 then b else v.getLsbD i := by
  refine (BitVec.getLsbD_append (x := v.extractLsb' 5 27 ++ BitVec.ofBool b) (y := v.extractLsb' 0 4)
    (i := i)).trans ?_
  simp only [BitVec.getLsbD_append, BitVec.getLsbD_extractLsb', BitVec.getLsbD_ofBool]
  by_cases h4 : i < 4
  · simp [h4, show i ≠ 4 by omega]
  · by_cases h : i = 4
    · simp [h]
    · by_cases h32 : i < 32
      · simp [h4, h, show ¬ i - 4 < 1 by omega, show i - 4 - 1 < 27 by omega, show 5 + (i - 4 - 1) = i by omega]
      · simp [h4, h, show ¬ i - 4 < 1 by omega, show ¬ i - 4 - 1 < 27 by omega,
          BitVec.getLsbD_of_ge v i (by omega)]

theorem getLsbD_withPixComp (v : Word) (b : Bool) (i : Nat) :
    (withPixComp v b).getLsbD i = if i = 5 then b else v.getLsbD i := by
  refine (BitVec.getLsbD_append (x := v.extractLsb' 6 26 ++ BitVec.ofBool b) (y := v.extractLsb' 0 5)
    (i := i)).trans ?_
  simp only [BitVec.getLsbD_append, BitVec.getLsbD_extractLsb', BitVec.getLsbD_ofBool]
  by_cases h5 : i < 5
  · simp [h5, show i ≠ 5 by omega]
  · by_cases h : i = 5
    · simp [h]
    · by_cases h32 : i < 32
      · simp [h5, h, show ¬ i - 5 < 1 by omega, show i - 5 - 1 < 26 by omega, show 6 + (i - 5 - 1) = i by omega]
      · simp [h5, h, show ¬ i - 5 < 1 by omega, show ¬ i - 5 - 1 < 26 by omega,
          BitVec.getLsbD_of_ge v i (by omega)]

@[simp] theorem statusErr_withErr (v : Word) (c : BitVec 4) : statusErr (withErr v c) = c := by
  refine BitVec.eq_of_getLsbD_eq fun i hi => ?_
  simp [statusErr, getLsbD_withErr, hi]

@[simp] theorem statusErr_withPalComp (v : Word) (b : Bool) : statusErr (withPalComp v b) = statusErr v := by
  refine BitVec.eq_of_getLsbD_eq fun i hi => ?_
  simp [statusErr, BitVec.getLsbD_extractLsb', getLsbD_withPalComp, show i ≠ 4 by omega]

@[simp] theorem statusErr_withPixComp (v : Word) (b : Bool) : statusErr (withPixComp v b) = statusErr v := by
  refine BitVec.eq_of_getLsbD_eq fun i hi => ?_
  simp [statusErr, BitVec.getLsbD_extractLsb', getLsbD_withPixComp, show i ≠ 5 by omega]

@[simp] theorem statusPalComp_withErr (v : Word) (c : BitVec 4) :
    statusPalComp (withErr v c) = statusPalComp v := by simp only [statusPalComp, getLsbD_withErr]; simp

@[simp] theorem statusPalComp_withPalComp (v : Word) (b : Bool) : statusPalComp (withPalComp v b) = b := by
  simp only [statusPalComp, getLsbD_withPalComp]; simp

@[simp] theorem statusPalComp_withPixComp (v : Word) (b : Bool) :
    statusPalComp (withPixComp v b) = statusPalComp v := by
  simp only [statusPalComp, getLsbD_withPixComp]; simp

@[simp] theorem statusPixComp_withErr (v : Word) (c : BitVec 4) :
    statusPixComp (withErr v c) = statusPixComp v := by simp only [statusPixComp, getLsbD_withErr]; simp

@[simp] theorem statusPixComp_withPalComp (v : Word) (b : Bool) :
    statusPixComp (withPalComp v b) = statusPixComp v := by
  simp only [statusPixComp, getLsbD_withPalComp]; simp

@[simp] theorem statusPixComp_withPixComp (v : Word) (b : Bool) : statusPixComp (withPixComp v b) = b := by
  simp only [statusPixComp, getLsbD_withPixComp]; simp

@[simp] theorem statusReserved_withErr (v : Word) (c : BitVec 4) :
    statusReserved (withErr v c) = statusReserved v := by
  refine BitVec.eq_of_getLsbD_eq fun i hi => ?_
  simp [statusReserved, BitVec.getLsbD_extractLsb', getLsbD_withErr, show ¬ 6 + i < 4 by omega]

@[simp] theorem statusReserved_withPalComp (v : Word) (b : Bool) :
    statusReserved (withPalComp v b) = statusReserved v := by
  refine BitVec.eq_of_getLsbD_eq fun i hi => ?_
  simp [statusReserved, BitVec.getLsbD_extractLsb', getLsbD_withPalComp, show 6 + i ≠ 4 by omega]

@[simp] theorem statusReserved_withPixComp (v : Word) (b : Bool) :
    statusReserved (withPixComp v b) = statusReserved v := by
  refine BitVec.eq_of_getLsbD_eq fun i hi => ?_
  simp [statusReserved, BitVec.getLsbD_extractLsb', getLsbD_withPixComp, show 6 + i ≠ 5 by omega]

/-- `STATUS.ERR` written twice holds the second value. -/
@[simp] theorem withErr_withErr (v : Word) (c d : BitVec 4) : withErr (withErr v c) d = withErr v d := by
  refine BitVec.eq_of_getLsbD_eq fun i _ => ?_
  simp only [getLsbD_withErr]; split <;> rfl

theorem withPalComp_withErr (v : Word) (c : BitVec 4) (b : Bool) :
    withPalComp (withErr v c) b = withErr (withPalComp v b) c := by
  refine BitVec.eq_of_getLsbD_eq fun i _ => ?_
  simp only [getLsbD_withErr, getLsbD_withPalComp]
  by_cases h : i = 4
  · simp [h]
  · simp [h]

theorem withPixComp_withErr (v : Word) (c : BitVec 4) (b : Bool) :
    withPixComp (withErr v c) b = withErr (withPixComp v b) c := by
  refine BitVec.eq_of_getLsbD_eq fun i _ => ?_
  simp only [getLsbD_withErr, getLsbD_withPixComp]
  by_cases h : i = 5
  · simp [h]
  · simp [h]

end Sys2Proof.Machine
end

