-- ==== Sys2Proof/Laws/Memory.lean ====
section
/-! SUPPORT. The laws of the ROM: what a byte reads after each operation, that every operation keeps the canonical form
and the size, and what the little-endian reads and writes are byte by byte (spec/20_memory.md R52 to R57). -/
namespace Sys2Proof.Machine

/-! ### The canonical form, opened -/

theorem Memory.wf_cons (c : Host.Cell) (m : Memory) :
    Memory.wf (c :: m) = true ↔ c.2 ≠ unlistedByte ∧ (∀ d ∈ m, c.1 < d.1) ∧ m.wf = true := by
  simp [Memory.wf, and_assoc]

theorem Memory.below_cons (size : Nat) (c : Host.Cell) (m : Memory) :
    Memory.below size (c :: m) = true ↔ c.1 < size ∧ m.below size = true := by
  simp [Memory.below]

/-- An address below every listed one reads as unlisted. -/
theorem Memory.byte_of_lt (m : Memory) (a : Nat) (h : ∀ d ∈ m, a < d.1) : m.byte a = unlistedByte := by
  induction m with
  | nil => rfl
  | cons c m ih =>
    have hc := h c (List.mem_cons_self ..)
    simp only [Memory.byte, if_neg (show ¬ c.1 = a by omega)]
    exact ih fun d hd => h d (List.mem_cons_of_mem _ hd)

/-- Outside the ROM every byte reads as unlisted. -/
theorem Memory.byte_of_ge (m : Memory) (size a : Nat) (h : m.below size = true) (ha : size ≤ a) :
    m.byte a = unlistedByte := by
  induction m with
  | nil => rfl
  | cons c m ih =>
    obtain ⟨hc, hm⟩ := (Memory.below_cons size c m).1 h
    simp only [Memory.byte, if_neg (show ¬ c.1 = a by omega)]
    exact ih hm

/-! ### One byte written -/

theorem cellIfListed_mem (a : Nat) (v : Byte) (m : Memory) (d : Host.Cell) (h : d ∈ cellIfListed a v m) :
    d.1 = a ∨ d ∈ m := by
  unfold cellIfListed at h; split at h
  · exact .inr h
  · exact (List.mem_cons.1 h).imp (fun h => by rw [h]) id

theorem cellIfListed_wf (a : Nat) (v : Byte) (m : Memory) (hm : m.wf = true) (h : ∀ d ∈ m, a < d.1) :
    (cellIfListed a v m).wf = true := by
  unfold cellIfListed; split
  · exact hm
  · exact (Memory.wf_cons _ _).2 ⟨‹_›, h, hm⟩

theorem cellIfListed_byte (a : Nat) (v : Byte) (m : Memory) (h : ∀ d ∈ m, a < d.1) (b : Nat) :
    (cellIfListed a v m).byte b = if b = a then v else m.byte b := by
  unfold cellIfListed; split
  · split
    · subst b; rw [Memory.byte_of_lt m a h]; exact (‹v = unlistedByte›).symm
    · rfl
  · simp only [Memory.byte]
    by_cases hb : b = a
    · simp [hb]
    · simp [hb, Ne.symm hb]

theorem Memory.put_mem (m : Memory) (a : Nat) (v : Byte) (d : Host.Cell) (h : d ∈ m.put a v) :
    d.1 = a ∨ d ∈ m := by
  induction m with
  | nil => exact cellIfListed_mem a v [] d h
  | cons c m ih =>
    simp only [Memory.put] at h
    split at h
    · exact cellIfListed_mem a v _ d h
    · split at h
      · exact (cellIfListed_mem a v m d h).imp id (List.mem_cons_of_mem _)
      · rcases List.mem_cons.1 h with h | h
        · exact .inr (h ▸ List.mem_cons_self ..)
        · exact (ih h).imp id (List.mem_cons_of_mem _)

/-- A write keeps the canonical form. -/
theorem Memory.put_wf (m : Memory) (a : Nat) (v : Byte) (hm : m.wf = true) : (m.put a v).wf = true := by
  induction m with
  | nil => exact cellIfListed_wf a v [] rfl (by simp)
  | cons c m ih =>
    obtain ⟨hv, hlt, hwf⟩ := (Memory.wf_cons c m).1 hm
    simp only [Memory.put]
    split
    · refine cellIfListed_wf a v _ hm fun d hd => ?_
      rcases List.mem_cons.1 hd with h | h
      · subst h; assumption
      · have := hlt d h; omega
    · split
      · refine cellIfListed_wf a v m hwf fun d hd => ?_
        have := hlt d hd; omega
      · refine (Memory.wf_cons _ _).2 ⟨hv, fun d hd => ?_, ih hwf⟩
        rcases Memory.put_mem m a v d hd with h | h
        · omega
        · exact hlt d h

/-- Read after write (spec/20_memory.md R62). -/
theorem Memory.byte_put (m : Memory) (a : Nat) (v : Byte) (hm : m.wf = true) (b : Nat) :
    (m.put a v).byte b = if b = a then v else m.byte b := by
  induction m with
  | nil => exact cellIfListed_byte a v [] (by simp) b
  | cons c m ih =>
    obtain ⟨hv, hlt, hwf⟩ := (Memory.wf_cons c m).1 hm
    simp only [Memory.put]
    split
    · refine cellIfListed_byte a v _ (fun d hd => ?_) b
      rcases List.mem_cons.1 hd with h | h
      · subst h; assumption
      · have := hlt d h; omega
    · split
      · rename_i h1 h2
        rw [cellIfListed_byte a v m (fun d hd => h2 ▸ hlt d hd) b]
        simp only [Memory.byte]
        by_cases hb : b = a
        · simp [hb]
        · rw [if_neg hb, if_neg hb, if_neg (by omega)]
      · simp only [Memory.byte, ih hwf]
        by_cases hb : b = a
        · subst hb; rw [if_neg (by omega)]; simp
        · simp [hb]

/-- A write inside the ROM lists no address outside it. -/
theorem Memory.put_below (m : Memory) (size a : Nat) (v : Byte) (hm : m.below size = true) (ha : a < size) :
    (m.put a v).below size = true := by
  simp only [Memory.below, List.all_eq_true, decide_eq_true_eq] at hm ⊢
  intro d hd
  rcases Memory.put_mem m a v d hd with h | h
  · omega
  · exact hm d h

/-! ### Little-endian values -/

/-- `MemWrite` keeps the canonical form. -/
theorem Memory.writeLE_wf (m : Memory) (a : Nat) (v : Word) (n : Nat) (hm : m.wf = true) :
    (m.writeLE a v n).wf = true := by
  induction n generalizing m a v with
  | zero => exact hm
  | succ n ih => exact ih _ _ _ (Memory.put_wf m a _ hm)

theorem Memory.writeLE_below (m : Memory) (size a : Nat) (v : Word) (n : Nat) (hm : m.below size = true)
    (ha : a + n ≤ size) : (m.writeLE a v n).below size = true := by
  induction n generalizing m a v with
  | zero => exact hm
  | succ n ih => exact ih _ _ _ (Memory.put_below m size a _ hm (by omega)) (by omega)

/-- `MemWrite` byte by byte (R57): byte `k` of the value at `a + k`, every other byte as it was. -/
theorem Memory.byte_writeLE (m : Memory) (a : Nat) (v : Word) (n : Nat) (hm : m.wf = true) (b : Nat) :
    (m.writeLE a v n).byte b = if a ≤ b ∧ b < a + n then v.extractLsb' (8 * (b - a)) 8 else m.byte b := by
  induction n generalizing m a v with
  | zero => rw [if_neg (by omega)]; rfl
  | succ n ih =>
    simp only [Memory.writeLE]
    rw [ih _ _ _ (Memory.put_wf m a _ hm), Memory.byte_put m a _ hm]
    by_cases h : a + 1 ≤ b ∧ b < a + 1 + n
    · rw [if_pos h, if_pos (by omega)]
      refine BitVec.eq_of_getLsbD_eq fun i hi => ?_
      simp only [BitVec.getLsbD_extractLsb', BitVec.getLsbD_ushiftRight, hi]
      rw [show 8 + (8 * (b - (a + 1)) + i) = 8 * (b - a) + i by omega]
    · rw [if_neg h]
      by_cases hb : b = a
      · subst hb
        rw [if_pos rfl, if_pos (by omega)]
        refine BitVec.eq_of_getLsbD_eq fun i hi => ?_
        simp [hi]
      · rw [if_neg hb, if_neg (by omega)]

/-- Two memories with the same bytes in a range read the same value there. -/
theorem Memory.readLE_congr (m m' : Memory) (a n : Nat) (h : ∀ k, k < n → m.byte (a + k) = m'.byte (a + k)) :
    m.readLE a n = m'.readLE a n := by
  induction n generalizing a with
  | zero => rfl
  | succ n ih =>
    simp only [Memory.readLE]
    rw [ih (a + 1) fun k hk => by have := h (k + 1) (by omega); rwa [show a + (k + 1) = a + 1 + k by omega] at this,
      show m.byte a = m'.byte a from h 0 (by omega)]

/-- `MemRead` bit by bit (R56): bit `i` of the value is bit `i % 8` of byte `i / 8`. -/
theorem Memory.getLsbD_readLE (m : Memory) (a n i : Nat) :
    (m.readLE a n).getLsbD i = (decide (i < 32 ∧ i < 8 * n) && (m.byte (a + i / 8)).getLsbD (i % 8)) := by
  induction n generalizing a i with
  | zero => simp [Memory.readLE]
  | succ n ih =>
    simp only [Memory.readLE, BitVec.getLsbD_or, BitVec.getLsbD_setWidth, BitVec.getLsbD_shiftLeft, ih]
    by_cases h8 : i < 8
    · by_cases h32 : i < 32
      · simp [h8, h32, show i < 8 * (n + 1) by omega, Nat.div_eq_of_lt h8, Nat.mod_eq_of_lt h8]
      · omega
    · rw [BitVec.getLsbD_of_ge (m.byte a) i (by omega)]
      rw [show a + 1 + (i - 8) / 8 = a + i / 8 by omega, show (i - 8) % 8 = i % 8 by omega]
      by_cases h32 : i < 32
      · simp [h8, h32, show i - 8 < 32 by omega, show (i - 8 < 8 * n) = (i < 8 * (n + 1)) by
          simp only [eq_iff_iff]; omega]
      · simp [h32]

/-! ### Runs of bytes -/

theorem Memory.length_bytes (m : Memory) (a n : Nat) : (m.bytes a n).length = n := by simp [Memory.bytes]

theorem Memory.getD_bytes (m : Memory) (a n i : Nat) (h : i < n) (d : Byte) :
    (m.bytes a n).getD i d = m.byte (a + i) := by simp [Memory.bytes, List.getD, h]

theorem Memory.putAll_wf (m : Memory) (a : Nat) (bs : List Byte) (hm : m.wf = true) : (m.putAll a bs).wf = true := by
  induction bs generalizing m a with
  | nil => exact hm
  | cons b bs ih => exact ih _ _ (Memory.put_wf m a b hm)

theorem imageFrom_mem (a : Nat) (bs : List Byte) (d : Host.Cell) (h : d ∈ imageFrom a bs) :
    a ≤ d.1 ∧ d.1 < a + bs.length := by
  induction bs generalizing a with
  | nil => cases h
  | cons b bs ih =>
    rcases cellIfListed_mem a b _ d h with h | h
    · simp only [List.length_cons]; omega
    · have := ih (a + 1) h; simp only [List.length_cons]; omega

/-- A loaded image is in canonical form. -/
theorem imageFrom_wf (a : Nat) (bs : List Byte) : (imageFrom a bs).wf = true := by
  induction bs generalizing a with
  | nil => rfl
  | cons b bs ih =>
    refine cellIfListed_wf a b _ (ih (a + 1)) fun d hd => ?_
    have := imageFrom_mem (a + 1) bs d hd; omega

/-- A loaded image has its bytes in the ROM. -/
theorem imageFrom_below (bs : List Byte) : (imageFrom 0 bs).below bs.length = true := by
  simp only [Memory.below, List.all_eq_true, decide_eq_true_eq]
  intro d hd
  have := imageFrom_mem 0 bs d hd; omega

/-- A loaded image reads back. -/
theorem imageFrom_byte (a : Nat) (bs : List Byte) (k : Nat) :
    (imageFrom a bs).byte (a + k) = bs.getD k unlistedByte := by
  induction bs generalizing a k with
  | nil => rfl
  | cons b bs ih =>
    have hlt : ∀ d ∈ imageFrom (a + 1) bs, a < d.1 := fun d hd => by
      have := imageFrom_mem (a + 1) bs d hd; omega
    simp only [imageFrom]
    rw [cellIfListed_byte a b _ hlt]
    cases k with
    | zero => simp
    | succ k => rw [if_neg (by omega), show a + (k + 1) = a + 1 + k by omega, ih]; simp

/-! ### The bulk write (spec/40_rombuffer.md R122) -/

theorem bulkStore_wf (m : Memory) (a w k : Nat) (vs : List Word) (hm : m.wf = true) :
    (bulkStore m a w k vs).wf = true := by
  induction vs generalizing m a with
  | nil => exact hm
  | cons v vs ih => exact ih _ _ (Memory.writeLE_wf m a v k hm)

theorem bulkStore_below (m : Memory) (size a w k : Nat) (vs : List Word) (hk : k ≤ w) (hm : m.below size = true)
    (ha : a + vs.length * w ≤ size) : (bulkStore m a w k vs).below size = true := by
  induction vs generalizing m a with
  | nil => exact hm
  | cons v vs ih =>
    simp only [List.length_cons, Nat.add_mul, Nat.one_mul] at ha
    refine ih _ _ (Memory.writeLE_below m size a v k hm ?_) ?_ <;> omega

theorem storedWidth_le (mode : BulkWriteMode) (w : Nat) (h : 1 ≤ w) : storedWidth mode w ≤ w := by
  cases mode
  · exact Nat.le_refl w
  · exact h

end Sys2Proof.Machine
end

