-- ==== Sys2Proof/Laws/Ops.lean ====
section
/-! SUPPORT. What each shared operation of the accessor commands and of the operand forms answers, said once: callers cite
these and unfold nothing (spec/40_rombuffer.md R110 to R126). -/
namespace Sys2Proof.Machine

/-! ### Starts and bounds -/

theorem base_eq_of_startsAt {start : Start} {s : State} {a : Word} (h : startsAt start s a) : base start s = a := by
  rcases h with rfl | ⟨rfl, rfl⟩ <;> rfl

theorem inBounds_eq_true {s : State} {a n : Nat} : inBounds s a n = true ↔ a + n ≤ s.params.romSize.toNat := by
  simp [inBounds]

theorem inBounds_eq_false {s : State} {a n : Nat} : inBounds s a n = false ↔ s.params.romSize.toNat < a + n := by
  simp [inBounds]

/-! ### Values of one, two and four bytes -/

theorem readLE_one (m : Memory) (a : Nat) : m.readLE a 1 = romU8 m a := by
  simp [Memory.readLE, romU8]

theorem readLE_two (m : Memory) (a : Nat) : m.readLE a 2 = romU16 m a := by
  simp [Memory.readLE, romU16, romU8]

theorem readLE_four (m : Memory) (a : Nat) : m.readLE a 4 = romU32 m a := by
  simp [Memory.readLE, romU32, romU8, BitVec.shiftLeft_or_distrib, ← BitVec.shiftLeft_add, BitVec.or_assoc,
    Nat.add_assoc]

/-! ### The shared bodies of the accessor commands -/

theorem scalarRead_fits {start : Start} {s : State} {a : Word} (w : Nat) (f : Word → Word) (h : startsAt start s a)
    (hb : a.toNat + w ≤ s.params.romSize.toNat) :
    scalarRead start w f s = s.succeeded (BitVec.ofNat 32 (a.toNat + w)) (f (s.rom.readLE a.toNat w)) [] := by
  simp [scalarRead, base_eq_of_startsAt h, inBounds_eq_true.2 hb, State.moveCursor_respond]

theorem scalarRead_fails {start : Start} {s : State} {a : Word} (w : Nat) (f : Word → Word) (h : startsAt start s a)
    (hb : s.params.romSize.toNat < a.toNat + w) : scalarRead start w f s = s.failed s.cursor 1 a := by
  simp [scalarRead, base_eq_of_startsAt h, inBounds_eq_false.2 hb, State.raise_eq_failed, errorCode]

theorem bulkRead_fits {start : Start} {s : State} {a : Word} (w : Nat) (count : Word) (h : startsAt start s a)
    (hb : a.toNat + count.toNat * w ≤ s.params.romSize.toNat) :
    bulkRead start w count s = s.succeeded (BitVec.ofNat 32 (a.toNat + count.toNat * w)) count
      ((List.range count.toNat).map (fun i => s.rom.readLE (a.toNat + i * w) w)) := by
  simp [bulkRead, base_eq_of_startsAt h, inBounds_eq_true.2 hb, State.moveCursor_respond]

theorem bulkRead_fails {start : Start} {s : State} {a : Word} (w : Nat) (count : Word) (h : startsAt start s a)
    (hb : s.params.romSize.toNat < a.toNat + count.toNat * w) :
    bulkRead start w count s = s.failed s.cursor 1 a := by
  simp [bulkRead, base_eq_of_startsAt h, inBounds_eq_false.2 hb, State.raise_eq_failed, errorCode]

theorem scalarWrite_fits {start : Start} {s : State} {a : Word} (w : Nat) (v : Word) (h : startsAt start s a)
    (hb : a.toNat + w ≤ s.params.romSize.toNat) :
    scalarWrite start w v s =
      (s.setRom (s.rom.writeLE a.toNat v w)).succeeded (BitVec.ofNat 32 (a.toNat + w)) 0 [] := by
  simp [scalarWrite, base_eq_of_startsAt h, inBounds_eq_true.2 hb, State.moveCursor_respond]

theorem scalarWrite_fails {start : Start} {s : State} {a : Word} (w : Nat) (v : Word) (h : startsAt start s a)
    (hb : s.params.romSize.toNat < a.toNat + w) : scalarWrite start w v s = s.failed s.cursor 1 a := by
  simp [scalarWrite, base_eq_of_startsAt h, inBounds_eq_false.2 hb, State.raise_eq_failed, errorCode]

theorem bulkWrite_fits {start : Start} {s : State} {a : Word} (w : Nat) (data : List Word) (h : startsAt start s a)
    (hb : a.toNat + data.length * w ≤ s.params.romSize.toNat) :
    bulkWrite start w data s =
      (s.setRom (bulkStore s.rom a.toNat w (storedWidth s.params.bulkWrite w) data)).succeeded
        (BitVec.ofNat 32 (a.toNat + data.length * w)) 0 [] := by
  simp [bulkWrite, base_eq_of_startsAt h, inBounds_eq_true.2 hb, State.moveCursor_respond]

theorem bulkWrite_fails {start : Start} {s : State} {a : Word} (w : Nat) (data : List Word) (h : startsAt start s a)
    (hb : s.params.romSize.toNat < a.toNat + data.length * w) :
    bulkWrite start w data s = s.failed s.cursor 1 a := by
  simp [bulkWrite, base_eq_of_startsAt h, inBounds_eq_false.2 hb, State.raise_eq_failed, errorCode]

/-- The loop of a bulk write, byte by byte (R122): the first `k` bytes of each element are stored, every other byte
stays. -/
theorem byte_bulkStore (m : Memory) (a w k : Nat) (vs : List Word) (hk : k ≤ w) (hm : m.wf = true) :
    (∀ i j, i < vs.length → j < w → (bulkStore m a w k vs).byte (a + i * w + j) =
      if j < k then (vs.getD i 0).extractLsb' (8 * j) 8 else m.byte (a + i * w + j)) ∧
    ∀ b, (b < a ∨ a + vs.length * w ≤ b) → (bulkStore m a w k vs).byte b = m.byte b := by
  induction vs generalizing m a with
  | nil => exact ⟨fun i j hi => absurd hi (Nat.not_lt_zero i), fun b _ => rfl⟩
  | cons v vs ih =>
    have hw := Memory.writeLE_wf m a v k hm
    obtain ⟨hin, hout⟩ := ih (m.writeLE a v k) (a + w) hw
    refine ⟨fun i j hi hj => ?_, fun b hb => ?_⟩
    · cases i with
      | zero =>
        rw [bulkStore, hout _ (.inl (by omega)), Memory.byte_writeLE m a v k hm]
        simp only [Nat.zero_mul, Nat.add_zero, Nat.add_sub_cancel_left, List.getD_cons_zero]
        by_cases h : j < k
        · rw [if_pos ⟨by omega, by omega⟩, if_pos h]
        · rw [if_neg (by omega), if_neg h]
      | succ i =>
        have hi' : i < vs.length := by simpa using hi
        rw [bulkStore, show a + (i + 1) * w + j = a + w + i * w + j by rw [Nat.succ_mul]; omega, hin i j hi' hj,
          Memory.byte_writeLE m a v k hm, List.getD_cons_succ]
        split
        · rfl
        · rw [if_neg]
          have := Nat.zero_le (i * w); omega
    · simp only [List.length_cons, Nat.succ_mul] at hb
      rw [bulkStore, hout b (by omega), Memory.byte_writeLE m a v k hm, if_neg]
      have := Nat.zero_le (vs.length * w); omega

end Sys2Proof.Machine
end

