-- ==== Sys2Proof/Laws/Stream.lean ====
section
/-! SUPPORT. What one element of an LZ77 stream can do, said once (`StreamStep`), what the match copy produces, and the
induction over a decompression (spec/41_lz77.md). -/
namespace Sys2Proof.Machine

/-! ### The match copy (R157, R158) -/

theorem copyByte_inside {position offset length : Nat} {out : List Byte} {j : Nat} (h : position + j < length) :
    copyByte position offset length out j = out ++ [out.getD (position - offset - 1 + j) 0] := by
  simp [copyByte, h]

theorem copyByte_outside {position offset length : Nat} {out : List Byte} {j : Nat} (h : length ≤ position + j) :
    copyByte position offset length out j = out := by simp [copyByte, Nat.not_lt.2 h]

theorem matchCopy_succ (position offset length n : Nat) (out : List Byte) :
    matchCopy position offset length (n + 1) out =
      copyByte position offset length (matchCopy position offset length n out) n := by
  simp [matchCopy, List.range_succ]

theorem getD_append_lt (l r : List Byte) (k : Nat) (d : Byte) (h : k < l.length) :
    (l ++ r).getD k d = l.getD k d := by
  simp [List.getD, List.getElem?_append_left h]

/-- The copy ends `copyLength` bytes later or at the declared length, keeps what was there, and each byte it wrote
equals the byte `offset + 1` before it. -/
theorem matchCopy_spec (position offset length n : Nat) (out : List Byte) (hout : out.length = position)
    (ho : offset < position) (hp : position ≤ length) :
    (matchCopy position offset length n out).length = min (position + n) length ∧
    (∀ k, k < position → (matchCopy position offset length n out).getD k 0 = out.getD k 0) ∧
    ∀ j, j < n → position + j < length → (matchCopy position offset length n out).getD (position + j) 0 =
      (matchCopy position offset length n out).getD (position + j - (offset + 1)) 0 := by
  induction n with
  | zero =>
    exact ⟨by simp only [matchCopy, List.range_zero, List.foldl_nil, hout]; omega, fun k _ => rfl,
      fun j hj => absurd hj (Nat.not_lt_zero j)⟩
  | succ n ih =>
    obtain ⟨hlen, hpre, hcopy⟩ := ih
    rw [matchCopy_succ]
    by_cases h : position + n < length
    · rw [copyByte_inside h]
      have hl : (matchCopy position offset length n out).length = position + n := by omega
      refine ⟨by rw [List.length_append, hl, List.length_singleton]; omega, fun k hk => ?_, fun j hj hjl => ?_⟩
      · rw [getD_append_lt _ _ _ _ (by omega), hpre k hk]
      · rw [getD_append_lt _ _ (position + j - (offset + 1)) _ (by omega)]
        by_cases hjn : j < n
        · rw [getD_append_lt _ _ _ _ (by omega), hcopy j hjn hjl]
        · have hj' : j = n := by omega
          subst hj'
          rw [show position + j - (offset + 1) = position - offset - 1 + j by omega]
          simp [List.getD, hl]
    · rw [copyByte_outside (by omega)]
      exact ⟨by omega, hpre, fun j hj hjl => hcopy j (by omega) hjl⟩

/-! ### Delivery -/

@[simp] theorem deliver_params (c : Consumer) (bs : List Byte) (b : Bool) (s : State) :
    (deliver c bs b s).params = s.params := by cases c <;> rfl

@[simp] theorem deliver_rom (c : Consumer) (bs : List Byte) (b : Bool) (s : State) :
    (deliver c bs b s).rom = s.rom := by cases c <;> rfl

@[simp] theorem deliver_cursor (c : Consumer) (bs : List Byte) (b : Bool) (s : State) :
    (deliver c bs b s).cursor = s.cursor := by cases c <;> rfl

@[simp] theorem deliver_inbox (c : Consumer) (bs : List Byte) (b : Bool) (s : State) :
    (deliver c bs b s).inbox = s.inbox := by cases c <;> rfl

@[simp] theorem deliver_work (c : Consumer) (bs : List Byte) (b : Bool) (s : State) :
    (deliver c bs b s).work = none := by cases c <;> rfl

@[simp] theorem statusErr_deliver (c : Consumer) (bs : List Byte) (b : Bool) (s : State) :
    statusErr (deliver c bs b s).status = 0 := by cases c <;> simp [deliver]

@[simp] theorem statusReserved_deliver (c : Consumer) (bs : List Byte) (b : Bool) (s : State) :
    statusReserved (deliver c bs b s).status = statusReserved s.status := by cases c <;> simp [deliver]

/-- Every delivery is a success response. -/
theorem deliver_response (c : Consumer) (bs : List Byte) (b : Bool) (s : State) :
    ∃ v d, (deliver c bs b s).response = some ⟨0, v, d⟩ := by cases c <;> exact ⟨_, _, rfl⟩

/-! ### One element -/

/-- The errors a decompression can raise (R167). -/
def streamErrors : List Error := [.outOfBounds, .invalidOpcode, .outputTooLarge, .invalidBackReference, .overrun]

/-- Everything one stream element can do: the decoder goes on with a new working state, or the decompression ends with
its bytes delivered, or it ends with an error. -/
inductive StreamStep (w : Lz77Work) (s : State) : State → Prop where
  | goes (w' : Lz77Work) (c : Nat) (forward : s.cursor.toNat < c) (inRom : c ≤ s.params.romSize.toNat)
      (consumer : w'.consumer = w.consumer) (phase : w'.phase ≠ .header)
      (length : w.phase ≠ .header → w'.length = w.length)
      (sound : w.sound s.params.bufCap.val = true → w'.sound s.params.bufCap.val = true) :
      StreamStep w s ((s.moveCursor c).setWork w')
  | ends (bytes : List Byte) (c : Nat) (forward : s.cursor.toNat < c) (inRom : c ≤ s.params.romSize.toNat)
      (length : w.phase ≠ .header → w.sound s.params.bufCap.val = true → bytes.length = w.length.toNat)
      (capacity : w.sound s.params.bufCap.val = true →
        bytes.length ≤ s.params.bufCap.val ∧ bytes.length < 4294967296) :
      StreamStep w s (deliver w.consumer bytes true (s.moveCursor c))
  | fails (e : Error) (info : Word) (c : Nat) (forward : s.cursor.toNat ≤ c)
      (inRom : s.cursor.toNat ≤ s.params.romSize.toNat → c ≤ s.params.romSize.toNat) (error : e ∈ streamErrors) :
      StreamStep w s ((s.moveCursor c).raise e info)

theorem sound_group {cap : Nat} {w : Lz77Work} (h : w.phase = .group) :
    w.sound cap = true ↔ w.position < w.length.toNat ∧ w.out.length = w.position ∧ w.length.toNat ≤ cap := by
  simp [Lz77Work.sound, h, and_assoc]

theorem sound_item {cap : Nat} {w : Lz77Work} (h : w.phase = .item) :
    w.sound cap = true ↔ w.position ≤ w.length.toNat ∧ w.out.length = w.position ∧ w.length.toNat ≤ cap := by
  simp [Lz77Work.sound, h, and_assoc]

theorem streamEnds_step (w : Lz77Work) (s : State) : StreamStep w s (streamEnds s) :=
  .fails _ _ _ (Nat.le_max_left ..) (fun h => Nat.max_le.2 ⟨h, Nat.le_refl _⟩) (by simp [streamErrors])

/-- The loop condition, on a working state whose output is the bytes below `position` or is full. -/
theorem mainLoop_step {w v : Lz77Work} {s : State} {c : Nat} (hc : s.cursor.toNat < c)
    (hr : c ≤ s.params.romSize.toNat) (hcons : v.consumer = w.consumer)
    (hlen : w.phase ≠ .header → v.length = w.length)
    (hv : w.sound s.params.bufCap.val = true →
      v.out.length = min v.position v.length.toNat ∧ v.length.toNat ≤ s.params.bufCap.val) :
    StreamStep w s (mainLoop v (s.moveCursor c)) := by
  unfold mainLoop
  split
  · refine .goes _ c hc hr hcons (by simp) hlen fun h => (sound_group rfl).2 ?_
    obtain ⟨h1, h2⟩ := hv h
    exact ⟨‹_›, by simpa only [] using (by omega : v.out.length = v.position), h2⟩
  · rw [hcons]
    refine .ends v.out c hc hr (fun hp h => ?_) fun h => ?_
    · obtain ⟨h1, _⟩ := hv h; rw [← hlen hp]; omega
    · obtain ⟨h1, h2⟩ := hv h; have := v.length.isLt; omega

theorem afterItem_step {w v : Lz77Work} {s : State} {c : Nat} {leave : Bool} (hc : s.cursor.toNat < c)
    (hr : c ≤ s.params.romSize.toNat) (hcons : v.consumer = w.consumer)
    (hlen : w.phase ≠ .header → v.length = w.length)
    (hv : w.sound s.params.bufCap.val = true →
      v.out.length = min v.position v.length.toNat ∧ v.length.toNat ≤ s.params.bufCap.val) :
    StreamStep w s (afterItem leave v (s.moveCursor c)) := by
  unfold afterItem
  split
  · exact mainLoop_step hc hr hcons hlen hv
  · rename_i h
    simp only [Bool.or_eq_true, decide_eq_true_eq, not_or] at h
    refine .goes _ c hc hr hcons (by simp) hlen fun hw => (sound_item rfl).2 ?_
    obtain ⟨h1, h2⟩ := hv hw
    exact ⟨by simp only []; omega, by simp only []; omega, h2⟩

theorem takeHeader_step {n : Nat} {l : Word} {w : Lz77Work} {s : State} (hn : 0 < n) (hw : w.phase = .header) :
    StreamStep w s (takeHeader n l w s) := by
  unfold takeHeader consume
  split
  · have hb := inBounds_eq_true.1 ‹_›
    simp only []
    by_cases hcap : s.params.bufCap.val < l.toNat
    · rw [if_pos hcap]; exact .fails _ _ _ (by omega) (fun _ => hb) (by simp [streamErrors])
    · rw [if_neg hcap]
      exact mainLoop_step (by omega) hb rfl (fun h => absurd hw h) fun _ => ⟨by simp, by simp only []; omega⟩
  · exact streamEnds_step w s

theorem takeFlags_step {f : Byte} {w : Lz77Work} {s : State} (hw : w.phase = .group) :
    StreamStep w s (takeFlags f w s) := by
  unfold takeFlags consume
  split
  · have hb := inBounds_eq_true.1 ‹_›
    refine .goes _ _ (by omega) hb rfl (by simp) (fun _ => rfl) fun h => (sound_item rfl).2 ?_
    obtain ⟨h1, h2, h3⟩ := (sound_group hw).1 h
    exact ⟨Nat.le_of_lt h1, h2, h3⟩
  · exact streamEnds_step w s

theorem takeLiteral_step {x : Byte} {w : Lz77Work} {s : State} (hw : w.phase = .item) :
    StreamStep w s (takeLiteral x w s) := by
  unfold takeLiteral consume
  split
  · have hb := inBounds_eq_true.1 ‹_›
    split
    · refine afterItem_step (by omega) hb rfl (fun _ => rfl) fun h => ?_
      obtain ⟨h1, h2, h3⟩ := (sound_item hw).1 h
      exact ⟨by simp only [List.length_append, List.length_singleton]; omega, h3⟩
    · refine afterItem_step (by omega) hb rfl (fun _ => rfl) fun h => ?_
      obtain ⟨h1, h2, h3⟩ := (sound_item hw).1 h
      exact ⟨by omega, h3⟩
  · exact streamEnds_step w s

theorem takeRef_step {len : BitVec 4} {offset : BitVec 12} {w : Lz77Work} {s : State} (hw : w.phase = .item) :
    StreamStep w s (takeRef len offset w s) := by
  unfold takeRef consume
  split
  · have hb := inBounds_eq_true.1 ‹_›
    simp only []
    by_cases hoff : w.position ≤ offset.toNat
    · rw [if_pos hoff]; exact .fails _ _ _ (by omega) (fun _ => hb) (by simp [streamErrors])
    · rw [if_neg hoff]
      by_cases hover : s.params.overrun = .fault ∧ w.length.toNat < w.position + (len.toNat + 3)
      · rw [if_pos hover]; exact .fails _ _ _ (by omega) (fun _ => hb) (by simp [streamErrors])
      · rw [if_neg hover]
        refine afterItem_step (by omega) hb rfl (fun _ => rfl) fun h => ?_
        obtain ⟨h1, h2, h3⟩ := (sound_item hw).1 h
        exact ⟨(matchCopy_spec w.position offset.toNat w.length.toNat _ w.out h2 (by omega) h1).1, h3⟩
  · exact streamEnds_step w s

/-! ### Fetching -/

/-- The decoder reads an element of the kind it expects. -/
theorem decodeElement_expect {x : Expect} {bs : List Byte} {e : Element} (h : decodeElement x bs = .ok e) :
    elementExpect e = x := by
  unfold decodeElement decodeLength at h
  repeat' split at h
  all_goals first | cases h; rfl | cases h

theorem nextExpect_header {w : Lz77Work} : nextExpect w = .header ↔ w.phase = .header := by
  unfold nextExpect; split <;> simp_all; split <;> simp

theorem nextExpect_flags {w : Lz77Work} : nextExpect w = .flags ↔ w.phase = .group := by
  unfold nextExpect; split <;> simp_all; split <;> simp

theorem nextExpect_literal {w : Lz77Work} :
    nextExpect w = .literal ↔ w.phase = .item ∧ w.flags.getLsbD w.bit.val = false := by
  unfold nextExpect; split <;> simp_all

theorem nextExpect_backRef {w : Lz77Work} :
    nextExpect w = .backRef ↔ w.phase = .item ∧ w.flags.getLsbD w.bit.val = true := by
  unfold nextExpect; split <;> simp_all

/-- An element that is expected is one `StreamStep`. -/
theorem takeElement_step {e : Element} {w : Lz77Work} {s : State} (h : elementExpect e = nextExpect w) :
    StreamStep w s (takeElement e w s) := by
  cases e with
  | hdr l3 => exact takeHeader_step (by omega) (nextExpect_header.1 h.symm)
  | hdrx l4 => exact takeHeader_step (by omega) (nextExpect_header.1 h.symm)
  | flags f => exact takeFlags_step (nextExpect_flags.1 h.symm)
  | lit b => exact takeLiteral_step (nextExpect_literal.1 h.symm).1
  | ref len offset => exact takeRef_step (nextExpect_backRef.1 h.symm).1

theorem streamBytes_length (s : State) :
    (streamBytes s).length = min 8 (s.params.romSize.toNat - s.cursor.toNat) := Memory.length_bytes ..

theorem streamRejects_step {w : Lz77Work} {s : State} {r : Reject} (h : fetchElement w s = .error r) :
    StreamStep w s (streamRejects r s) := by
  cases r with
  | badMarker =>
    have hpos : s.cursor.toNat < s.params.romSize.toNat := by
      rcases Nat.lt_or_ge s.cursor.toNat s.params.romSize.toNat with h' | h'
      · exact h'
      · have hnil : streamBytes s = [] := List.eq_nil_of_length_eq_zero (by rw [streamBytes_length]; omega)
        unfold fetchElement at h; rw [hnil] at h
        unfold decodeElement at h; split at h <;> cases h
    exact .fails _ _ _ (by omega) (fun _ => hpos) (by simp [streamErrors])
  | _ => exact streamEnds_step w s

/-- Everything one step of a decompression can do. -/
theorem elementStep_cases {s : State} {w : Lz77Work} (h : s.work = some w) : StreamStep w s (elementStep s) := by
  unfold elementStep; rw [h]
  simp only []
  split
  · exact takeElement_step (decodeElement_expect ‹_›)
  · exact streamRejects_step ‹_›

theorem elementStep_none {s : State} (h : s.work = none) : elementStep s = s := by
  unfold elementStep; rw [h]

/-! ### Induction over a decompression -/

/-- What every element keeps, a decompression keeps. -/
theorem drain_induct (P : State → Prop) (step : ∀ s w, s.work = some w → P s → P (elementStep s)) (n : Nat)
    (s : State) (h : P s) : P (drain n s) := by
  induction n generalizing s with
  | zero =>
    unfold drain
    cases hw : s.work with
    | none => rw [elementStep_none hw]; exact h
    | some w => exact step s w hw h
  | succ n ih =>
    unfold drain
    cases hw : s.work with
    | none => exact h
    | some w => exact ih _ (step s w hw h)

/-- What two decompressions keep element by element between them, they keep to the end. -/
theorem drain_induct₂ (R : State → State → Prop)
    (same : ∀ s s', R s s' → s'.work = s.work)
    (step : ∀ s s' w, s.work = some w → R s s' → R (elementStep s) (elementStep s')) (n : Nat) (s s' : State)
    (h : R s s') : R (drain n s) (drain n s') := by
  induction n generalizing s s' with
  | zero =>
    unfold drain
    cases hw : s.work with
    | none => rw [elementStep_none hw, elementStep_none ((same s s' h).trans hw)]; exact h
    | some w => exact step s s' w hw h
  | succ n ih =>
    unfold drain
    rw [same s s' h]
    cases hw : s.work with
    | none => exact h
    | some w => exact ih _ _ (step s s' w hw h)

theorem drain_none {n : Nat} {s : State} (h : s.work = none) : drain n s = s := by
  cases n with
  | zero => exact elementStep_none h
  | succ n => unfold drain; rw [h]

theorem drain_succ {n : Nat} {s : State} {w : Lz77Work} (h : s.work = some w) :
    drain (n + 1) s = drain n (elementStep s) := by
  conv => lhs; unfold drain
  rw [h]

/-- With as many steps as the ROM has bytes left, a decompression ends (R166). -/
theorem drain_work (n : Nat) (s : State) (h : s.params.romSize.toNat - s.cursor.toNat ≤ n) :
    (drain n s).work = none := by
  induction n generalizing s with
  | zero =>
    unfold drain
    cases hw : s.work with
    | none => rw [elementStep_none hw]; exact hw
    | some w =>
      have hs := elementStep_cases hw
      generalize elementStep s = t at hs ⊢
      cases hs with
      | goes w' c hc hr => omega
      | ends bytes c => simp
      | fails e info c => rfl
  | succ n ih =>
    cases hw : s.work with
    | none => rw [drain_none hw]; exact hw
    | some w =>
      rw [drain_succ hw]
      have hs := elementStep_cases hw
      generalize elementStep s = t at hs ⊢
      cases hs with
      | goes w' c hc hr =>
        have hsize : s.params.romSize.toNat < 4294967296 := s.params.romSize.isLt
        refine ih _ ?_
        simp only [State.setWork_params, State.moveCursor_params, State.setWork_cursor, State.moveCursor_cursor,
          BitVec.toNat_ofNat]
        omega
      | ends bytes c => rw [drain_none] <;> simp
      | fails e info c => rw [drain_none] <;> rfl

end Sys2Proof.Machine
end

