-- ==== Sys2Proof/Laws/Decompression.lean ====
section
/-! SUPPORT. Everything a decompression and a load can do, said once (`Decompressed`, `Loaded`): later proofs split on
the cases and never unfold the decoder (spec/41_lz77.md R150 to R167, spec/42_palette.md R191). -/
namespace Sys2Proof.Machine

/-- Everything `Lz77(a)` can do for a command: the first byte is not in the ROM, or the bytes are delivered, or an error
ends it; in every case the state it began with is otherwise kept. -/
inductive Decompressed (consumer : Consumer) (s : State) (a : Word) : State → Prop where
  | unread (outside : s.params.romSize.toNat ≤ a.toNat) : Decompressed consumer s a (s.raise .outOfBounds a)
  | done (bytes : List Byte) (c : Nat) (forward : a.toNat < c) (inRom : c ≤ s.params.romSize.toNat)
      (capacity : bytes.length ≤ s.params.bufCap.val) (width : bytes.length < 4294967296) :
      Decompressed consumer s a (deliver consumer bytes true (s.moveCursor c))
  | failed (e : Error) (info : Word) (c : Nat) (forward : a.toNat ≤ c) (inRom : c ≤ s.params.romSize.toNat)
      (error : e ∈ streamErrors) : Decompressed consumer s a ((s.moveCursor c).raise e info)

/-- A decompression on its way, or one of its ends. -/
def Decompressing (consumer : Consumer) (s : State) (a : Word) (t : State) : Prop :=
  (∃ w c, t = (s.moveCursor c).setWork w ∧ w.consumer = consumer ∧ w.sound s.params.bufCap.val = true ∧
    a.toNat ≤ c ∧ c ≤ s.params.romSize.toNat) ∨ (t.work = none ∧ Decompressed consumer s a t)

theorem setWork_moveCursor_setWork (s : State) (c c' : Nat) (w w' : Lz77Work) :
    (((s.moveCursor c).setWork w).moveCursor c').setWork w' = (s.moveCursor c').setWork w' := rfl

theorem setWork_moveCursor_raise (s : State) (c c' : Nat) (w : Lz77Work) (e : Error) (info : Word) :
    (((s.moveCursor c).setWork w).moveCursor c').raise e info = (s.moveCursor c').raise e info := rfl

theorem setWork_moveCursor_deliver (s : State) (c c' : Nat) (w : Lz77Work) (consumer : Consumer) (bs : List Byte)
    (b : Bool) :
    deliver consumer bs b (((s.moveCursor c).setWork w).moveCursor c') = deliver consumer bs b (s.moveCursor c') := by
  cases consumer <;> rfl

theorem moveCursor_moveCursor (s : State) (c c' : Nat) : (s.moveCursor c).moveCursor c' = s.moveCursor c' := rfl

theorem elementStep_decompressing {consumer : Consumer} {s : State} {a : Word} {t : State} {w : Lz77Work}
    (hw : t.work = some w) (h : Decompressing consumer s a t) : Decompressing consumer s a (elementStep t) := by
  have hsize : s.params.romSize.toNat < 4294967296 := s.params.romSize.isLt
  rcases h with ⟨v, c, rfl, hcons, hsound, hac, hcr⟩ | ⟨hnone, _⟩
  · have hv : w = v := by simpa using hw.symm
    subst hv
    have hs := elementStep_cases hw
    have hcur : ((s.moveCursor c).setWork w).cursor.toNat = c := by
      simp only [State.setWork_cursor, State.moveCursor_cursor, BitVec.toNat_ofNat]; omega
    generalize elementStep ((s.moveCursor c).setWork w) = u at hs ⊢
    cases hs with
    | goes w' c' hc hr hcon _ _ hsnd =>
      rw [hcur] at hc
      exact .inl ⟨w', c', rfl, hcon.trans hcons, hsnd hsound, by omega, hr⟩
    | ends bytes c' hc hr _ hcap =>
      rw [hcur] at hc
      obtain ⟨h1, h2⟩ := hcap hsound
      refine .inr ⟨by simp, ?_⟩
      rw [setWork_moveCursor_deliver, hcons]
      exact .done bytes c' (by omega) hr h1 h2
    | fails e info c' hc hr he =>
      rw [hcur] at hc hr
      exact .inr ⟨rfl, .failed e info c' (by omega) (hr hcr) he⟩
  · rw [hnone] at hw; cases hw

/-- Everything `Lz77(a)` can do. -/
theorem lz77_cases (consumer : Consumer) (a : Word) (s : State) : Decompressed consumer s a (lz77 consumer a s) := by
  unfold lz77
  split
  · rename_i ha
    rw [inBounds_eq_true] at ha
    have hsize : s.params.romSize.toNat < 4294967296 := s.params.romSize.isLt
    have h0 : Decompressing consumer s a ((s.moveCursor a.toNat).setWork (freshWork consumer)) :=
      .inl ⟨_, _, rfl, rfl, rfl, Nat.le_refl _, by omega⟩
    have h := drain_induct (Decompressing consumer s a) (fun t w hw => elementStep_decompressing hw)
      (s.params.romSize.toNat - a.toNat) _ h0
    have hwork := drain_work (s.params.romSize.toNat - a.toNat)
      ((s.moveCursor a.toNat).setWork (freshWork consumer)) (by simp)
    rcases h with ⟨w, c, heq, -⟩ | ⟨-, h⟩
    · rw [heq] at hwork; cases hwork
    · exact h
  · rename_i ha
    rw [inBounds_eq_true] at ha
    exact .unread (by omega)

/-- Everything a load can do: the first byte is not in the ROM, or the compressed path, or one of the direct path's two
errors, or the bytes are copied. -/
inductive Loaded (consumer : Consumer) (a : Word) (n : Nat) (s : State) : State → Prop where
  | unread (outside : s.params.romSize.toNat ≤ a.toNat) : Loaded consumer a n s (s.raise .outOfBounds a)
  | compressed (inside : a.toNat < s.params.romSize.toNat) (marker : s.rom.byte a.toNat = 0x10#8) (t : State)
      (run : Decompressed consumer (s.moveCursor (a.toNat + 1)) a t) : Loaded consumer a n s t
  | tooLong (inside : a.toNat < s.params.romSize.toNat) (direct : s.rom.byte a.toNat ≠ 0x10#8)
      (range : s.params.romSize.toNat < a.toNat + n) :
      Loaded consumer a n s ((s.moveCursor (a.toNat + 1)).raise .outOfBounds a)
  | tooLarge (inside : a.toNat < s.params.romSize.toNat) (direct : s.rom.byte a.toNat ≠ 0x10#8)
      (range : a.toNat + n ≤ s.params.romSize.toNat) (capacity : s.params.bufCap.val < n) :
      Loaded consumer a n s ((s.moveCursor (a.toNat + 1)).raise .outputTooLarge (BitVec.ofNat 32 n))
  | copied (inside : a.toNat < s.params.romSize.toNat) (direct : s.rom.byte a.toNat ≠ 0x10#8)
      (range : a.toNat + n ≤ s.params.romSize.toNat) (capacity : n ≤ s.params.bufCap.val) :
      Loaded consumer a n s (deliver consumer (s.rom.bytes a.toNat n) false (s.moveCursor (a.toNat + n)))

/-- Everything a load can do. -/
theorem loadAsset_cases (consumer : Consumer) (a : Word) (n : Nat) (s : State) :
    Loaded consumer a n s (loadAsset consumer a n s) := by
  unfold loadAsset
  by_cases ha : a.toNat + 1 ≤ s.params.romSize.toNat
  · rw [if_pos (inBounds_eq_true.2 ha)]
    simp only []
    by_cases hm : s.rom.byte a.toNat = 0x10#8
    · rw [if_pos hm]; exact .compressed ha hm _ (lz77_cases ..)
    · rw [if_neg hm]
      by_cases hr : a.toNat + n ≤ s.params.romSize.toNat
      · rw [if_neg (by simp [inBounds_eq_true.2 hr])]
        by_cases hc : s.params.bufCap.val < n
        · rw [if_pos hc]; exact .tooLarge ha hm hr hc
        · rw [if_neg hc]; exact .copied ha hm hr (by omega)
      · rw [if_pos (by simp [inBounds_eq_false.2 (Nat.lt_of_not_le hr)])]
        exact .tooLong ha hm (by omega)
  · rw [if_neg (by simp [inBounds_eq_false.2 (Nat.lt_of_not_le ha)])]
    exact .unread (by omega)

end Sys2Proof.Machine
end

