-- ==== Sys2Proof/Laws/PerInstr.lean ====
section
/-! SUPPORT. A fact of every instruction as syntax, one lemma per constructor. -/
namespace Sys2Proof.Laws.EncodedForm

/-- A command is encoded as a record whose reserved bits are 0 and whose `A` bit is 0 unless it is an accessor; a
stream element is encoded as 1, 2, 4 or 8 bytes (spec/30_encoding.md R81, R82, R91 to R95). -/
def Statement (i : Instr) : Prop :=
  match encode i with
  | .record c =>
    i.isCommand = true ∧ reservedField c.cmd = 0 ∧ (i.accessRange = none → aField c.cmd = false)
  | .stream _ bytes =>
    i.isCommand = false ∧ (bytes.length = 1 ∨ bytes.length = 2 ∨ bytes.length = 4 ∨ bytes.length = 8)

theorem reserved_commandWord (op : Byte) (a : Bool) (depth : BitVec 2) :
    reservedField (commandWord op a depth) = 0 := by
  apply BitVec.eq_of_getLsbD_eq
  intro k hk
  simp only [reservedField, commandWord, BitVec.getLsbD_extractLsb']
  erw [BitVec.getLsbD_append, BitVec.getLsbD_append, BitVec.getLsbD_append]
  have h1 : ¬ (11 + k < 1 + 8) := by omega
  have h2 : ¬ (11 + k - (1 + 8) < 2) := by omega
  simp [h1, h2]

theorem a_commandWord (op : Byte) (a : Bool) (depth : BitVec 2) : aField (commandWord op a depth) = a := by
  unfold aField commandWord
  erw [BitVec.getLsbD_append, BitVec.getLsbD_append]
  simp

theorem reserved_accessorRecord (op : Byte) (start : Start) : reservedField (accessorRecord op start).cmd = 0 := by
  cases start <;> exact reserved_commandWord ..

theorem readU8 (start : Start) : Statement (.readU8 start) :=
  ⟨rfl, reserved_accessorRecord .., nofun⟩

theorem readU16 (start : Start) : Statement (.readU16 start) :=
  ⟨rfl, reserved_accessorRecord .., nofun⟩

theorem readU32 (start : Start) : Statement (.readU32 start) :=
  ⟨rfl, reserved_accessorRecord .., nofun⟩

theorem readPtr (start : Start) : Statement (.readPtr start) :=
  ⟨rfl, reserved_accessorRecord .., nofun⟩

theorem readU8N (start : Start) (count : Word) : Statement (.readU8N start count) :=
  ⟨rfl, reserved_accessorRecord .., nofun⟩

theorem readU16N (start : Start) (count : Word) : Statement (.readU16N start count) :=
  ⟨rfl, reserved_accessorRecord .., nofun⟩

theorem readU32N (start : Start) (count : Word) : Statement (.readU32N start count) :=
  ⟨rfl, reserved_accessorRecord .., nofun⟩

theorem writeU8 (start : Start) (value : Word) : Statement (.writeU8 start value) :=
  ⟨rfl, reserved_accessorRecord .., nofun⟩

theorem writeU16 (start : Start) (value : Word) : Statement (.writeU16 start value) :=
  ⟨rfl, reserved_accessorRecord .., nofun⟩

theorem writeU32 (start : Start) (value : Word) : Statement (.writeU32 start value) :=
  ⟨rfl, reserved_accessorRecord .., nofun⟩

theorem writeU8N (start : Start) (data : List Word) : Statement (.writeU8N start data) :=
  ⟨rfl, reserved_accessorRecord .., nofun⟩

theorem writeU16N (start : Start) (data : List Word) : Statement (.writeU16N start data) :=
  ⟨rfl, reserved_accessorRecord .., nofun⟩

theorem writeU32N (start : Start) (data : List Word) : Statement (.writeU32N start data) :=
  ⟨rfl, reserved_accessorRecord .., nofun⟩

theorem lz77Decompress (addr : Word) : Statement (.lz77Decompress addr) :=
  ⟨rfl, reserved_commandWord .., fun _ => a_commandWord ..⟩

theorem paletteLoad (addr count : Word) : Statement (.paletteLoad addr count) :=
  ⟨rfl, reserved_commandWord .., fun _ => a_commandWord ..⟩

theorem paletteGet (index : Word) : Statement (.paletteGet index) :=
  ⟨rfl, reserved_commandWord .., fun _ => a_commandWord ..⟩

theorem rgbUnpack (value : Word) : Statement (.rgbUnpack value) :=
  ⟨rfl, reserved_commandWord .., fun _ => a_commandWord ..⟩

theorem pixelLoad (addr count : Word) (depth : BitVec 2) : Statement (.pixelLoad addr count depth) :=
  ⟨rfl, reserved_commandWord .., fun _ => a_commandWord ..⟩

theorem pixelGet (index : Word) : Statement (.pixelGet index) :=
  ⟨rfl, reserved_commandWord .., fun _ => a_commandWord ..⟩

theorem readReg (reg : RegName) : Statement (.readReg reg) :=
  ⟨rfl, reserved_commandWord .., fun _ => a_commandWord ..⟩

theorem lz77Hdr (l3 : BitVec 24) : Statement (.lz77Hdr l3) := ⟨rfl, .inr (.inr (.inl rfl))⟩

theorem lz77Hdrx (l4 : Word) : Statement (.lz77Hdrx l4) := ⟨rfl, .inr (.inr (.inr rfl))⟩

theorem lz77Flags (f : Byte) : Statement (.lz77Flags f) := ⟨rfl, .inl rfl⟩

theorem lz77Lit (b : Byte) : Statement (.lz77Lit b) := ⟨rfl, .inl rfl⟩

theorem lz77Ref (len : BitVec 4) (offset : BitVec 12) : Statement (.lz77Ref len offset) := ⟨rfl, .inr (.inl rfl)⟩

end Sys2Proof.Laws.EncodedForm
end

