-- ==== Sys2Proof/Tests/Slice0.lean ====
section
/-! SUPPORT. The model's own tests: the well-formedness smoke test, words written out from spec/30_encoding.md, single
steps with the results of spec/95, and for every obligation with hypotheses a witness that meets them. -/
namespace Sys2Proof.Tests

open Sys2Proof Sys2Proof.Machine

/-! ### Small states and what a test looks at -/

/-- A reset block of `size` bytes whose ROM holds `bytes` at `offset` and 0 elsewhere. -/
def block (size : Word) (offset : Nat) (bytes : List Byte) : State :=
  State.afterReset { Params.default with romSize := size } (imageFrom offset bytes) []

/-- The image `EX` of spec/95. -/
def ex : State := block 0x108 0x100 [0x78, 0x56, 0x34, 0x12, 0xFF, 0xEE, 0xDD, 0x08]

/-- The image `Z64` of spec/95. -/
def z64 (bytes : List Byte) : State := block 0x40 0 bytes

/-- The exact image of spec/95. -/
def exact (bytes : List Byte) : State := block (BitVec.ofNat 32 bytes.length) 0 bytes

def atCursor (c : Word) (s : State) : State := { s with cursor := c }

def withCap (n : Fin 4294967297) (s : State) : State := { s with params := { s.params with bufCap := n } }

def faulting (s : State) : State := { s with params := { s.params with overrun := .fault } }

def legacyWrites (s : State) : State := { s with params := { s.params with bulkWrite := .legacyByte } }

def legacyPixels (s : State) : State := { s with params := { s.params with pixel := .legacy } }

/-- A block that holds one palette entry, the word 0x7FFF. -/
def paletteOne : State := { ex with palBuf := [0xFF, 0x7F], palLen := 2 }

/-- A block that holds the plane `A5 3C` at a depth. -/
def planeTwo (depth : BitVec 2) : State := { ex with pixBuf := [0xA5, 0x3C], pixLen := 2, pixDepth := depth }

/-- A decoder inside the group of one flag byte, with `out` produced so far, at address 0x100 of `EX`. -/
def inGroup (flags : Byte) (bit : Fin 8) (length : Word) (out : List Byte) : Lz77Work where
  consumer := .response
  phase := .item
  length := length
  position := out.length
  flags := flags
  bit := bit
  out := out

/-- `EX` with a decoder that has read up to address 0x100. -/
def running (w : Lz77Work) : State := { atCursor 0x100 ex with work := some w }

/-- A record with one operand of each kind. -/
def record (cmd addr count value index : Word) (data : List Word) : Command :=
  { cmd := cmd, addr := addr, count := count, value := value, index := index, data := data }

/-- The next state. -/
def after (o : Host.Outcome State Fault Refusal) : Option State :=
  match o with
  | .next t => some t
  | .fault _ => none
  | .refused _ => none

/-- What a command answers: ERR, VALUE, DATA, and the cursor it leaves. -/
def answer (o : Host.Outcome State Fault Refusal) : Option (Response × Word) :=
  match after o with
  | some t => t.response.map (fun r => (r, t.cursor))
  | none => none

/-- The eight bytes of `EX` at 0x100, after. -/
def bytesAfter (o : Host.Outcome State Fault Refusal) : Option (List Byte) :=
  (after o).map (fun t => t.rom.bytes 0x100 8)

/-- A decoded instruction, by name, or `none` where the decoder rejects. -/
def decoded (c : Command) : Option Instr := (decode c).toOption

/-! ### Well-formedness: an ill-formed term for each check -/

theorem test_wf_short_header_of_zero : Instr.wellFormed (.lz77Hdr 0) = false := by decide

theorem test_wf_short_header : Instr.wellFormed (.lz77Hdr 1) = true := by decide

theorem test_wf_data_too_long (start : Start) :
    Instr.wellFormed (.writeU8N start (List.replicate 4294967296 0)) = false ∧
    Instr.wellFormed (.writeU16N start (List.replicate 4294967296 0)) = false ∧
    Instr.wellFormed (.writeU32N start (List.replicate 4294967296 0)) = false := by
  simp only [Instr.wellFormed, dataFits, List.length_replicate]
  decide

/-! ### Words written out from R81, R85 and R86 of spec/30_encoding.md, one per constructor -/

theorem test_decode_readU8 :
    decoded (record 0b00000000000000000000000100000001 0x10 0 0 0 []) = some (.readU8 (.addressed 0x10)) := by decide

theorem test_decode_readU16 :
    decoded (record 0b00000000000000000000000000000010 0x10 0 0 0 []) = some (.readU16 .atCursor) := by decide

theorem test_decode_readU32 :
    decoded (record 0b00000000000000000000000100000011 0x10 0 0 0 []) = some (.readU32 (.addressed 0x10)) := by decide

theorem test_decode_readPtr :
    decoded (record 0b00000000000000000000000000000100 0x10 0 0 0 []) = some (.readPtr .atCursor) := by decide

theorem test_decode_readU8N :
    decoded (record 0b00000000000000000000000100000101 0x10 3 0 0 []) =
      some (.readU8N (.addressed 0x10) 3) := by decide

theorem test_decode_readU16N :
    decoded (record 0b00000000000000000000000000000110 0x10 3 0 0 []) = some (.readU16N .atCursor 3) := by decide

theorem test_decode_readU32N :
    decoded (record 0b00000000000000000000000100000111 0x10 3 0 0 []) =
      some (.readU32N (.addressed 0x10) 3) := by decide

theorem test_decode_writeU8 :
    decoded (record 0b00000000000000000000000000001001 0x10 0 7 0 []) = some (.writeU8 .atCursor 7) := by decide

theorem test_decode_writeU16 :
    decoded (record 0b00000000000000000000000100001010 0x10 0 7 0 []) =
      some (.writeU16 (.addressed 0x10) 7) := by decide

theorem test_decode_writeU32 :
    decoded (record 0b00000000000000000000000000001011 0x10 0 7 0 []) = some (.writeU32 .atCursor 7) := by decide

theorem test_decode_writeU8N :
    decoded (record 0b00000000000000000000000100001101 0x10 2 0 0 [1, 2]) =
      some (.writeU8N (.addressed 0x10) [1, 2]) := by decide

theorem test_decode_writeU16N :
    decoded (record 0b00000000000000000000000000001110 0x10 1 0 0 [5]) =
      some (.writeU16N .atCursor [5]) := by decide

theorem test_decode_writeU32N :
    decoded (record 0b00000000000000000000000100001111 0x10 0 0 0 []) =
      some (.writeU32N (.addressed 0x10) []) := by decide

theorem test_decode_lz77Decompress :
    decoded (record 0b00000000000000000000000000010000 0x10 0 0 0 []) = some (.lz77Decompress 0x10) := by decide

theorem test_decode_paletteLoad :
    decoded (record 0b00000000000000000000000000100000 0x10 4 0 0 []) = some (.paletteLoad 0x10 4) := by decide

theorem test_decode_paletteGet :
    decoded (record 0b00000000000000000000000000100001 0 0 0 9 []) = some (.paletteGet 9) := by decide

theorem test_decode_rgbUnpack :
    decoded (record 0b00000000000000000000000000100010 0 0 0x7FFF 0 []) = some (.rgbUnpack 0x7FFF) := by decide

theorem test_decode_pixelLoad :
    decoded (record 0b00000000000000000000001000110000 0x10 4 0 0 []) = some (.pixelLoad 0x10 4 1) ∧
    decoded (record 0b00000000000000000000010000110000 0x10 4 0 0 []) = some (.pixelLoad 0x10 4 2) := by decide

theorem test_decode_pixelGet :
    decoded (record 0b00000000000000000000000000110001 0 0 0 9 []) = some (.pixelGet 9) := by decide

theorem test_decode_readReg :
    decoded (record 0b00000000000000000000000001000000 0 0 0 4 []) = some (.readReg .pixDepth) := by decide

/-- R91 to R95: the stream elements, byte by byte. The last is `REF 18, 0x523`: `v` = 1111 0101, `e` = 0010 0011. -/
theorem test_decode_elements :
    (decodeElement .header [0x10, 0x12, 0x34, 0x56, 0xFF]).toOption = some (.hdr 0x563412) ∧
    (decodeElement .header [0x10, 0, 0, 0, 0x12, 0x34, 0x56, 0x78]).toOption = some (.hdrx 0x78563412) ∧
    (decodeElement .flags [0b01000000, 0xFF]).toOption = some (.flags 0x40) ∧
    (decodeElement .literal [0x41, 0xFF]).toOption = some (.lit 0x41) ∧
    (decodeElement .backRef [0b11110101, 0b00100011]).toOption = some (.ref 0xF 0x523) := by decide

/-- SYS-1 to SYS-8 of spec/95: every kind of illegal command. -/
theorem test_decode_illegal :
    decoded (record 0x00000000 0 0 0 0 []) = none ∧ decoded (record 0x00000008 0 0 0 0 []) = none ∧
    decoded (record 0x0000000C 0 0 0 0 []) = none ∧ decoded (record 0x00000110 0 0 0 0 []) = none ∧
    decoded (record 0x00000201 0 0 0 0 []) = none ∧ decoded (record 0x00000801 0 0 0 0 []) = none ∧
    decoded (record 0x0000000D 0 2 0 0 [1]) = none ∧ decoded (record 0x00000040 0 0 0 7 []) = none := by decide

/-! ### Single steps, with the results of spec/95 -/

/-- AC-1, AC-3. -/
theorem test_readU8 :
    answer (exec (.readU8 (.addressed 0x107)) ex) = some (⟨0, 0x08, []⟩, 0x108) ∧
    answer (exec (.readU8 .atCursor) (atCursor 0x108 ex)) = some (⟨1, 0x108, []⟩, 0x108) := by decide

/-- AC-5, AC-4. -/
theorem test_readU16 :
    answer (exec (.readU16 (.addressed 0x105)) ex) = some (⟨0, 0xDDEE, []⟩, 0x107) ∧
    answer (exec (.readU16 (.addressed 0x107)) ex) = some (⟨1, 0x107, []⟩, 0) := by decide

/-- AC-6, AC-8. -/
theorem test_readU32 :
    answer (exec (.readU32 (.addressed 0x101)) ex) = some (⟨0, 0xFF123456, []⟩, 0x105) ∧
    answer (exec (.readU32 (.addressed 0x105)) (atCursor 0x50 ex)) = some (⟨1, 0x105, []⟩, 0x50) := by decide

/-- AC-9, AC-10. -/
theorem test_readPtr :
    answer (exec (.readPtr (.addressed 0x100)) ex) = some (⟨0, 0x00345678, []⟩, 0x104) ∧
    answer (exec (.readPtr (.addressed 0x104)) ex) = some (⟨0, 0x00DDEEFF, []⟩, 0x108) := by decide

/-- AC-11, AC-13. -/
theorem test_readU8N :
    answer (exec (.readU8N (.addressed 0x108) 0) (atCursor 7 ex)) = some (⟨0, 0, []⟩, 0x108) ∧
    answer (exec (.readU8N (.addressed 0x100) 9) ex) = some (⟨1, 0x100, []⟩, 0) := by decide

/-- AC-14. -/
theorem test_readU16N :
    answer (exec (.readU16N (.addressed 0x101) 3) ex) = some (⟨0, 3, [0x3456, 0xFF12, 0xDDEE]⟩, 0x107) := by decide

/-- AC-15: the end address is compared without wrap. -/
theorem test_readU32N :
    answer (exec (.readU32N (.addressed 0xFFFFFFFC) 0x40000001) ex) = some (⟨1, 0xFFFFFFFC, []⟩, 0) := by decide

/-- AC-16. -/
theorem test_writeU8 :
    bytesAfter (exec (.writeU8 .atCursor 0xFFFFFF00) (atCursor 0x107 ex)) =
      some [0x78, 0x56, 0x34, 0x12, 0xFF, 0xEE, 0xDD, 0x00] := by decide

/-- AC-17: nothing is written. -/
theorem test_writeU16 :
    bytesAfter (exec (.writeU16 (.addressed 0x107) 0x1111) ex) =
      some [0x78, 0x56, 0x34, 0x12, 0xFF, 0xEE, 0xDD, 0x08] ∧
    answer (exec (.writeU16 (.addressed 0x107) 0x1111) ex) = some (⟨1, 0x107, []⟩, 0) := by decide

/-- AC-18. -/
theorem test_writeU32 :
    bytesAfter (exec (.writeU32 (.addressed 0x103) 0xA1B2C3D4) ex) =
      some [0x78, 0x56, 0x34, 0xD4, 0xC3, 0xB2, 0xA1, 0x08] := by decide

/-- AC-19. -/
theorem test_writeU8N :
    bytesAfter (exec (.writeU8N (.addressed 0x106) [1, 2, 3]) ex) =
      some [0x78, 0x56, 0x34, 0x12, 0xFF, 0xEE, 0xDD, 0x08] := by decide

/-- AC-20, AC-21. -/
theorem test_writeU16N :
    bytesAfter (exec (.writeU16N (.addressed 0x103) [0x1122, 0x3344]) ex) =
      some [0x78, 0x56, 0x34, 0x22, 0x11, 0x44, 0x33, 0x08] ∧
    bytesAfter (exec (.writeU16N (.addressed 0x103) [0x1122, 0x3344]) (legacyWrites ex)) =
      some [0x78, 0x56, 0x34, 0x22, 0xFF, 0x44, 0xDD, 0x08] := by decide

/-- AC-22. -/
theorem test_writeU32N :
    bytesAfter (exec (.writeU32N (.addressed 0x104) [0xDEADBEEF]) (legacyWrites ex)) =
      some [0x78, 0x56, 0x34, 0x12, 0xEF, 0xEE, 0xDD, 0x08] := by decide

/-- LZ-8 in both modes. -/
theorem test_lz77Decompress_overrun :
    answer (exec (.lz77Decompress 0) (exact [0x10, 4, 0, 0, 0x40, 0x41, 0x30, 0])) =
      some (⟨0, 4, [0x41, 0x41, 0x41, 0x41]⟩, 8) ∧
    answer (exec (.lz77Decompress 0) (faulting (exact [0x10, 4, 0, 0, 0x40, 0x41, 0x30, 0]))) =
      some (⟨6, 6, []⟩, 8) := by decide

/-- LZ-12: the pad the group still reads is past the end of the ROM. -/
theorem test_lz77Decompress_no_pad :
    answer (exec (.lz77Decompress 0) (exact [0x10, 4, 0, 0, 0, 0x41, 0x42, 0x43, 0x44])) =
      some (⟨1, 9, []⟩, 9) := by decide

/-- PAL-13, PAL-16: the first byte is read, then the range is checked without wrap. -/
theorem test_paletteLoad :
    answer (exec (.paletteLoad 0x106 2) ex) = some (⟨1, 0x106, []⟩, 0x107) ∧
    answer (exec (.paletteLoad 0x100 0x80000000) ex) = some (⟨1, 0x100, []⟩, 0x101) := by decide

/-- SRC-2 with the source's own formula, and the first entry past the end. -/
theorem test_paletteGet :
    answer (exec (.paletteGet 0) paletteOne) = some (⟨0, 0x00F8F8F8, []⟩, 0) ∧
    answer (exec (.paletteGet 1) paletteOne) = some (⟨1, 1, []⟩, 0) := by decide

/-- PAL-9, PAL-6. -/
theorem test_rgbUnpack :
    answer (exec (.rgbUnpack 0x1234) (atCursor 0x55 ex)) = some (⟨0, 0x00A08820, []⟩, 0x55) ∧
    answer (exec (.rgbUnpack 0x8000) ex) = some (⟨0, 0, []⟩, 0) := by decide

/-- PIX-11: the compressed path, `COUNT` ignored. -/
theorem test_pixelLoad :
    answer (exec (.pixelLoad 0 9 0) (exact [0x10, 1, 0, 0, 0, 0x96, 0])) = some (⟨0, 1, []⟩, 7) := by decide

/-- PIX-2 and PIX-6 at pixel 3, and PIX-1 past the end. -/
theorem test_pixelGet :
    answer (exec (.pixelGet 3) (planeTwo 1)) = some (⟨0, 2, []⟩, 0) ∧
    answer (exec (.pixelGet 3) (legacyPixels (planeTwo 1))) = some (⟨0, 0x28, []⟩, 0) ∧
    answer (exec (.pixelGet 16) (planeTwo 0)) = some (⟨1, 16, []⟩, 0) := by decide

/-- SYS-9, SYS-11. -/
theorem test_readReg :
    answer (exec (.readReg .romSize) ex) = some (⟨0, 0x108, []⟩, 0) ∧
    answer (exec (.readReg .config) (faulting (legacyPixels (legacyWrites ex)))) = some (⟨0, 7, []⟩, 0) := by decide

/-- LZ-13, LZ-6: the header's own ends. -/
theorem test_headers :
    answer (exec (.lz77Hdr 4) { withCap 3 (z64 [0x10, 4]) with work := some (freshWork .response) }) =
      some (⟨5, 4, []⟩, 4) ∧
    answer (exec (.lz77Hdrx 0) { z64 [0x10] with work := some (freshWork .response) }) = some (⟨0, 0, []⟩, 8) := by
  decide

/-- R155: after a flag byte, bit 7 governs the first item. -/
theorem test_flags :
    (after (exec (.lz77Flags 0x80) (running { inGroup 0 0 4 [] with phase := .group }))).map
      (fun t => t.work.map nextExpect) = some (some .backRef) := by decide

/-- LZ-9: a nonzero pad is dropped, a zero pad ends the block. -/
theorem test_pads :
    answer (exec (.lz77Lit 0) (running (inGroup 0 6 1 [0x41]))) = some (⟨0, 1, [0x41]⟩, 0x101) ∧
    (after (exec (.lz77Lit 0xFF) (running (inGroup 0 6 1 [0x41])))).map (fun t => t.work) =
      some (some (inGroup 0 5 1 [0x41])) := by decide

/-- LZ-2: a copy that overlaps itself, and LZ-4: an offset equal to the position. -/
theorem test_refs :
    (after (exec (.lz77Ref 1 1) (running (inGroup 0x20 5 6 [0x41, 0x42])))).map (fun t => t.work.map (·.out)) =
      some (some [0x41, 0x42, 0x41, 0x42, 0x41, 0x42]) ∧
    answer (exec (.lz77Ref 0 1) (running (inGroup 0x40 6 4 [0x41]))) = some (⟨3, 0x100, []⟩, 0x102) := by decide

/-- An element the decoder does not read is refused by name (log 7). -/
theorem test_element_out_of_place : after (exec (.lz77Lit 0) ex) = none ∧
    after (exec (.lz77Flags 0) (running (inGroup 0 7 4 []))) = none := by decide

/-- SYS-15, SYS-16 at the interface: an illegal command changes only `STATUS.ERR`, and a host reset clears it. -/
theorem test_step_illegal_then_reset :
    answer (step { atCursor 0x104 ex with inbox := [.issue (record 0x55 0 0 0 0 [])] }) =
      some (⟨4, 0, []⟩, 0x104) ∧
    (after (step { ex with status := 4, inbox := [.reset none] })).map (·.status) = some 0 := by decide

/-- The host's aid: the word is the very next instruction. -/
theorem test_withFetchWord :
    answer (step (State.reset.withFetchWord 32 0x101)) = some (⟨0, 0, []⟩, 1) ∧
    decodeTableWord 32 0x101 = some (.readU8 (.addressed 0)) ∧
    decodeTableWord 32 0x56341210 = some (.lz77Hdr 0x563412) ∧
    decodeTableWord 16 0xF523 = some (.lz77Ref 0xF 0x523) := by decide

/-! ### Witnesses: for every obligation with hypotheses, values that meet them, clause by clause, at the boundaries -/

theorem witness_SpecWordsDecode :
    (record 0x102 0 0 0 0 []).cmd = 0b00000000000000000000000100000010#32 ∧
    (record 0x009 0 0 0 0 []).cmd = 0b00000000000000000000000000001001#32 ∧
    (record 0x010 0 0 0 0 []).cmd = 0b00000000000000000000000000010000#32 ∧
    (record 0x021 0 0 0 0 []).cmd = 0b00000000000000000000000000100001#32 ∧
    (record 0x430 0 0 0 0 []).cmd = 0b00000000000000000000010000110000#32 ∧
    (record 0x040 0 0 0 4 []).cmd = 0b00000000000000000000000001000000#32 ∧
    (record 0x040 0 0 0 4 []).index = 4 := by decide

theorem witness_DecodeOfEncode :
    Instr.wellFormed (.writeU32N (.addressed 0xFFFFFFFF) [0xFFFFFFFF]) = true ∧
    Instr.wellFormed (.lz77Hdr 0xFFFFFF) = true ∧ Instr.wellFormed (.lz77Hdrx 0) = true := by decide

theorem witness_ElementDecodesBeforeMoreBytes :
    (elementInstr (.hdr 1)).wellFormed = true ∧ (elementInstr (.hdrx 0)).wellFormed = true ∧
    (elementInstr (.ref 0xF 0xFFF)).wellFormed = true := by decide

theorem witness_DecodedCommandKeepsItsWord :
    decode (record 0x630 1 2 3 4 [5]) = .ok (.pixelLoad 1 2 3) ∧
    decode (record 0x10F 1 0 3 4 []) = .ok (.writeU32N (.addressed 1) []) := ⟨rfl, rfl⟩

/-- Two records that differ in every ignored field. -/
theorem witness_IgnoredFieldsHaveNoEffect :
    ex.work = none ∧ (record 0x001 1 2 3 4 [5]).cmd = (record 0x001 6 7 8 9 []).cmd ∧
    (record 0x001 1 2 3 4 [5]).cmd.toNat % 256 = 0x01 ∧ (record 0x001 1 2 3 4 [5]).cmd.toNat / 256 % 2 = 0 := by
  decide

theorem witness_StepRunsTheDecodedCommand :
    { ex with inbox := [.issue (record 0x021 0 0 0 9 [])] }.work = none ∧
    decode (record 0x021 0 0 0 9 []) = .ok (.paletteGet 9) := ⟨rfl, rfl⟩

/-- One record for each of the five conditions, and the one they all miss. -/
theorem witness_IllegalCommandsExactly :
    { ex with inbox := [.issue (record 0x0C 0 0 0 0 [])] }.work = none ∧
    decode (record 0x0C 0 0 0 0 []) = .error (.unassignedOp 0x0C) ∧
    decode (record 0x801 0 0 0 0 []) = .error .reservedBits ∧
    decode (record 0x110 0 0 0 0 []) = .error .addressSelectUnused ∧
    decode (record 0x201 0 0 0 0 []) = .error .depthUnused ∧
    decode (record 0x0D 0 2 0 0 [1]) = .error .dataLength ∧
    decode (record 0x40 0 0 0 7 []) = .error .unassignedRegister ∧
    decode (record 0x40 0 0 0 6 []) = .ok (.readReg .config) := ⟨rfl, rfl, rfl, rfl, rfl, rfl, rfl, rfl⟩

theorem witness_StepRunsTheNextElement :
    (running (inGroup 0x80 7 4 [0x41])).work = some (inGroup 0x80 7 4 [0x41]) ∧
    decodeElement (nextExpect (inGroup 0x80 7 4 [0x41])) (streamBytes (running (inGroup 0x80 7 4 [0x41]))) =
      .ok (.ref 7 0x856) := ⟨rfl, rfl⟩

/-- The ROM ends before a header, one byte short of a short header, one byte short of an extended header, before the
flag byte, before the literal, and inside the back-reference. -/
theorem witness_StreamPastTheRomEnd :
    ({ atCursor 2 (exact [0x10, 4]) with work := some (freshWork .response) }.cursor.toNat =
        (exact [0x10, 4]).params.romSize.toNat ∧ nextExpect (freshWork .response) = .header) ∧
    ((exact [0x10, 4, 0]).rom.byte 0 = 0x10#8 ∧ (exact [0x10, 4, 0]).params.romSize.toNat < 0 + 4 ∧
      { exact [0x10, 4, 0] with work := some (freshWork .response) }.cursor.toNat ≤
        (exact [0x10, 4, 0]).params.romSize.toNat) ∧
    ((exact [0x10, 0, 0, 0, 1, 0, 0]).rom.byte 0 = 0x10#8 ∧ (exact [0x10, 0, 0, 0, 1, 0, 0]).rom.byte 1 = 0 ∧
      (exact [0x10, 0, 0, 0, 1, 0, 0]).rom.byte 2 = 0 ∧ (exact [0x10, 0, 0, 0, 1, 0, 0]).rom.byte 3 = 0 ∧
      (exact [0x10, 0, 0, 0, 1, 0, 0]).params.romSize.toNat < 0 + 8) ∧
    ((atCursor 0x108 (running { inGroup 0 7 4 [] with phase := .group })).cursor.toNat ≤ ex.params.romSize.toNat ∧
      nextExpect { inGroup 0 7 4 [] with phase := .group } = .flags ∧
      (atCursor 0x108 (running { inGroup 0 7 4 [] with phase := .group })).cursor.toNat = ex.params.romSize.toNat) ∧
    nextExpect (inGroup 0 7 4 []) = .literal ∧
    (nextExpect (inGroup 0x80 7 4 [0x41]) = .backRef ∧
      (atCursor 0x107 (running (inGroup 0x80 7 4 [0x41]))).cursor.toNat ≤ ex.params.romSize.toNat ∧
      ex.params.romSize.toNat < (atCursor 0x107 (running (inGroup 0x80 7 4 [0x41]))).cursor.toNat + 2) := by decide

/-- LZ-14 and LZ-12 of spec/95, and a stream that ends inside an extended header. -/
theorem test_stream_past_the_rom_end :
    answer (step { exact [0x10, 4] with work := some (freshWork .response) }) = some (⟨1, 2, []⟩, 2) ∧
    answer (step { exact [0x10, 0, 0, 0, 1, 0, 0] with work := some (freshWork .response) }) =
      some (⟨1, 7, []⟩, 7) ∧
    answer (step { atCursor 9 (exact [0x10, 4, 0, 0, 0, 0x41, 0x42, 0x43, 0x44]) with
      work := some (inGroup 0 3 4 [0x41, 0x42, 0x43, 0x44]) }) = some (⟨1, 9, []⟩, 9) := by decide

theorem witness_IdleBlockKeepsItsState : ex.work = none ∧ ex.inbox = [] := by decide

theorem witness_ResetGivesTheResetValues :
    { paletteOne with status := 0x31, inbox := [.reset none] }.work = none ∧
    { paletteOne with status := 0x31, inbox := [.reset none] }.inbox = [.reset none] := by decide

/-- An image of the ROM's size, the empty image of an empty ROM, and one that is too short. -/
theorem witness_LoadedImageIsInTheRom :
    ((exact [1, 2]).work = none ∧ ([3, 4] : List Byte).length = (exact [1, 2]).params.romSize.toNat) ∧
    ([] : List Byte).length = (exact []).params.romSize.toNat ∧
    ([3] : List Byte).length ≠ (exact [1, 2]).params.romSize.toNat := by decide

/-- Both address forms, at the last address each width has and one past it, up to the top of the address space. -/
theorem witness_ScalarReads :
    (startsAt (.addressed 0x107) ex 0x107 ∧ 0x107 + 1 ≤ ex.params.romSize.toNat) ∧
    (startsAt .atCursor (atCursor 0x108 ex) 0x108 ∧ ex.params.romSize.toNat < 0x108 + 1) ∧
    (startsAt .atCursor (atCursor 0x106 ex) 0x106 ∧ 0x106 + 2 ≤ ex.params.romSize.toNat) ∧
    (startsAt (.addressed 0x107) ex 0x107 ∧ ex.params.romSize.toNat < 0x107 + 2) ∧
    (startsAt (.addressed 0x104) ex 0x104 ∧ 0x104 + 4 ≤ ex.params.romSize.toNat) ∧
    (startsAt (.addressed 0xFFFFFFFF) ex 0xFFFFFFFF ∧ ex.params.romSize.toNat < (0xFFFFFFFF#32).toNat + 4) :=
  ⟨⟨.inl rfl, by decide⟩, ⟨.inr ⟨rfl, rfl⟩, by decide⟩, ⟨.inr ⟨rfl, rfl⟩, by decide⟩, ⟨.inl rfl, by decide⟩,
    ⟨.inl rfl, by decide⟩, ⟨.inl rfl, by decide⟩⟩

theorem witness_PointerRead :
    (startsAt .atCursor (atCursor 0x104 ex) 0x104 ∧ 0x104 + 4 ≤ ex.params.romSize.toNat) ∧
    (startsAt (.addressed 0x105) ex 0x105 ∧ ex.params.romSize.toNat < 0x105 + 4) :=
  ⟨⟨.inr ⟨rfl, rfl⟩, by decide⟩, ⟨.inl rfl, by decide⟩⟩

/-- `COUNT` 0 at the end of the ROM and one past it, the last full range of each width, and a range that would wrap. -/
theorem witness_BulkReads :
    (startsAt (.addressed 0x108) ex 0x108 ∧ 0x108 + 0 ≤ ex.params.romSize.toNat) ∧
    (startsAt (.addressed 0x109) ex 0x109 ∧ ex.params.romSize.toNat < 0x109 + 0) ∧
    (startsAt .atCursor (atCursor 0x102 ex) 0x102 ∧ 0x102 + 2 * 3 ≤ ex.params.romSize.toNat) ∧
    (startsAt (.addressed 0x102) ex 0x102 ∧ ex.params.romSize.toNat < 0x102 + 2 * 4) ∧
    (startsAt (.addressed 0x100) ex 0x100 ∧ 0x100 + 4 * 2 ≤ ex.params.romSize.toNat) ∧
    (startsAt (.addressed 0xFFFFFFFC) ex 0xFFFFFFFC ∧
      ex.params.romSize.toNat < (0xFFFFFFFC#32).toNat + 4 * (0x40000001#32).toNat) :=
  ⟨⟨.inl rfl, by decide⟩, ⟨.inl rfl, by decide⟩, ⟨.inr ⟨rfl, rfl⟩, by decide⟩, ⟨.inl rfl, by decide⟩,
    ⟨.inl rfl, by decide⟩, ⟨.inl rfl, by decide⟩⟩

theorem witness_ScalarWrites :
    ex.rom.wf = true ∧
    (startsAt .atCursor (atCursor 0x107 ex) 0x107 ∧ 0x107 + 1 ≤ ex.params.romSize.toNat) ∧
    (startsAt (.addressed 0x108) ex 0x108 ∧ ex.params.romSize.toNat < 0x108 + 1) ∧
    (startsAt (.addressed 0x106) ex 0x106 ∧ 0x106 + 2 ≤ ex.params.romSize.toNat) ∧
    (startsAt (.addressed 0x107) ex 0x107 ∧ ex.params.romSize.toNat < 0x107 + 2) ∧
    (startsAt (.addressed 0x104) ex 0x104 ∧ 0x104 + 4 ≤ ex.params.romSize.toNat) ∧
    (startsAt .atCursor (atCursor 0x105 ex) 0x105 ∧ ex.params.romSize.toNat < 0x105 + 4) :=
  ⟨by decide, ⟨.inr ⟨rfl, rfl⟩, by decide⟩, ⟨.inl rfl, by decide⟩, ⟨.inl rfl, by decide⟩, ⟨.inl rfl, by decide⟩,
    ⟨.inl rfl, by decide⟩, ⟨.inr ⟨rfl, rfl⟩, by decide⟩⟩

theorem witness_BulkWrites :
    countMatches (record 0x10E 0 2 0 0 [1, 2]) ∧ ¬countMatches (record 0x10E 0 2 0 0 [1]) ∧ ex.rom.wf = true ∧
    (startsAt (.addressed 0x108) ex 0x108 ∧ 0x108 + ([] : List Word).length ≤ ex.params.romSize.toNat) ∧
    (startsAt (.addressed 0x106) ex 0x106 ∧ ex.params.romSize.toNat < 0x106 + ([1, 2, 3] : List Word).length) ∧
    (startsAt .atCursor (atCursor 0x104 ex) 0x104 ∧
      0x104 + 2 * ([1, 2] : List Word).length ≤ ex.params.romSize.toNat) ∧
    (startsAt (.addressed 0x105) ex 0x105 ∧ ex.params.romSize.toNat < 0x105 + 2 * ([1, 2] : List Word).length) ∧
    (startsAt (.addressed 0x104) ex 0x104 ∧ 0x104 + 4 * ([1] : List Word).length ≤ ex.params.romSize.toNat) ∧
    (startsAt (.addressed 0x105) ex 0x105 ∧ ex.params.romSize.toNat < 0x105 + 4 * ([1] : List Word).length) :=
  ⟨rfl, nofun, by decide, ⟨.inl rfl, by decide⟩, ⟨.inl rfl, by decide⟩, ⟨.inr ⟨rfl, rfl⟩, by decide⟩,
    ⟨.inl rfl, by decide⟩, ⟨.inl rfl, by decide⟩, ⟨.inl rfl, by decide⟩⟩

theorem witness_FailedAccessChangesNothing :
    Instr.accessRange (.writeU16N .atCursor [1, 2]) = some (.atCursor, 4) ∧
    startsAt .atCursor (atCursor 0x105 ex) 0x105 ∧ ex.params.romSize.toNat < 0x105 + 4 :=
  ⟨rfl, .inr ⟨rfl, rfl⟩, by decide⟩

theorem witness_MixedWidthView : ex.rom.wf = true ∧ (0x104#32).toNat + 4 ≤ ex.params.romSize.toNat := by decide

theorem witness_WriteThenReadBack :
    ex.rom.wf = true ∧ (0x107#32).toNat + 1 ≤ ex.params.romSize.toNat ∧
    (0x106#32).toNat + 2 ≤ ex.params.romSize.toNat ∧ (0x104#32).toNat + 4 ≤ ex.params.romSize.toNat := by decide

theorem witness_FrameOfReadingCommands :
    Instr.isCommand (.readPtr .atCursor) = true ∧ Instr.writesRom (.readPtr .atCursor) = false ∧
    (∀ addr count, Instr.readPtr .atCursor ≠ .paletteLoad addr count) ∧
    (∀ addr count depth, Instr.readPtr .atCursor ≠ .pixelLoad addr count depth) ∧
    (after (exec (.readPtr .atCursor) ex)).isSome = true ∧
    Instr.accessRange (.pixelGet 0) = none ∧ Instr.readsStream (.pixelGet 0) = false ∧
    (after (exec (.pixelGet 0) ex)).isSome = true :=
  ⟨rfl, rfl, nofun, nofun, rfl, rfl, rfl, rfl⟩

theorem witness_FrameOfWritingCommands :
    Instr.writesRom (.writeU16 (.addressed 0x106) 1) = true ∧
    Instr.accessRange (.writeU16 (.addressed 0x106) 1) = some (.addressed 0x106, 2) ∧
    startsAt (.addressed 0x106) ex 0x106 ∧ ex.rom.wf = true ∧
    (after (exec (.writeU16 (.addressed 0x106) 1) ex)).isSome = true :=
  ⟨rfl, rfl, .inl rfl, by decide, rfl⟩

theorem witness_FrameOfLoads :
    (after (exec (.paletteLoad 0x100 4) ex)).isSome = true ∧ (after (exec (.pixelLoad 0x100 8 3) ex)).isSome = true :=
  ⟨rfl, rfl⟩

/-- An element that goes on and one that ends the decompression. -/
theorem witness_FrameOfStreamElements :
    Instr.isCommand (.lz77Lit 0x42) = false ∧
    ((after (exec (.lz77Lit 0x42) (running (inGroup 0 7 4 [0x41])))).map (fun t => t.work.isSome)) = some true ∧
    ((after (exec (.lz77Lit 0) (running (inGroup 0 6 1 [0x41])))).map (fun t => t.work.isSome)) = some false ∧
    (inGroup 0 6 1 [0x41]).consumer ≠ .palette := by decide

/-- The smallest and largest short lengths, an extended length, and the extended length 0. -/
theorem witness_HeaderDeclaresTheLength :
    (running (freshWork .response)).work = some (freshWork .response) ∧ (freshWork .response).phase = .header ∧
    ((1#24 : BitVec 24) ≠ 0 ∧ (atCursor 0x104 (running (freshWork .response))).cursor.toNat + 4 ≤
      ex.params.romSize.toNat ∧ (0xFFFFFF#24).toNat ≤ ex.params.bufCap.val) ∧
    ((0xFFFFFFFF#32 : Word) ≠ 0 ∧ (running (freshWork .response)).cursor.toNat + 8 ≤ ex.params.romSize.toNat ∧
      (0xFFFFFFFF#32).toNat ≤ ex.params.bufCap.val) ∧
    (freshWork .response).consumer = .response := by decide

theorem witness_HeaderAboveCapacity :
    (withCap 3 (running (freshWork .response))).work = some (freshWork .response) ∧
    (freshWork .response).phase = .header ∧
    (atCursor 0x104 (withCap 3 (running (freshWork .response)))).cursor.toNat + 4 ≤ ex.params.romSize.toNat ∧
    (withCap 3 ex).params.bufCap.val < (4#24).toNat ∧
    (withCap 3 (running (freshWork .response))).cursor.toNat + 8 ≤ ex.params.romSize.toNat ∧
    (withCap 3 ex).params.bufCap.val < (4#32).toNat := by decide

theorem witness_FlagByteOpensAGroup :
    (running { inGroup 0 7 4 [] with phase := .group }).work = some { inGroup 0 7 4 [] with phase := .group } ∧
    (atCursor 0x107 (running { inGroup 0 7 4 [] with phase := .group })).cursor.toNat + 1 ≤
      ex.params.romSize.toNat := by decide

/-- At bit 7, at bit 0 before the end, and at bit 0 with the last byte. -/
theorem witness_LiteralIsStored :
    ((running (inGroup 0 7 4 [0x41])).work = some (inGroup 0 7 4 [0x41]) ∧ (inGroup 0 7 4 [0x41]).phase = .item ∧
      (inGroup 0 7 4 [0x41]).flags.getLsbD 7 = false ∧
      (inGroup 0 7 4 [0x41]).position < (inGroup 0 7 4 [0x41]).length.toNat ∧
      (running (inGroup 0 7 4 [0x41])).cursor.toNat + 1 ≤ ex.params.romSize.toNat ∧
      (inGroup 0 7 4 [0x41]).bit.val = (6 : Fin 8).val + 1) ∧
    ((inGroup 0 0 4 [0x41]).bit.val = 0 ∧
      (inGroup 0 0 4 [0x41]).position + 1 < (inGroup 0 0 4 [0x41]).length.toNat) ∧
    ((inGroup 0 0 2 [0x41]).bit.val = 0 ∧
      (inGroup 0 0 2 [0x41]).position + 1 = (inGroup 0 0 2 [0x41]).length.toNat ∧
      (inGroup 0 0 2 [0x41]).consumer = .response) := by decide

/-- A zero pad at bit 7, a nonzero one at bit 0, and a nonzero one at bit 1. -/
theorem witness_TrailingPadIsDropped :
    ((running (inGroup 0 7 1 [0x41])).work = some (inGroup 0 7 1 [0x41]) ∧ (inGroup 0 7 1 [0x41]).phase = .item ∧
      (inGroup 0 7 1 [0x41]).flags.getLsbD 7 = false ∧
      (inGroup 0 7 1 [0x41]).position = (inGroup 0 7 1 [0x41]).length.toNat ∧
      (running (inGroup 0 7 1 [0x41])).cursor.toNat + 1 ≤ ex.params.romSize.toNat ∧
      (inGroup 0 7 1 [0x41]).consumer = .response) ∧
    (inGroup 0 0 1 [0x41]).bit.val = 0 ∧
    ((0xFF#8 : Byte) ≠ 0 ∧ (inGroup 0 1 1 [0x41]).bit.val = (0 : Fin 8).val + 1) := by decide

/-- The shortest copy at the smallest offset that overlaps, filling the output exactly at bit 6; at bit 0 with a byte
still to come; and at bit 0 filling the output. -/
theorem witness_BackReferenceCopies :
    ((running (inGroup 0x40 6 4 [0x41])).work = some (inGroup 0x40 6 4 [0x41]) ∧
      (inGroup 0x40 6 4 [0x41]).phase = .item ∧ (inGroup 0x40 6 4 [0x41]).flags.getLsbD 6 = true ∧
      (inGroup 0x40 6 4 [0x41]).out.length = (inGroup 0x40 6 4 [0x41]).position ∧
      (0#12).toNat < (inGroup 0x40 6 4 [0x41]).position ∧
      (inGroup 0x40 6 4 [0x41]).position + ((0#4).toNat + 3) ≤ (inGroup 0x40 6 4 [0x41]).length.toNat ∧
      (atCursor 0x106 (running (inGroup 0x40 6 4 [0x41]))).cursor.toNat + 2 ≤ ex.params.romSize.toNat ∧
      (inGroup 0x40 6 4 [0x41]).bit.val = (5 : Fin 8).val + 1) ∧
    ((inGroup 0x01 0 5 [0x41]).bit.val = 0 ∧ (inGroup 0x01 0 5 [0x41]).flags.getLsbD 0 = true ∧
      (inGroup 0x01 0 5 [0x41]).position + ((0#4).toNat + 3) < (inGroup 0x01 0 5 [0x41]).length.toNat) ∧
    ((inGroup 0x01 0 4 [0x41]).bit.val = 0 ∧ (inGroup 0x01 0 4 [0x41]).flags.getLsbD 0 = true ∧
      (inGroup 0x01 0 4 [0x41]).position + ((0#4).toNat + 3) = (inGroup 0x01 0 4 [0x41]).length.toNat ∧
      (inGroup 0x01 0 4 [0x41]).consumer = .response) := by decide

/-- LZ-8 and LZ-11 of spec/95: past the end by three bytes, and with the output already full. -/
theorem witness_BackReferenceClips :
    ((running (inGroup 0x40 6 4 [0x41])).work = some (inGroup 0x40 6 4 [0x41]) ∧
      (inGroup 0x40 6 4 [0x41]).flags.getLsbD 6 = true ∧ (inGroup 0x40 6 4 [0x41]).consumer = .response ∧
      (0#12).toNat < (inGroup 0x40 6 4 [0x41]).position ∧
      (inGroup 0x40 6 4 [0x41]).position ≤ (inGroup 0x40 6 4 [0x41]).length.toNat ∧
      (inGroup 0x40 6 4 [0x41]).length.toNat < (inGroup 0x40 6 4 [0x41]).position + ((3#4).toNat + 3) ∧
      ex.params.overrun = .clip ∧
      (running (inGroup 0x40 6 4 [0x41])).cursor.toNat + 2 ≤ ex.params.romSize.toNat) ∧
    ((inGroup 0x40 6 1 [0x41]).position ≤ (inGroup 0x40 6 1 [0x41]).length.toNat ∧
      (inGroup 0x40 6 1 [0x41]).length.toNat < (inGroup 0x40 6 1 [0x41]).position + ((0#4).toNat + 3)) := by decide

/-- LZ-3 and LZ-4 (offset = position) and LZ-8 under `FAULT`. -/
theorem witness_BackReferenceErrors :
    ((running (inGroup 0x80 7 4 [])).work = some (inGroup 0x80 7 4 []) ∧ (inGroup 0x80 7 4 []).phase = .item ∧
      (inGroup 0x80 7 4 []).flags.getLsbD 7 = true ∧
      (running (inGroup 0x80 7 4 [])).cursor.toNat + 2 ≤ ex.params.romSize.toNat ∧
      (inGroup 0x80 7 4 []).position ≤ (0#12).toNat) ∧
    (inGroup 0x40 6 4 [0x41]).position ≤ (1#12).toNat ∧
    ((0#12).toNat < (inGroup 0x40 6 4 [0x41]).position ∧
      (inGroup 0x40 6 4 [0x41]).length.toNat < (inGroup 0x40 6 4 [0x41]).position + ((3#4).toNat + 3) ∧
      (faulting ex).params.overrun = .fault) := by decide

theorem witness_DecoderRefinesTheProcedure :
    (0#32).toNat < (exact [0x10, 1, 0, 0, 0, 0x96, 0]).params.romSize.toNat ∧
    (exact [0x10, 1, 0, 0, 0, 0x96, 0]).rom.byte (0#32).toNat = 0x10#8 := by decide

/-- SRC-1: the stored block of four bytes ends with its pad. -/
theorem witness_StoredBlockDecompresses :
    storedBlock [0x41, 0x42, 0x43, 0x44] = [0x10, 4, 0, 0, 0, 0x41, 0x42, 0x43, 0x44, 0] ∧
    0 < ([0x41, 0x42, 0x43, 0x44] : List Byte).length ∧
    (0#32).toNat + (storedBlock [0x41, 0x42, 0x43, 0x44]).length ≤
      (exact (storedBlock [0x41, 0x42, 0x43, 0x44])).params.romSize.toNat ∧
    ∀ k, k < (storedBlock [0x41, 0x42, 0x43, 0x44]).length →
      (exact (storedBlock [0x41, 0x42, 0x43, 0x44])).rom.byte ((0#32).toNat + k) =
        (storedBlock [0x41, 0x42, 0x43, 0x44]).getD k 0 := by decide

theorem witness_DecompressionNeedsTheMarker :
    ex.params.romSize.toNat ≤ (0x108#32).toNat ∧
    ((0x107#32).toNat < ex.params.romSize.toNat ∧ ex.rom.byte (0x107#32).toNat ≠ 0x10#8) := by decide

/-- A short and an extended header. -/
theorem witness_OutputLengthIsTheDeclaredLength :
    (after (exec (.lz77Decompress 0) (exact [0x10, 1, 0, 0, 0, 0x41, 0]))).map (·.response) =
      some (some ⟨0, 1, [0x41]⟩) ∧
    (after (exec (.lz77Decompress 0) (exact [0x10, 0, 0, 0, 1, 0, 0, 0, 0, 0x41, 0]))).map (·.response) =
      some (some ⟨0, 1, [0x41]⟩) := by decide

/-- Two states that differ in every register, in the two other parameters, and in the ROM below the address. -/
theorem witness_DecompressionIsPure :
    (∀ k, (0x100#32).toNat ≤ k →
      (legacyPixels (legacyWrites { paletteOne with cursor := 7, status := 0x33, rom := ex.rom.put 0xFF 9 })).rom.byte k =
        ex.rom.byte k) ∧
    (legacyPixels (legacyWrites paletteOne)).params.romSize = ex.params.romSize ∧
    (legacyPixels (legacyWrites paletteOne)).params.bufCap = ex.params.bufCap ∧
    (legacyPixels (legacyWrites paletteOne)).params.overrun = ex.params.overrun ∧
    (0x100#32).toNat < ex.params.romSize.toNat := by
  refine ⟨fun k hk => ?_, rfl, rfl, rfl, by decide⟩
  have h : ¬(0xFF = k) := by simp at hk; omega
  exact if_neg h

theorem witness_CursorAfterDecompression :
    (0#32).toNat < (exact [0x10, 4]).params.romSize.toNat ∧ (exact [0x10, 4]).rom.byte (0#32).toNat = 0x10#8 ∧
    (after (exec (.lz77Decompress 0) (exact [0x10, 4]))).isSome = true ∧
    (after (exec (.paletteLoad 0 1) (exact [0x10, 4]))).isSome = true ∧
    (after (exec (.pixelLoad 0 1 0) (exact [0x10, 4]))).isSome = true := by decide

/-- Both loads up to the last byte of the ROM. -/
theorem witness_DirectLoads :
    (0x100#32).toNat < ex.params.romSize.toNat ∧ ex.rom.byte (0x100#32).toNat ≠ 0x10#8 ∧
    ((0x100#32).toNat + 2 * (4#32).toNat ≤ ex.params.romSize.toNat ∧ 2 * (4#32).toNat ≤ (withCap 8 ex).params.bufCap.val) ∧
    ((0x100#32).toNat + (8#32).toNat ≤ ex.params.romSize.toNat ∧ (8#32).toNat ≤ (withCap 8 ex).params.bufCap.val) := by
  decide

/-- PAL-14, PAL-13, PAL-17 of spec/95 and their like for `PIXEL_LOAD`. -/
theorem witness_DirectLoadErrors :
    ex.params.romSize.toNat ≤ (0x108#32).toNat ∧
    ((0x106#32).toNat < ex.params.romSize.toNat ∧ ex.rom.byte (0x106#32).toNat ≠ 0x10#8 ∧
      ex.params.romSize.toNat < (0x106#32).toNat + 2 * (2#32).toNat ∧
      ex.params.romSize.toNat < (0x106#32).toNat + (3#32).toNat) ∧
    ((0x100#32).toNat < ex.params.romSize.toNat ∧ ex.rom.byte (0x100#32).toNat ≠ 0x10#8 ∧
      (0x100#32).toNat + 2 * (4#32).toNat ≤ ex.params.romSize.toNat ∧
      (withCap 7 ex).params.bufCap.val < 2 * (4#32).toNat ∧
      (0x100#32).toNat + (8#32).toNat ≤ ex.params.romSize.toNat ∧
      (withCap 7 ex).params.bufCap.val < (8#32).toNat) := by decide

/-- A block that succeeds and one that fails. -/
theorem witness_CompressedLoadsAreDecompressions :
    ((0#32).toNat < (exact [0x10, 1, 0, 0, 0, 0x96, 0]).params.romSize.toNat ∧
      (exact [0x10, 1, 0, 0, 0, 0x96, 0]).rom.byte (0#32).toNat = 0x10#8 ∧
      (after (exec (.lz77Decompress 0) (exact [0x10, 1, 0, 0, 0, 0x96, 0]))).map (·.response) =
        some (some ⟨0, 1, [0x96]⟩)) ∧
    ((0#32).toNat < (exact [0x10, 4]).params.romSize.toNat ∧ (exact [0x10, 4]).rom.byte (0#32).toNat = 0x10#8 ∧
      (after (exec (.lz77Decompress 0) (exact [0x10, 4]))).map (·.response) = some (some ⟨1, 2, []⟩)) := by decide

theorem witness_PaletteEntries :
    (paletteOne.palBuf.length = paletteOne.palLen.toNat ∧ (0#32).toNat < paletteOne.palLen.toNat / 2) ∧
    paletteOne.palLen.toNat / 2 ≤ (1#32).toNat := by decide

/-- The last pixel of a 1-bpp plane in both modes, and the first past it. -/
theorem witness_PixelValues :
    ((planeTwo 0).pixBuf.length = (planeTwo 0).pixLen.toNat ∧
      (15#32).toNat < (planeTwo 0).pixLen.toNat * (8 / 2 ^ (planeTwo 0).pixDepth.toNat) ∧
      (planeTwo 0).params.pixel = .generalized) ∧
    (legacyPixels (planeTwo 0)).params.pixel = .legacy ∧
    (planeTwo 0).pixLen.toNat * (8 / 2 ^ (planeTwo 0).pixDepth.toNat) ≤ (16#32).toNat := by decide

theorem witness_PixelModesAgreeAtDepthFour : (planeTwo 2).pixDepth = 2 := by decide

theorem witness_RegistersRead :
    (record 0x40 0 0 0 6 []).cmd = 0x40#32 ∧ (record 0x40 0 0 0 6 []).index = 6 ∧
    7 ≤ (record 0x40 0 0 0 7 []).index.toNat := by decide

theorem witness_StatusShowsTheLastError :
    Instr.isCommand (.readU8 (.addressed 0x200)) = true ∧
    (after (exec (.readU8 (.addressed 0x200)) ex)).map (·.response) = some (some ⟨1, 0x200, []⟩) := by decide

theorem witness_InvariantAtReset : ex.rom.wf = true ∧ ex.rom.below ex.params.romSize.toNat = true := by decide

/-- The invariant at a state with a loaded palette, and with a decoder between two items. -/
theorem witness_InvariantKept :
    paletteOne.Inv ∧ (running (inGroup 0x40 6 4 [0x41])).Inv ∧
    (after (step (running (inGroup 0x40 6 4 [0x41])))).isSome = true := by
  refine ⟨⟨by decide, by decide, by decide, by decide, by decide, by decide, by decide, by decide, nofun⟩,
    ⟨by decide, by decide, by decide, by decide, by decide, by decide, by decide, by decide, ?_⟩, by decide⟩
  rintro w ⟨rfl⟩
  decide

theorem witness_EveryCommandIsAnswered : Instr.isCommand (.lz77Decompress 0) = true := by decide

theorem witness_NoWorkBetweenCommands :
    { ex with inbox := [.issue (record 0x10 0x100 0 0 0 [])] }.work = none ∧
    (after (step { ex with inbox := [.issue (record 0x10 0x100 0 0 0 [])] })).isSome = true := by decide

/-- A failed accessor, and a failed decompression. -/
theorem witness_ErrorsChangeNothingElse :
    (Instr.isCommand (.readU16 (.addressed 0x107)) = true ∧ Instr.readsStream (.readU16 (.addressed 0x107)) = false ∧
      (after (exec (.readU16 (.addressed 0x107)) ex)).map (·.response) = some (some ⟨1, 0x107, []⟩)) ∧
    (after (exec (.lz77Decompress 0) (exact [0x10, 4]))).map (·.response) = some (some ⟨1, 2, []⟩) := by decide

theorem witness_ErrorCodesRaised :
    Instr.isCommand (.paletteLoad 0x108 0) = true ∧
    (after (exec (.paletteLoad 0x108 0) ex)).map (·.response) = some (some ⟨1, 0x108, []⟩) := by decide

theorem witness_PreviousResultIsNeverConsulted :
    Instr.isCommand (.readReg .config) = true ∧ Instr.readReg .config ≠ .readReg .status := by decide

theorem witness_BuffersAreSnapshots :
    Instr.writesRom (.writeU8 (.addressed 0x100) 0) = true ∧
    (after (exec (.writeU8 (.addressed 0x100) 0) paletteOne)).isSome = true := by decide

/-- The one step that stops. -/
theorem witness_StepStopsOnlyOnAHostBreach :
    step { exact [1, 2] with inbox := [.reset (some [3])] } = .fault .imageIncomplete := rfl

end Sys2Proof.Tests
end

section
/-! What every command and every step of the block can do, said once (`CommandEnd`, `StepTaken`), so that each statement
about all commands or all steps is a short case split (spec/44_system.md R233, R234). -/
namespace Sys2Proof.Machine

/-! ### The twenty commands -/

theorem startsAt_base (start : Start) (s : State) : startsAt start s (base start s) := by
  cases start with
  | addressed a => exact .inl rfl
  | atCursor => exact .inr ⟨rfl, rfl⟩

/-- Everything a command can do. An accessor reads or writes inside the ROM and moves `CURSOR`; a command that reads
registers or buffers answers in place; either may end with `OutOfBounds`; the others run the decompressor or a load. -/
inductive CommandEnd (s : State) : Instr → State → Prop where
  | accessed {i : Instr} (m : Memory) (c : Nat) (v : Word) (d : List Word) (accessor : i.accessRange ≠ none)
      (inRom : c ≤ s.params.romSize.toNat) (kept : i.writesRom = false → m = s.rom)
      (wf : s.rom.wf = true → m.wf = true)
      (below : s.rom.below s.params.romSize.toNat = true → m.below s.params.romSize.toNat = true) :
      CommandEnd s i ((s.setRom m).succeeded (BitVec.ofNat 32 c) v d)
  | answered {i : Instr} (v : Word) (d : List Word) : CommandEnd s i (s.succeeded s.cursor v d)
  | outside {i : Instr} (info : Word) : CommandEnd s i (s.failed s.cursor 1 info)
  | decompressed {addr : Word} {t : State} (run : Decompressed .response s addr t) :
      CommandEnd s (.lz77Decompress addr) t
  | paletteLoaded {addr count : Word} {t : State} (run : Loaded .palette addr (2 * count.toNat) s t) :
      CommandEnd s (.paletteLoad addr count) t
  | planeLoaded {addr count : Word} {depth : BitVec 2} {t : State}
      (run : Loaded (.pixels depth) addr count.toNat s t) : CommandEnd s (.pixelLoad addr count depth) t

section
variable {i : Instr} {s : State} {start : Start} {w : Nat}

theorem scalarRead_end {f : Word → Word} (h : i.accessRange ≠ none) : CommandEnd s i (scalarRead start w f s) := by
  rcases Nat.lt_or_ge s.params.romSize.toNat ((base start s).toNat + w) with hb | hb
  · rw [scalarRead_fails w f (startsAt_base start s) hb]; exact .outside _
  · rw [scalarRead_fits w f (startsAt_base start s) hb]; exact .accessed s.rom _ _ _ h hb (fun _ => rfl) id id

theorem bulkRead_end {count : Word} (h : i.accessRange ≠ none) : CommandEnd s i (bulkRead start w count s) := by
  rcases Nat.lt_or_ge s.params.romSize.toNat ((base start s).toNat + count.toNat * w) with hb | hb
  · rw [bulkRead_fails w count (startsAt_base start s) hb]; exact .outside _
  · rw [bulkRead_fits w count (startsAt_base start s) hb]
    exact .accessed s.rom _ _ _ h hb (fun _ => rfl) id id

theorem scalarWrite_end {v : Word} (h : i.accessRange ≠ none) (hi : i.writesRom = true) :
    CommandEnd s i (scalarWrite start w v s) := by
  rcases Nat.lt_or_ge s.params.romSize.toNat ((base start s).toNat + w) with hb | hb
  · rw [scalarWrite_fails w v (startsAt_base start s) hb]; exact .outside _
  · rw [scalarWrite_fits w v (startsAt_base start s) hb]
    exact .accessed _ _ _ _ h hb (fun hr => by simp [hi] at hr) (Memory.writeLE_wf _ _ _ _)
      fun hm => Memory.writeLE_below _ _ _ _ _ hm hb

theorem bulkWrite_end {data : List Word} (hw : 1 ≤ w) (h : i.accessRange ≠ none) (hi : i.writesRom = true) :
    CommandEnd s i (bulkWrite start w data s) := by
  rcases Nat.lt_or_ge s.params.romSize.toNat ((base start s).toNat + data.length * w) with hb | hb
  · rw [bulkWrite_fails w data (startsAt_base start s) hb]; exact .outside _
  · rw [bulkWrite_fits w data (startsAt_base start s) hb]
    exact .accessed _ _ _ _ h hb (fun hr => by simp [hi] at hr) (bulkStore_wf _ _ _ _ _)
      fun hm => bulkStore_below _ _ _ _ _ _ (storedWidth_le _ w hw) hm hb

end

theorem execPaletteGet_end (index : Word) (s : State) :
    ∃ t, execPaletteGet index s = .next t ∧ CommandEnd s (.paletteGet index) t := by
  unfold execPaletteGet
  split
  · exact ⟨_, rfl, .outside index⟩
  · exact ⟨_, rfl, .answered _ _⟩

theorem execPixelGet_end (index : Word) (s : State) :
    ∃ t, execPixelGet index s = .next t ∧ CommandEnd s (.pixelGet index) t := by
  unfold execPixelGet
  split
  · exact ⟨_, rfl, .outside index⟩
  · exact ⟨_, rfl, .answered _ _⟩

/-- Every command ends, in one of the ways of `CommandEnd`. -/
theorem exec_command_end {i : Instr} (h : i.isCommand = true) (s : State) :
    ∃ t, exec i s = .next t ∧ CommandEnd s i t := by
  cases i with
  | readU8 | readU16 | readU32 | readPtr => exact ⟨_, rfl, scalarRead_end (by simp [Instr.accessRange])⟩
  | readU8N | readU16N | readU32N => exact ⟨_, rfl, bulkRead_end (by simp [Instr.accessRange])⟩
  | writeU8 | writeU16 | writeU32 => exact ⟨_, rfl, scalarWrite_end (by simp [Instr.accessRange]) rfl⟩
  | writeU8N | writeU16N | writeU32N => exact ⟨_, rfl, bulkWrite_end (by decide) (by simp [Instr.accessRange]) rfl⟩
  | lz77Decompress addr => exact ⟨_, rfl, .decompressed (lz77_cases .response addr s)⟩
  | paletteLoad addr count => exact ⟨_, rfl, .paletteLoaded (loadAsset_cases .palette addr _ s)⟩
  | pixelLoad addr count depth => exact ⟨_, rfl, .planeLoaded (loadAsset_cases (.pixels depth) addr _ s)⟩
  | paletteGet index => exact execPaletteGet_end index s
  | pixelGet index => exact execPixelGet_end index s
  | rgbUnpack value => exact ⟨_, rfl, .answered _ _⟩
  | readReg reg => exact ⟨_, rfl, .answered _ _⟩
  | lz77Hdr | lz77Hdrx | lz77Flags | lz77Lit | lz77Ref => cases h

theorem exec_command_cases {i : Instr} {s t : State} (hi : i.isCommand = true) (h : exec i s = .next t) :
    CommandEnd s i t := by
  obtain ⟨u, hu, hend⟩ := exec_command_end hi s
  rw [hu] at h; cases h; exact hend

theorem Decompressed.work_eq_none {consumer : Consumer} {s t : State} {a : Word} (h : Decompressed consumer s a t) :
    t.work = none := by
  cases h with
  | unread => rfl
  | done => simp
  | failed => rfl

theorem Loaded.work_eq_none {consumer : Consumer} {a : Word} {n : Nat} {s t : State} (h : Loaded consumer a n s t) :
    t.work = none := by
  cases h with
  | unread => rfl
  | compressed _ _ _ run => exact run.work_eq_none
  | tooLong => rfl
  | tooLarge => rfl
  | copied => simp

theorem CommandEnd.work_eq_none {i : Instr} {s t : State} (h : CommandEnd s i t) : t.work = none := by
  cases h with
  | accessed => rfl
  | answered => rfl
  | outside => rfl
  | decompressed run => exact run.work_eq_none
  | paletteLoaded run => exact run.work_eq_none
  | planeLoaded run => exact run.work_eq_none

/-! ### The five stream elements -/

theorem whereExpected_next {x : Expect} {s t : State} {f : Lz77Work → State} :
    whereExpected x s f = .next t ↔ ∃ w, s.work = some w ∧ nextExpect w = x ∧ f w = t := by
  unfold whereExpected
  cases s.work with
  | none => simp
  | some w => by_cases hx : nextExpect w = x <;> simp [hx]

/-- A stream element that has a meaning is one `StreamStep` of the decompression that runs. -/
theorem exec_element_cases {i : Instr} {s t : State} (hi : i.isCommand = false) (h : exec i s = .next t) :
    ∃ w, s.work = some w ∧ StreamStep w s t := by
  cases i with
  | lz77Hdr l3 =>
    obtain ⟨w, hw, hx, rfl⟩ := whereExpected_next.1 h
    exact ⟨w, hw, takeHeader_step (by decide) (nextExpect_header.1 hx)⟩
  | lz77Hdrx l4 =>
    obtain ⟨w, hw, hx, rfl⟩ := whereExpected_next.1 h
    exact ⟨w, hw, takeHeader_step (by decide) (nextExpect_header.1 hx)⟩
  | lz77Flags f =>
    obtain ⟨w, hw, hx, rfl⟩ := whereExpected_next.1 h
    exact ⟨w, hw, takeFlags_step (nextExpect_flags.1 hx)⟩
  | lz77Lit b =>
    obtain ⟨w, hw, hx, rfl⟩ := whereExpected_next.1 h
    exact ⟨w, hw, takeLiteral_step (nextExpect_literal.1 hx).1⟩
  | lz77Ref len offset =>
    obtain ⟨w, hw, hx, rfl⟩ := whereExpected_next.1 h
    exact ⟨w, hw, takeRef_step (nextExpect_backRef.1 hx).1⟩
  | _ => cases hi

/-! ### One step -/

/-- Everything a step that answers a next state can do. -/
inductive StepTaken (s : State) : State → Prop where
  | element {t : State} (w : Lz77Work) (running : s.work = some w) (taken : StreamStep w s t) : StepTaken s t
  | idle (between : s.work = none) (silent : s.inbox = []) : StepTaken s s
  | command {t : State} (c : Command) (moves : List HostMove) (i : Instr) (between : s.work = none)
      (issued : s.inbox = .issue c :: moves) (decoded : decode c = .ok i)
      (run : exec i (s.setInbox moves) = .next t) : StepTaken s t
  | illegal (c : Command) (moves : List HostMove) (between : s.work = none)
      (issued : s.inbox = .issue c :: moves) : StepTaken s (s.setInbox moves).rejectCommand
  | reset (m : Memory) (moves : List HostMove) (between : s.work = none)
      (wf : s.rom.wf = true → m.wf = true)
      (below : s.rom.below s.params.romSize.toNat = true → m.below s.params.romSize.toNat = true) :
      StepTaken s (State.afterReset s.params m moves)

theorem elementInstr_isCommand (e : Element) : (elementInstr e).isCommand = false := by cases e <;> rfl

theorem step_element_cases {s t : State} {w : Lz77Work} (hw : s.work = some w) (h : step s = .next t) :
    StreamStep w s t := by
  unfold step fetch fetchStream at h
  rw [hw] at h
  cases hf : fetchElement w s with
  | ok e =>
    simp only [hf] at h
    obtain ⟨w', hw', taken⟩ := exec_element_cases (elementInstr_isCommand e) h
    rw [hw] at hw'; cases hw'; exact taken
  | error r =>
    simp only [hf] at h
    cases h; exact streamRejects_step hf

theorem step_cases {s t : State} (h : step s = .next t) : StepTaken s t := by
  cases hw : s.work with
  | some w => exact .element w hw (step_element_cases hw h)
  | none =>
    unfold step fetch at h
    rw [hw] at h
    cases hin : s.inbox with
    | nil => simp only [hin] at h; cases h; exact .idle hw hin
    | cons move moves =>
      cases move with
      | issue c =>
        simp only [hin, fetchCommand] at h
        cases hd : decode c with
        | ok i => simp only [hd] at h; exact .command c moves i hw hin hd h
        | error r => simp only [hd] at h; cases h; exact .illegal c moves hw hin
      | reset image =>
        simp only [hin, fetchReset] at h
        cases image with
        | none => cases h; exact .reset s.rom moves hw id id
        | some bytes =>
          by_cases hl : bytes.length = s.params.romSize.toNat
          · simp only [hostReset, if_pos hl] at h
            cases h
            exact .reset _ moves hw (fun _ => imageFrom_wf 0 bytes) fun _ => hl ▸ imageFrom_below bytes
          · simp only [hostReset, if_neg hl] at h
            cases h

/-- Settles O52: a command clears the working state at its end, and without one no stream element has a meaning. -/
theorem noWorkBetweenCommands : Obligations.NoWorkBetweenCommands := by
  intro s t hs h
  cases step_cases h with
  | element w running => rw [hs] at running; cases running
  | idle between => exact between
  | command c moves i _ _ _ run =>
    cases hi : i.isCommand with
    | true => exact (exec_command_cases hi run).work_eq_none
    | false =>
      obtain ⟨w, hw, -⟩ := exec_element_cases hi run
      rw [State.setInbox_work, hs] at hw; cases hw
  | illegal => rfl
  | reset => rfl

end Sys2Proof.Machine
end

section
/-! The invariant of spec/10_state.md R34: it holds after a reset, and each named update of the state keeps it. -/
namespace Sys2Proof.Machine

theorem State.afterReset_inv {p : Params} {m : Memory} {moves : List HostMove} (hwf : m.wf = true)
    (hbelow : m.below p.romSize.toNat = true) : (State.afterReset p m moves).Inv where
  romWf := hwf
  romBelow := hbelow
  cursorIn := Nat.zero_le _
  palLength := rfl
  palCap := Nat.zero_le _
  pixLength := rfl
  pixCap := Nat.zero_le _
  statusReserved := by simp [Machine.statusReserved]
  workSound := fun _ h => nomatch h

/-- Settles O49: a reset state has empty buffers and no decoder, so only the ROM has anything to meet. -/
theorem invariantAtReset : Obligations.InvariantAtReset :=
  ⟨State.afterReset_inv rfl rfl, fun _ _ _ => State.afterReset_inv⟩

section
variable {s : State} (h : s.Inv)
include h

theorem State.Inv.setInbox (moves : List HostMove) : (s.setInbox moves).Inv := { h with }

theorem State.Inv.finish (r : Response) : (s.finish r).Inv :=
  { h with
    statusReserved := by simpa using h.statusReserved
    workSound := fun _ hw => nomatch hw }

theorem State.Inv.moveCursor {c : Nat} (hc : c ≤ s.params.romSize.toNat) : (s.moveCursor c).Inv :=
  { h with
    cursorIn := by
      rw [State.moveCursor_cursor, BitVec.toNat_ofNat]
      exact Nat.le_trans (Nat.mod_le ..) hc }

theorem State.Inv.setRom {m : Memory} (hwf : m.wf = true) (hbelow : m.below s.params.romSize.toNat = true) :
    (s.setRom m).Inv := { h with romWf := hwf, romBelow := hbelow }

theorem State.Inv.setWork {w : Lz77Work} (hw : w.sound s.params.bufCap.val = true) : (s.setWork w).Inv :=
  { h with workSound := fun w' hw' => by cases hw'; exact hw }

theorem State.Inv.setPalette {bytes : List Byte} (comp : Bool) (hcap : bytes.length ≤ s.params.bufCap.val)
    (hwidth : bytes.length < 4294967296) : (s.setPalette bytes comp).Inv := by
  have hlen : (BitVec.ofNat 32 bytes.length).toNat = bytes.length := by
    rw [BitVec.toNat_ofNat, Nat.mod_eq_of_lt hwidth]
  exact { h with
    palLength := hlen.symm
    palCap := Nat.le_trans (Nat.le_of_eq hlen) hcap
    statusReserved := by simpa using h.statusReserved }

theorem State.Inv.setPlane {bytes : List Byte} (depth : BitVec 2) (comp : Bool)
    (hcap : bytes.length ≤ s.params.bufCap.val) (hwidth : bytes.length < 4294967296) :
    (s.setPlane bytes depth comp).Inv := by
  have hlen : (BitVec.ofNat 32 bytes.length).toNat = bytes.length := by
    rw [BitVec.toNat_ofNat, Nat.mod_eq_of_lt hwidth]
  exact { h with
    pixLength := hlen.symm
    pixCap := Nat.le_trans (Nat.le_of_eq hlen) hcap
    statusReserved := by simpa using h.statusReserved }

theorem State.Inv.deliver (consumer : Consumer) {bytes : List Byte} (comp : Bool)
    (hcap : bytes.length ≤ s.params.bufCap.val) (hwidth : bytes.length < 4294967296) :
    (deliver consumer bytes comp s).Inv := by
  cases consumer with
  | response => exact h.finish _
  | palette => exact (h.setPalette comp hcap hwidth).finish _
  | pixels depth => exact (h.setPlane depth comp hcap hwidth).finish _

theorem StreamStep.inv {t : State} {w : Lz77Work} (hw : s.work = some w) (taken : StreamStep w s t) : t.Inv := by
  have sound := h.workSound w hw
  cases taken with
  | goes w' c _ inRom _ _ _ keepsSound => exact (h.moveCursor inRom).setWork (keepsSound sound)
  | ends bytes c _ inRom _ capacity =>
    obtain ⟨hcap, hwidth⟩ := capacity sound
    exact (h.moveCursor inRom).deliver _ _ hcap hwidth
  | fails e info c _ inRom => exact (h.moveCursor (inRom h.cursorIn)).finish _

theorem Decompressed.inv {consumer : Consumer} {t : State} {a : Word} (run : Decompressed consumer s a t) :
    t.Inv := by
  cases run with
  | unread => exact h.finish _
  | done bytes c _ inRom capacity width => exact (h.moveCursor inRom).deliver _ _ capacity width
  | failed e info c _ inRom => exact (h.moveCursor inRom).finish _

theorem Loaded.inv {consumer : Consumer} {a : Word} {n : Nat} {t : State} (run : Loaded consumer a n s t) :
    t.Inv := by
  cases run with
  | unread => exact h.finish _
  | compressed inside _ _ run => exact run.inv (h.moveCursor inside)
  | tooLong inside => exact (h.moveCursor inside).finish _
  | tooLarge inside => exact (h.moveCursor inside).finish _
  | copied _ _ range capacity =>
    have hlen := Memory.length_bytes s.rom a.toNat n
    have hsize := s.params.romSize.isLt
    exact (h.moveCursor range).deliver _ _ (Nat.le_trans (Nat.le_of_eq hlen) capacity) (by omega)

theorem CommandEnd.inv {i : Instr} {t : State} (run : CommandEnd s i t) : t.Inv := by
  cases run with
  | accessed m c v d _ inRom _ wf below =>
    exact ((h.setRom (wf h.romWf) (below h.romBelow)).moveCursor inRom).finish ⟨0, v, d⟩
  | answered v d => exact h.finish ⟨0, v, d⟩
  | outside info => exact h.finish ⟨1, info, []⟩
  | decompressed run => exact run.inv h
  | paletteLoaded run => exact run.inv h
  | planeLoaded run => exact run.inv h

/-- Every instruction keeps the invariant, command or stream element. -/
theorem exec_inv {i : Instr} {t : State} (run : exec i s = .next t) : t.Inv := by
  cases hi : i.isCommand with
  | true => exact (exec_command_cases hi run).inv h
  | false =>
    obtain ⟨w, hw, taken⟩ := exec_element_cases hi run
    exact taken.inv h hw

end

/-- Settles O50: each way a step can end is built of updates that keep the invariant; the decoder's soundness gives the
length of what it delivers. -/
theorem invariantKept : Obligations.InvariantKept := by
  intro s t h hstep
  cases step_cases hstep with
  | element w running taken => exact taken.inv h running
  | idle => exact h
  | command c moves i _ _ _ run => exact exec_inv (h.setInbox moves) run
  | illegal c moves => exact (h.setInbox moves).finish _
  | reset m moves _ wf below => exact State.afterReset_inv (wf h.romWf) (below h.romBelow)

end Sys2Proof.Machine
end

section
/-! What a command or a stream element leaves unchanged (spec/10_state.md R21 to R30). -/
namespace Sys2Proof.Machine

/-- `t` has the ROM, both buffers with their registers and flags, the parameters, the reserved bits of `STATUS` and the
host's moves of `s`: all of the state but `CURSOR`, `STATUS.ERR`, the working state and the response. -/
def Framed (s t : State) : Prop := t.rom = s.rom ∧ samePalette s t ∧ samePlane s t ∧ sameBlock s t

theorem Framed.refl (s : State) : Framed s s := ⟨rfl, ⟨rfl, rfl, rfl⟩, ⟨rfl, rfl, rfl, rfl⟩, rfl, rfl, rfl⟩

theorem Framed.finish {s t : State} (h : Framed s t) (r : Response) : Framed s (t.finish r) := by
  obtain ⟨rom, palette, plane, block⟩ := h
  exact ⟨rom, by simpa [samePalette] using palette, by simpa [samePlane] using plane,
    by simpa [sameBlock] using block⟩

theorem Framed.moveCursor {s t : State} (h : Framed s t) (c : Nat) : Framed s (t.moveCursor c) := h

theorem Framed.setWork {s t : State} (h : Framed s t) (w : Lz77Work) : Framed s (t.setWork w) := h

/-- A decompression whose bytes go into the response touches neither buffer. -/
theorem Decompressed.framed {s t : State} {a : Word} (run : Decompressed .response s a t) : Framed s t := by
  cases run with
  | unread => exact (Framed.refl s).finish _
  | done bytes c => exact ((Framed.refl s).moveCursor c).finish _
  | failed e info c => exact ((Framed.refl s).moveCursor c).finish _

/-- Settles O22: of the ways a command can end, a load is excluded by name and a ROM write by `kept`. -/
theorem frameOfReadingCommands : Obligations.FrameOfReadingCommands := by
  intro i s t hi hr hpal hpix h
  suffices hframe : Framed s t ∧ (i.accessRange = none → i.readsStream = false → t.cursor = s.cursor) by
    obtain ⟨⟨rom, palette, plane, block⟩, cursor⟩ := hframe
    exact ⟨fun b => by rw [rom], rom, palette, plane, block, cursor⟩
  cases exec_command_cases hi h with
  | accessed m c v d accessor _ kept =>
    obtain rfl := kept hr
    exact ⟨((Framed.refl s).moveCursor c).finish ⟨0, v, d⟩, fun ha => absurd ha accessor⟩
  | answered v d => exact ⟨(Framed.refl s).finish ⟨0, v, d⟩, fun _ _ => rfl⟩
  | outside info => exact ⟨(Framed.refl s).finish ⟨1, info, []⟩, fun _ _ => rfl⟩
  | decompressed run => exact ⟨run.framed, fun _ hs => nomatch hs⟩
  | paletteLoaded => exact absurd rfl (hpal _ _)
  | planeLoaded => exact absurd rfl (hpix _ _ _)

section
variable (s : State) (consumer : Consumer) (bytes : List Byte) (comp : Bool)

theorem deliver_sameBlock : sameBlock s (deliver consumer bytes comp s) := by simp [sameBlock]

theorem deliver_samePalette (h : consumer ≠ .palette) : samePalette s (deliver consumer bytes comp s) := by
  cases consumer with
  | palette => exact absurd rfl h
  | response => simp [samePalette, deliver]
  | pixels depth => simp [samePalette, deliver]

theorem deliver_samePlane (h : ∀ depth, consumer ≠ .pixels depth) :
    samePlane s (deliver consumer bytes comp s) := by
  cases consumer with
  | pixels depth => exact absurd rfl (h depth)
  | response => simp [samePlane, deliver]
  | palette => simp [samePlane, deliver]

end

/-- Settles O25: an element moves `CURSOR` and the working state only, delivers the bytes of the command that runs, or
raises an error. -/
theorem frameOfStreamElements : Obligations.FrameOfStreamElements := by
  intro i s t hi h
  obtain ⟨w, hw, taken⟩ := exec_element_cases hi h
  cases taken with
  | goes w' c =>
    obtain ⟨rom, palette, plane, block⟩ := ((Framed.refl s).moveCursor c).setWork w'
    exact ⟨fun _ => rfl, rom, block, fun _ _ => ⟨rfl, rfl, palette, plane⟩,
      fun _ _ => ⟨fun _ => palette, fun _ => plane⟩⟩
  | ends bytes c =>
    refine ⟨fun b => by simp, by simp, deliver_sameBlock (s.moveCursor c) .., fun _ hw' => ?_, fun v hv => ?_⟩
    · simp at hw'
    · rw [hw] at hv; cases hv
      exact ⟨deliver_samePalette (s.moveCursor c) _ _ _, deliver_samePlane (s.moveCursor c) _ _ _⟩
  | fails e info c =>
    obtain ⟨rom, palette, plane, block⟩ := ((Framed.refl s).moveCursor c).finish ⟨errorCode e, info, []⟩
    exact ⟨fun _ => rfl, rom, block, fun _ hw' => (nomatch hw'), fun _ _ => ⟨fun _ => palette, fun _ => plane⟩⟩

end Sys2Proof.Machine
end

section
/-! `READ_REG` (spec/44_system.md R230, spec/10_state.md R28, R36). -/
namespace Sys2Proof.Machine

theorem decode_readReg {c : Command} {r : RegName} (hc : c.cmd = 0x40#32) (hr : regOfIndex c.index = some r) :
    decode c = .ok (.readReg r) := by
  simp [decode, decodeOp, reservedField, opField, readRegForm, hr, plainForm, accessorForm, aField, depthField, hc]

theorem decode_readReg_unassigned {c : Command} (hc : c.cmd = 0x40#32) (hr : regOfIndex c.index = none) :
    decode c = .error .unassignedRegister := by
  simp [decode, decodeOp, reservedField, opField, readRegForm, hr, hc]

theorem regOfIndex_eq_none {index : Word} (h : 7 ≤ index.toNat) : regOfIndex index = none := by
  obtain ⟨k, hk⟩ := Nat.exists_eq_add_of_le' h
  unfold regOfIndex
  rw [hk]; rfl

theorem exec_readReg (r : RegName) (s : State) :
    exec (.readReg r) s = .next (s.succeeded s.cursor (regValue r s) []) := rfl

/-- `CONFIG` has the three mode bits and nothing above them (R28). -/
theorem configWord_bits (p : Params) :
    (configWord p).getLsbD 0 = decide (p.bulkWrite = .legacyByte) ∧
    (configWord p).getLsbD 1 = decide (p.pixel = .legacy) ∧
    (configWord p).getLsbD 2 = decide (p.overrun = .fault) ∧ (configWord p).toNat < 8 := by
  unfold configWord
  generalize decide (p.bulkWrite = .legacyByte) = b0, decide (p.pixel = .legacy) = b1,
    decide (p.overrun = .fault) = b2
  revert b0 b1 b2; decide

/-- Settles O47: the register numbers are decoded one by one; `CONFIG` is read by its bits. -/
theorem registersRead : Obligations.RegistersRead := by
  refine ⟨fun c hc => ?_, fun s => ⟨exec_readReg .cursor s, exec_readReg .status s, exec_readReg .palLen s,
    exec_readReg .pixLen s, exec_readReg .pixDepth s, exec_readReg .romSize s,
    configWord s.params, exec_readReg .config s, configWord_bits s.params⟩⟩
  have named {n : Word} {r : RegName} (hr : regOfIndex n = some r) (hn : c.index = n) :
      decode c = .ok (.readReg r) := decode_readReg hc (hn ▸ hr)
  exact ⟨named rfl, named rfl, named rfl, named rfl, named rfl, named rfl, named rfl,
    fun h => ⟨_, decode_readReg_unassigned hc (regOfIndex_eq_none h)⟩⟩

end Sys2Proof.Machine
end

section
/-! No command but `READ_REG 1` sees `STATUS.ERR` (spec/10_state.md R35, spec/44_system.md R232). -/
namespace Sys2Proof.Machine

/-- The state with `STATUS.ERR` set to a code, as the previous command would have left it. -/
def State.setErr (s : State) (code : BitVec 4) : State := { s with status := withErr s.status code }

/-! ### What does not see the code -/

section
variable (s : State) (code : BitVec 4)

@[simp] theorem State.setErr_params : (s.setErr code).params = s.params := rfl
@[simp] theorem State.setErr_rom : (s.setErr code).rom = s.rom := rfl
@[simp] theorem State.setErr_cursor : (s.setErr code).cursor = s.cursor := rfl
@[simp] theorem State.setErr_palLen : (s.setErr code).palLen = s.palLen := rfl
@[simp] theorem State.setErr_pixLen : (s.setErr code).pixLen = s.pixLen := rfl
@[simp] theorem State.setErr_pixDepth : (s.setErr code).pixDepth = s.pixDepth := rfl
@[simp] theorem State.setErr_palBuf : (s.setErr code).palBuf = s.palBuf := rfl
@[simp] theorem State.setErr_pixBuf : (s.setErr code).pixBuf = s.pixBuf := rfl
@[simp] theorem State.setErr_work : (s.setErr code).work = s.work := rfl

@[simp] theorem State.setErr_moveCursor (a : Nat) : (s.setErr code).moveCursor a = (s.moveCursor a).setErr code := rfl
@[simp] theorem State.setErr_setRom (m : Memory) : (s.setErr code).setRom m = (s.setRom m).setErr code := rfl
@[simp] theorem State.setErr_setWork (w : Lz77Work) : (s.setErr code).setWork w = (s.setWork w).setErr code := rfl

/-- The end of a command writes `STATUS.ERR`, so what it was is gone (R232). -/
@[simp] theorem State.setErr_finish (r : Response) : (s.setErr code).finish r = s.finish r := by
  simp [State.finish, State.setErr]

@[simp] theorem State.setErr_respond (v : Word) (d : List Word) : (s.setErr code).respond v d = s.respond v d :=
  s.setErr_finish code _

@[simp] theorem State.setErr_raise (e : Error) (info : Word) : (s.setErr code).raise e info = s.raise e info :=
  s.setErr_finish code _

@[simp] theorem setErr_inBounds (a n : Nat) : inBounds (s.setErr code) a n = inBounds s a n := rfl

@[simp] theorem setErr_base (start : Start) : base start (s.setErr code) = base start s := by cases start <;> rfl

@[simp] theorem setErr_deliver (consumer : Consumer) (bytes : List Byte) (comp : Bool) :
    deliver consumer bytes comp (s.setErr code) = deliver consumer bytes comp s := by
  cases consumer with
  | response => exact s.setErr_respond code _ _
  | palette => simp [deliver, State.respond, State.finish, State.setPalette, State.setErr, withPalComp_withErr]
  | pixels depth => simp [deliver, State.respond, State.finish, State.setPlane, State.setErr, withPixComp_withErr]

@[simp] theorem setErr_streamEnds : streamEnds (s.setErr code) = streamEnds s := by simp [streamEnds]

@[simp] theorem setErr_streamRejects (r : Reject) : streamRejects r (s.setErr code) = streamRejects r s := by
  cases r <;> simp [streamRejects]

@[simp] theorem setErr_fetchElement (w : Lz77Work) : fetchElement w (s.setErr code) = fetchElement w s := rfl

end

/-! ### A decompression carries the code along until it ends -/

/-- `t'` is `t`, or a decompression still runs and `t'` is `t` with another `STATUS.ERR`. -/
inductive SameButErr (code : BitVec 4) (t : State) : State → Prop where
  | ended : SameButErr code t t
  | running (w : Lz77Work) (work : t.work = some w) : SameButErr code t (t.setErr code)

section
variable (s : State) (code : BitVec 4) (w : Lz77Work)

theorem mainLoop_sameButErr : SameButErr code (mainLoop w s) (mainLoop w (s.setErr code)) := by
  unfold mainLoop
  split
  · exact .running _ rfl
  · rw [setErr_deliver]; exact .ended

theorem afterItem_sameButErr (leave : Bool) :
    SameButErr code (afterItem leave w s) (afterItem leave w (s.setErr code)) := by
  unfold afterItem
  split
  · exact mainLoop_sameButErr s code w
  · exact .running _ rfl

theorem consume_sameButErr (n : Nat) {f f' : State → State}
    (hf : ∀ t, SameButErr code (f t) (f' (t.setErr code))) :
    SameButErr code (consume n s f) (consume n (s.setErr code) f') := by
  unfold consume
  simp only [State.setErr_cursor, setErr_inBounds, State.setErr_moveCursor, setErr_streamEnds]
  split
  · exact hf _
  · exact .ended

theorem takeHeader_sameButErr (n : Nat) (length : Word) :
    SameButErr code (takeHeader n length w s) (takeHeader n length w (s.setErr code)) := by
  refine consume_sameButErr s code n fun t => ?_
  simp only [State.setErr_params, State.setErr_raise]
  split
  · exact .ended
  · exact mainLoop_sameButErr t code _

theorem takeFlags_sameButErr (f : Byte) :
    SameButErr code (takeFlags f w s) (takeFlags f w (s.setErr code)) := by
  refine consume_sameButErr s code 1 fun t => ?_
  exact .running _ rfl

theorem takeLiteral_sameButErr (x : Byte) :
    SameButErr code (takeLiteral x w s) (takeLiteral x w (s.setErr code)) := by
  refine consume_sameButErr s code 1 fun t => ?_
  split
  · exact afterItem_sameButErr t code _ _
  · exact afterItem_sameButErr t code _ _

theorem takeRef_sameButErr (len : BitVec 4) (offset : BitVec 12) :
    SameButErr code (takeRef len offset w s) (takeRef len offset w (s.setErr code)) := by
  unfold takeRef
  refine consume_sameButErr s code 2 fun t => ?_
  simp only [State.setErr_params, State.setErr_cursor, State.setErr_raise]
  split
  · exact .ended
  · split
    · exact .ended
    · exact afterItem_sameButErr t code _ _

theorem takeElement_sameButErr (e : Element) :
    SameButErr code (takeElement e w s) (takeElement e w (s.setErr code)) := by
  cases e with
  | hdr l3 => exact takeHeader_sameButErr s code w 4 _
  | hdrx l4 => exact takeHeader_sameButErr s code w 8 l4
  | flags f => exact takeFlags_sameButErr s code w f
  | lit b => exact takeLiteral_sameButErr s code w b
  | ref len offset => exact takeRef_sameButErr s code w len offset

end

theorem SameButErr.elementStep {s s' : State} {code : BitVec 4} (h : SameButErr code s s') :
    SameButErr code (elementStep s) (elementStep s') := by
  cases h with
  | ended => exact .ended
  | running w work =>
    unfold Machine.elementStep
    simp only [State.setErr_work, work, setErr_fetchElement, setErr_streamRejects]
    split
    · exact takeElement_sameButErr s code w _
    · exact .ended

theorem SameButErr.work_eq {s s' : State} {code : BitVec 4} (h : SameButErr code s s') : s'.work = s.work := by
  cases h with
  | ended => rfl
  | running => rfl

theorem SameButErr.eq_of_work {s s' : State} {code : BitVec 4} (h : SameButErr code s s') (hs : s.work = none) :
    s' = s := by
  cases h with
  | ended => rfl
  | running w work => rw [hs] at work; cases work

section
variable (s : State) (code : BitVec 4)

@[simp] theorem setErr_lz77 (consumer : Consumer) (a : Word) :
    lz77 consumer a (s.setErr code) = lz77 consumer a s := by
  unfold lz77
  simp only [setErr_inBounds, State.setErr_params, State.setErr_moveCursor, State.setErr_setWork, State.setErr_raise]
  split
  · refine (drain_induct₂ (SameButErr code) (fun _ _ => SameButErr.work_eq) (fun _ _ _ _ => SameButErr.elementStep)
      _ _ _ (.running _ rfl)).eq_of_work (drain_work _ _ ?_)
    simp
  · rfl

@[simp] theorem setErr_loadAsset (consumer : Consumer) (a : Word) (n : Nat) :
    loadAsset consumer a n (s.setErr code) = loadAsset consumer a n s := by
  simp [loadAsset]

/-! ### The accessors and the registers -/

theorem setErr_scalarRead (start : Start) (w : Nat) (f : Word → Word) :
    scalarRead start w f (s.setErr code) = scalarRead start w f s := by simp [scalarRead]

theorem setErr_bulkRead (start : Start) (w : Nat) (count : Word) :
    bulkRead start w count (s.setErr code) = bulkRead start w count s := by simp [bulkRead]

theorem setErr_scalarWrite (start : Start) (w : Nat) (v : Word) :
    scalarWrite start w v (s.setErr code) = scalarWrite start w v s := by simp [scalarWrite]

theorem setErr_bulkWrite (start : Start) (w : Nat) (data : List Word) :
    bulkWrite start w data (s.setErr code) = bulkWrite start w data s := by simp [bulkWrite]

theorem setErr_regValue {r : RegName} (h : r ≠ .status) : regValue r (s.setErr code) = regValue r s := by
  cases r with
  | status => exact absurd rfl h
  | cursor | palLen | pixLen | pixDepth | romSize | config => rfl

end

/-- Settles O55: no shared body of a command sees `STATUS.ERR`, and a decompression carries it along unread until its
end writes it. -/
theorem previousResultIsNeverConsulted : Obligations.PreviousResultIsNeverConsulted := by
  intro i s code hi hreg
  change exec i (s.setErr code) = exec i s
  cases i with
  | readU8 | readU16 | readU32 | readPtr => exact congrArg Host.Outcome.next (setErr_scalarRead ..)
  | readU8N | readU16N | readU32N => exact congrArg Host.Outcome.next (setErr_bulkRead ..)
  | writeU8 | writeU16 | writeU32 => exact congrArg Host.Outcome.next (setErr_scalarWrite ..)
  | writeU8N | writeU16N | writeU32N => exact congrArg Host.Outcome.next (setErr_bulkWrite ..)
  | lz77Decompress => exact congrArg Host.Outcome.next (setErr_lz77 ..)
  | paletteLoad | pixelLoad => exact congrArg Host.Outcome.next (setErr_loadAsset ..)
  | paletteGet => simp [exec, execPaletteGet]
  | pixelGet => simp [exec, execPixelGet]
  | rgbUnpack => simp [exec, execRgbUnpack]
  | readReg r =>
    have hr : r ≠ .status := fun h => hreg (h ▸ rfl)
    simp [exec, execReadReg, setErr_regValue s code hr]
  | lz77Hdr | lz77Hdrx | lz77Flags | lz77Lit | lz77Ref => cases hi

end Sys2Proof.Machine
end

section
/-! One step of a running decompression (spec/30_encoding.md R97, spec/20_memory.md R58): the element at `CURSOR` is
run, and a stream whose next element is cut off ends at the end of the ROM. -/
namespace Sys2Proof.Machine

/-! ### What the step does with the bytes at `CURSOR` -/

theorem step_of_fetchElement_ok {s : State} {w : Lz77Work} {e : Element} (hw : s.work = some w)
    (he : fetchElement w s = .ok e) : step s = exec (elementInstr e) s := by
  simp [step, fetch, hw, fetchStream, he]

theorem step_of_fetchElement_error {s : State} {w : Lz77Work} {r : Reject} (hw : s.work = some w)
    (hr : fetchElement w s = .error r) : step s = .next (streamRejects r s) := by
  simp [step, fetch, hw, fetchStream, hr]

/-- Settles O8: in a running decompression the step fetches an element, and runs it. -/
theorem stepRunsTheNextElement : Obligations.StepRunsTheNextElement :=
  fun _ _ _ hw he => step_of_fetchElement_ok hw he

/-! ### An element that is cut off -/

/-- From a `CURSOR` in the ROM, the first byte that cannot be read is the one at `P_ROM_SIZE`. -/
theorem streamEnds_eq_failed {s : State} (h : s.cursor.toNat ≤ s.params.romSize.toNat) :
    streamEnds s = s.failed s.params.romSize 1 s.params.romSize := by
  simp [streamEnds, Nat.max_eq_right h, State.moveCursor_raise, errorCode]

theorem step_of_truncated {s : State} {w : Lz77Work} (hw : s.work = some w)
    (hc : s.cursor.toNat ≤ s.params.romSize.toNat)
    (hr : decodeElement (nextExpect w) (streamBytes s) = .error .truncated) :
    step s = .next (s.failed s.params.romSize 1 s.params.romSize) := by
  rw [step_of_fetchElement_error hw hr, ← streamEnds_eq_failed hc]; rfl

theorem decodeElement_nil (x : Expect) : decodeElement x [] = .error .truncated := by cases x <;> rfl

theorem decodeElement_backRef_truncated {bs : List Byte} (h : bs.length < 2) :
    decodeElement .backRef bs = .error .truncated := by
  match bs with
  | [] | [_] => rfl
  | _ :: _ :: _ => simp only [List.length_cons] at h; omega

theorem decodeLength_short_truncated {bs : List Byte} (h : bs.length < 3) :
    decodeLength bs = .error .truncated := by
  match bs with
  | [] | [_] | [_, _] => rfl
  | _ :: _ :: _ :: _ => simp only [List.length_cons] at h; omega

theorem decodeLength_extended_truncated {bs : List Byte} (h : bs.length < 4) :
    decodeLength (0 :: 0 :: 0 :: bs) = .error .truncated := by
  match bs with
  | [] | [_] | [_, _] | [_, _, _] => rfl
  | _ :: _ :: _ :: _ :: _ => simp only [List.length_cons] at h; omega

/-! ### The bytes at `CURSOR` near the end of the ROM -/

theorem Memory.bytes_succ (m : Memory) (a n : Nat) : m.bytes a (n + 1) = m.byte a :: m.bytes (a + 1) n := by
  simp [Memory.bytes, List.range_succ_eq_map, Nat.add_right_comm, Nat.add_assoc]

theorem streamBytes_at_end {s : State} (h : s.cursor.toNat = s.params.romSize.toNat) : streamBytes s = [] :=
  List.eq_nil_of_length_eq_zero (by rw [streamBytes_length]; omega)

/-- With `n` bytes left, at most eight, the stream bytes are those `n`. -/
theorem streamBytes_eq_bytes {s : State} {n : Nat} (h : s.cursor.toNat + n = s.params.romSize.toNat) (hn : n ≤ 8) :
    streamBytes s = s.rom.bytes s.cursor.toNat n := by
  rw [streamBytes, show min 8 (s.params.romSize.toNat - s.cursor.toNat) = n by omega]

/-- A header that begins with its marker is cut off inside its first four bytes, or inside its last four where the
three length bytes are 0 (spec/30_encoding.md R91, R92). -/
theorem decodeElement_header_truncated {s : State} (hc : s.cursor.toNat < s.params.romSize.toNat)
    (marker : s.rom.byte s.cursor.toNat = 0x10#8)
    (cut : s.params.romSize.toNat < s.cursor.toNat + 4 ∨
      (s.rom.byte (s.cursor.toNat + 1) = 0 ∧ s.rom.byte (s.cursor.toNat + 2) = 0 ∧
        s.rom.byte (s.cursor.toNat + 3) = 0 ∧ s.params.romSize.toNat < s.cursor.toNat + 8)) :
    decodeElement .header (streamBytes s) = .error .truncated := by
  obtain ⟨n, hn⟩ : ∃ n, s.cursor.toNat + (n + 1) = s.params.romSize.toNat :=
    ⟨s.params.romSize.toNat - s.cursor.toNat - 1, by omega⟩
  rw [streamBytes_eq_bytes hn (by omega), Memory.bytes_succ, marker]
  change decodeLength (s.rom.bytes (s.cursor.toNat + 1) n) = _
  by_cases hshort : n < 3
  · exact decodeLength_short_truncated (by rwa [Memory.length_bytes])
  · obtain ⟨h1, h2, h3, hsize⟩ := cut.resolve_left (by omega)
    obtain ⟨k, rfl⟩ := Nat.exists_eq_add_of_le' (Nat.le_of_not_lt hshort)
    rw [Memory.bytes_succ, Memory.bytes_succ, Memory.bytes_succ, h1, h2, h3]
    exact decodeLength_extended_truncated (by rw [Memory.length_bytes]; omega)

/-- Settles O9: in every case the bytes left are too few for the element that is expected. -/
theorem streamPastTheRomEnd : Obligations.StreamPastTheRomEnd := by
  intro s w hw hc
  refine ⟨fun hx start cut => ?_, fun _ hend => ?_, fun hx cut => ?_⟩ <;> refine step_of_truncated hw hc ?_
  · by_cases hend : s.cursor.toNat = s.params.romSize.toNat
    · rw [streamBytes_at_end hend]; exact decodeElement_nil _
    · rw [hx]
      exact decodeElement_header_truncated (Nat.lt_of_le_of_ne hc hend) (start.resolve_left hend) cut
  · rw [streamBytes_at_end hend]; exact decodeElement_nil _
  · rw [hx]
    exact decodeElement_backRef_truncated (by rw [streamBytes_length]; omega)

end Sys2Proof.Machine
end

section
/-! Reads of the ROM after writes of it (spec/20_memory.md R53, R57, R62), and the buffers, which no ROM write reaches
(R66). -/
namespace Sys2Proof.Machine

/-! ### A value written and read back -/

/-- `MemRead` after a `MemWrite` of as many bytes at the same place: the bytes stored, zero-extended. -/
theorem Memory.readLE_writeLE (m : Memory) (a : Nat) (v : Word) (n : Nat) (hm : m.wf = true) :
    (m.writeLE a v n).readLE a n = (v.setWidth (8 * n)).setWidth 32 := by
  refine BitVec.eq_of_getLsbD_eq fun i hi => ?_
  rw [Memory.getLsbD_readLE, BitVec.getLsbD_setWidth, BitVec.getLsbD_setWidth]
  by_cases h : i < 8 * n
  · rw [Memory.byte_writeLE m a v n hm, if_pos (by omega), BitVec.getLsbD_extractLsb',
      show 8 * (a + i / 8 - a) + i % 8 = i by omega]
    simp [h, hi, Nat.mod_lt]
  · simp [h]

/-- What a scalar read inside the ROM answers. -/
theorem scalarRead_response {s : State} {start : Start} {a : Word} (w : Nat) (h : startsAt start s a)
    (hb : a.toNat + w ≤ s.params.romSize.toNat) :
    (scalarRead start w id s).response = some ⟨0, s.rom.readLE a.toNat w, []⟩ := by
  rw [scalarRead_fits w id h hb]; rfl

theorem scalarRead_scalarWrite_response {s : State} {a : Word} (v : Word) (n : Nat) (hm : s.rom.wf = true)
    (hb : a.toNat + n ≤ s.params.romSize.toNat) :
    (scalarRead (.addressed a) n id (scalarWrite (.addressed a) n v s)).response =
      some ⟨0, (v.setWidth (8 * n)).setWidth 32, []⟩ := by
  rw [scalarWrite_fits n v (.inl rfl) hb, ← Memory.readLE_writeLE s.rom a.toNat v n hm]
  exact scalarRead_response n (.inl rfl) hb

/-- Settles O21: each width is `MemRead` after `MemWrite`. -/
theorem writeThenReadBack : Obligations.WriteThenReadBack := by
  intro s a v hm
  refine ⟨fun hb => ⟨_, _, rfl, rfl, scalarRead_scalarWrite_response v 1 hm hb⟩,
    fun hb => ⟨_, _, rfl, rfl, scalarRead_scalarWrite_response v 2 hm hb⟩, fun hb => ⟨_, _, rfl, rfl, ?_⟩⟩
  rw [scalarRead_scalarWrite_response v 4 hm hb]
  simp

/-! ### Three widths over the same four bytes -/

/-- An address a few bytes on, inside the ROM, does not wrap. -/
theorem toNat_ofNat_of_le_romSize {s : State} {a : Nat} (h : a ≤ s.params.romSize.toNat) :
    (BitVec.ofNat 32 a).toNat = a := by
  rw [BitVec.toNat_ofNat, Nat.mod_eq_of_lt (Nat.lt_of_le_of_lt h s.params.romSize.isLt)]

theorem scalarRead_addressed_response {s : State} {a : Nat} (w : Nat) (hb : a + w ≤ s.params.romSize.toNat) :
    (scalarRead (.addressed (BitVec.ofNat 32 a)) w id s).response = some ⟨0, s.rom.readLE a w, []⟩ := by
  have ha := toNat_ofNat_of_le_romSize (Nat.le_of_add_right_le hb)
  rw [scalarRead_response w (.inl rfl) (by rwa [ha]), ha]

theorem scalarWrite_addressed {s : State} {a : Nat} (w : Nat) (v : Word) (hb : a + w ≤ s.params.romSize.toNat) :
    scalarWrite (.addressed (BitVec.ofNat 32 a)) w v s =
      (s.setRom (s.rom.writeLE a v w)).succeeded (BitVec.ofNat 32 (a + w)) 0 [] := by
  have ha := toNat_ofNat_of_le_romSize (Nat.le_of_add_right_le hb)
  rw [scalarWrite_fits w v (.inl rfl) (by rwa [ha]), ha]

/-- `MemWrite` of two bytes: the low one, the high one, and every other byte as it was. -/
theorem Memory.byte_writeLE_two (m : Memory) (a : Nat) (v : Word) (hm : m.wf = true) :
    (m.writeLE a v 2).byte a = v.extractLsb' 0 8 ∧ (m.writeLE a v 2).byte (a + 1) = v.extractLsb' 8 8 ∧
    ∀ k, k ≠ a → k ≠ a + 1 → (m.writeLE a v 2).byte k = m.byte k := by
  refine ⟨?_, ?_, fun k h1 h2 => ?_⟩
  · rw [Memory.byte_writeLE m a v 2 hm, if_pos (by omega), Nat.sub_self]
  · rw [Memory.byte_writeLE m a v 2 hm, if_pos (by omega), Nat.add_sub_cancel_left]
  · rw [Memory.byte_writeLE m a v 2 hm, if_neg (by omega)]

/-- Settles O20: every read is the little-endian value of the bytes at its place, and the write stores byte by byte. -/
theorem mixedWidthView : Obligations.MixedWidthView := by
  intro s a v hm hb b at_
  obtain ⟨low, (high : (s.rom.writeLE (a.toNat + 1) v 2).byte (a.toNat + 2) = _), kept⟩ :=
    Memory.byte_writeLE_two s.rom (a.toNat + 1) v hm
  refine ⟨fun k hk => ⟨_, rfl, ?_⟩, ⟨_, rfl, ?_⟩, ⟨_, rfl, ?_⟩, ⟨_, rfl, ?_⟩, _, _,
    congrArg Host.Outcome.next (scalarWrite_addressed 2 v (by omega)), low, high, kept, rfl, ?_⟩
  · rw [scalarRead_addressed_response 1 (by omega), readLE_one]
  · rw [scalarRead_addressed_response 2 (by omega), readLE_two]; rfl
  · rw [scalarRead_addressed_response 2 (by omega), readLE_two]; rfl
  · rw [scalarRead_addressed_response 4 (by omega), readLE_four]; rfl
  · rw [scalarRead_addressed_response 4 (by exact hb), readLE_four]
    simp only [State.succeeded_rom, State.setRom_rom, romU32, romU8, low, high, kept a.toNat (by omega) (by omega),
      kept (a.toNat + 3) (by omega) (by omega), b, Nat.add_zero]

/-! ### The buffers after a ROM write -/

theorem isCommand_of_writesRom {i : Instr} (h : i.writesRom = true) : i.isCommand = true := by
  cases i with
  | writeU8 | writeU16 | writeU32 | writeU8N | writeU16N | writeU32N => rfl
  | _ => cases h

/-- A command that writes the ROM leaves both buffers, their registers and the parameters. -/
theorem exec_write_keeps_buffers {i : Instr} {s t : State} (hi : i.writesRom = true) (h : exec i s = .next t) :
    samePalette s t ∧ samePlane s t ∧ sameBlock s t := by
  cases exec_command_cases (isCommand_of_writesRom hi) h with
  | accessed m c v d =>
    exact (((Framed.refl (s.setRom m)).moveCursor c).finish ⟨0, v, d⟩).2
  | answered v d => exact ((Framed.refl s).finish ⟨0, v, d⟩).2
  | outside info => exact ((Framed.refl s).finish ⟨1, info, []⟩).2
  | decompressed | paletteLoaded | planeLoaded => cases hi

/-- `PALETTE_GET` sees the palette side of the state alone. -/
theorem exec_paletteGet_of_samePalette {s t : State} (index : Word) (h : samePalette s t) :
    ∃ u v, exec (.paletteGet index) s = .next u ∧ exec (.paletteGet index) t = .next v ∧
      v.response = u.response := by
  obtain ⟨buf, len, -⟩ := h
  by_cases hi : s.palLen.toNat / 2 ≤ index.toNat
  · exact ⟨_, _, if_pos hi, if_pos (len ▸ hi), rfl⟩
  · exact ⟨_, _, if_neg hi, if_neg (len ▸ hi), by simp [buf]⟩

/-- `PIXEL_GET` sees the plane side of the state and the parameters alone. -/
theorem exec_pixelGet_of_samePlane {s t : State} (index : Word) (h : samePlane s t) (hp : t.params = s.params) :
    ∃ u v, exec (.pixelGet index) s = .next u ∧ exec (.pixelGet index) t = .next v ∧
      v.response = u.response := by
  obtain ⟨buf, len, depth, -⟩ := h
  by_cases hi : s.pixLen.toNat * pixelsPerByte s.pixDepth ≤ index.toNat
  · exact ⟨_, _, if_pos hi, if_pos (by rwa [len, depth]), rfl⟩
  · exact ⟨_, _, if_neg hi, if_neg (by rwa [len, depth]), by simp [buf, depth, hp]⟩

/-- Settles O56: a ROM write leaves all that the two commands see. -/
theorem buffersAreSnapshots : Obligations.BuffersAreSnapshots := by
  intro i s t index hi h
  obtain ⟨palette, plane, params, -⟩ := exec_write_keeps_buffers hi h
  obtain ⟨u, v, hu, hv, color⟩ := exec_paletteGet_of_samePalette index palette
  obtain ⟨x, y, hx, hy, pixel⟩ := exec_pixelGet_of_samePlane index plane params
  exact ⟨u, v, x, y, hu, hv, hx, hy, color, pixel⟩

end Sys2Proof.Machine
end

section
/-! The fields of a command word as numbers (spec/30_encoding.md R81): a word is its four fields, and with its reserved
bits 0 it is the word the encoder builds from the other three. -/
namespace Sys2Proof

theorem opField_toNat (cmd : Word) : (opField cmd).toNat = cmd.toNat % 256 := by
  simp [opField]

theorem aField_eq_true (cmd : Word) : aField cmd = true ↔ cmd.toNat / 256 % 2 = 1 := by
  simp [aField, BitVec.getLsbD, Nat.testBit_eq_decide_div_mod_eq]

theorem aField_eq_false (cmd : Word) : aField cmd = false ↔ cmd.toNat / 256 % 2 = 0 := by
  rw [← Bool.not_eq_true, aField_eq_true]; omega

theorem depthField_toNat (cmd : Word) : (depthField cmd).toNat = cmd.toNat / 512 % 4 := by
  simp [depthField, Nat.shiftRight_eq_div_pow]

theorem reservedField_toNat (cmd : Word) : (reservedField cmd).toNat = cmd.toNat / 2048 := by
  have := cmd.isLt
  rw [reservedField, BitVec.extractLsb'_toNat, Nat.shiftRight_eq_div_pow]
  omega

theorem depthField_eq_zero (cmd : Word) : depthField cmd = 0 ↔ cmd.toNat / 512 % 4 = 0 := by
  rw [← BitVec.toNat_inj, depthField_toNat]; rfl

theorem reservedField_eq_zero (cmd : Word) : reservedField cmd = 0 ↔ cmd.toNat / 2048 = 0 := by
  rw [← BitVec.toNat_inj, reservedField_toNat]; rfl

theorem commandWord_toNat (op : Byte) (a : Bool) (depth : BitVec 2) :
    (commandWord op a depth).toNat = depth.toNat * 512 + a.toNat * 256 + op.toNat := by
  have low : (BitVec.ofBool a ++ op).toNat = a.toNat * 256 + op.toNat := by
    rw [BitVec.toNat_append, ← Nat.shiftLeft_add_eq_or_of_lt op.isLt, Nat.shiftLeft_eq, BitVec.toNat_ofBool]
  have high : ((0#21 ++ depth) : BitVec 23).toNat = depth.toNat := by
    rw [BitVec.toNat_append]; simp
  unfold commandWord
  refine (BitVec.toNat_append ..).trans ?_
  rw [← Nat.shiftLeft_add_eq_or_of_lt (BitVec.isLt _), Nat.shiftLeft_eq, low, high]
  omega

@[simp] theorem opField_commandWord (op : Byte) (a : Bool) (depth : BitVec 2) :
    opField (commandWord op a depth) = op := by
  refine BitVec.eq_of_toNat_eq ?_
  rw [opField_toNat, commandWord_toNat]
  omega

@[simp] theorem aField_commandWord (op : Byte) (a : Bool) (depth : BitVec 2) :
    aField (commandWord op a depth) = a := Laws.EncodedForm.a_commandWord op a depth

@[simp] theorem depthField_commandWord (op : Byte) (a : Bool) (depth : BitVec 2) :
    depthField (commandWord op a depth) = depth := by
  refine BitVec.eq_of_toNat_eq ?_
  have := a.toNat_le
  rw [depthField_toNat, commandWord_toNat]
  omega

@[simp] theorem reservedField_commandWord (op : Byte) (a : Bool) (depth : BitVec 2) :
    reservedField (commandWord op a depth) = 0 := Laws.EncodedForm.reserved_commandWord op a depth

/-- A word whose reserved bits are 0 is built of its other fields. -/
theorem commandWord_fields {cmd : Word} (h : reservedField cmd = 0) :
    commandWord (opField cmd) (aField cmd) (depthField cmd) = cmd := by
  refine BitVec.eq_of_toNat_eq ?_
  rw [reservedField_eq_zero] at h
  have ha : (aField cmd).toNat = cmd.toNat / 256 % 2 := by
    cases hb : aField cmd with
    | true => exact ((aField_eq_true cmd).1 hb).symm
    | false => exact ((aField_eq_false cmd).1 hb).symm
  rw [commandWord_toNat, opField_toNat, depthField_toNat, ha]
  omega

end Sys2Proof
end

section
/-! The decoder of stream elements reads what their encoder writes (spec/30_encoding.md R91 to R97). -/
namespace Sys2Proof

/-! ### Little-endian assembly -/

theorem byteOf_toNat {w : Nat} (v : BitVec w) (k : Nat) : (byteOf v k).toNat = v.toNat / 2 ^ (8 * k) % 256 := by
  rw [byteOf, BitVec.extractLsb'_toNat, Nat.shiftRight_eq_div_pow]

theorem append_byte_toNat {w : Nat} (v : BitVec w) (b : Byte) : (v ++ b).toNat = v.toNat * 256 + b.toNat := by
  rw [BitVec.toNat_append, ← Nat.shiftLeft_add_eq_or_of_lt b.isLt, Nat.shiftLeft_eq]

theorem le24_toNat (b1 b2 b3 : Byte) :
    (le24 b1 b2 b3).toNat = b1.toNat + 256 * (b2.toNat + 256 * b3.toNat) := by
  refine (append_byte_toNat (b3 ++ b2) b1).trans ?_
  rw [append_byte_toNat]
  omega

theorem le32_toNat (b4 b5 b6 b7 : Byte) :
    (le32 b4 b5 b6 b7).toNat = b4.toNat + 256 * (b5.toNat + 256 * (b6.toNat + 256 * b7.toNat)) := by
  refine (append_byte_toNat (b7 ++ b6 ++ b5) b4).trans ?_
  rw [append_byte_toNat, append_byte_toNat]
  omega

theorem le24_byteOf (v : BitVec 24) : le24 (byteOf v 0) (byteOf v 1) (byteOf v 2) = v := by
  refine BitVec.eq_of_toNat_eq ?_
  simp only [le24_toNat, byteOf_toNat]
  omega

theorem le32_byteOf (v : Word) : le32 (byteOf v 0) (byteOf v 1) (byteOf v 2) (byteOf v 3) = v := by
  refine BitVec.eq_of_toNat_eq ?_
  simp only [le32_toNat, byteOf_toNat]
  omega

/-! ### The elements -/

theorem decodeLength_short {b1 b2 b3 : Byte} (rest : List Byte) (h : le24 b1 b2 b3 ≠ 0) :
    decodeLength (b1 :: b2 :: b3 :: rest) = .ok (.hdr (le24 b1 b2 b3)) := if_pos h

theorem decodeLength_extended {b1 b2 b3 : Byte} (b4 b5 b6 b7 : Byte) (rest : List Byte) (h : le24 b1 b2 b3 = 0) :
    decodeLength (b1 :: b2 :: b3 :: b4 :: b5 :: b6 :: b7 :: rest) = .ok (.hdrx (le32 b4 b5 b6 b7)) :=
  if_neg (Decidable.not_not.2 h)

/-- The two bytes of a back-reference hold its length and its offset (R95). -/
theorem decodeElement_backRef (len : BitVec 4) (offset : BitVec 12) (rest : List Byte) :
    decodeElement .backRef (encodeElement (.ref len offset) ++ rest) = .ok (.ref len offset) := by
  have hv : (len ++ offset.extractLsb' 8 4 : Byte).toNat = len.toNat * 16 + offset.toNat / 256 := by
    rw [BitVec.toNat_append, ← Nat.shiftLeft_add_eq_or_of_lt (BitVec.isLt _), Nat.shiftLeft_eq,
      BitVec.extractLsb'_toNat, Nat.shiftRight_eq_div_pow]
    omega
  have hlen : (len ++ offset.extractLsb' 8 4 : Byte).extractLsb' 4 4 = len := by
    refine BitVec.eq_of_toNat_eq ?_
    rw [BitVec.extractLsb'_toNat, Nat.shiftRight_eq_div_pow, hv]
    omega
  have hoffset : (len ++ offset.extractLsb' 8 4 : Byte).extractLsb' 0 4 ++ offset.extractLsb' 0 8 = offset := by
    refine BitVec.eq_of_toNat_eq ((append_byte_toNat ..).trans ?_)
    rw [BitVec.extractLsb'_toNat, BitVec.extractLsb'_toNat, Nat.shiftRight_zero, Nat.shiftRight_zero, hv]
    omega
  exact congrArg Except.ok (congr (congrArg Element.ref hlen) hoffset)

/-- Settles O3: a header is told apart by its three length bytes, every other element by what the decoder expects. -/
theorem elementDecodesBeforeMoreBytes : Obligations.ElementDecodesBeforeMoreBytes := by
  intro e rest hwf
  cases e with
  | hdr l3 =>
    have hl := le24_byteOf l3
    have h := decodeLength_short rest (hl ▸ of_decide_eq_true hwf)
    rwa [hl] at h
  | hdrx l4 =>
    have h := decodeLength_extended (byteOf l4 0) (byteOf l4 1) (byteOf l4 2) (byteOf l4 3) rest (le24_byteOf 0)
    rwa [le32_byteOf] at h
  | flags f => rfl
  | lit b => rfl
  | ref len offset => exact decodeElement_backRef len offset rest

theorem decodeEncoded_streamEncoding {e : Element} (h : (elementInstr e).wellFormed = true) :
    decodeEncoded (streamEncoding e) = .ok (elementInstr e) := by
  have he := elementDecodesBeforeMoreBytes e [] h
  rw [List.append_nil] at he
  simp only [streamEncoding, decodeEncoded, he, Except.map]

end Sys2Proof
end

section
/-! The decoder and the encoder of command records (spec/30_encoding.md R81 to R90): by the four fields of the command
word, and by the check each kind of row of the opcode map makes. -/
namespace Sys2Proof

/-! ### The check of each kind of row (R90) -/

section
variable {c : Command} {i j : Instr}

theorem accessorForm_eq_ok : accessorForm c i = .ok j ↔ depthField c.cmd = 0 ∧ i = j := by
  unfold accessorForm; split <;> simp_all

theorem bulkWriteForm_eq_ok :
    bulkWriteForm c i = .ok j ↔ c.data.length = c.count.toNat ∧ depthField c.cmd = 0 ∧ i = j := by
  unfold bulkWriteForm; split <;> simp_all [accessorForm_eq_ok]

theorem depthForm_eq_ok : depthForm c i = .ok j ↔ aField c.cmd = false ∧ i = j := by
  unfold depthForm; split <;> simp_all

theorem plainForm_eq_ok : plainForm c i = .ok j ↔ aField c.cmd = false ∧ depthField c.cmd = 0 ∧ i = j := by
  unfold plainForm; split <;> simp_all [accessorForm_eq_ok]

theorem readRegForm_eq_ok : readRegForm c = .ok j ↔
    ∃ r, regOfIndex c.index = some r ∧ aField c.cmd = false ∧ depthField c.cmd = 0 ∧ .readReg r = j := by
  unfold readRegForm; split <;> simp_all [plainForm_eq_ok]

theorem decode_eq_ok : decode c = .ok i ↔ reservedField c.cmd = 0 ∧ decodeOp c = .ok i := by
  unfold decode; split <;> simp_all

end

/-! ### A record the encoder builds -/

section
variable (op : Byte) (start : Start)

@[simp] theorem opField_accessorRecord : opField (accessorRecord op start).cmd = op := by
  cases start <;> exact opField_commandWord ..

@[simp] theorem depthField_accessorRecord : depthField (accessorRecord op start).cmd = 0 := by
  cases start <;> exact depthField_commandWord ..

@[simp] theorem reservedField_accessorRecord : reservedField (accessorRecord op start).cmd = 0 :=
  Laws.EncodedForm.reserved_accessorRecord op start

/-- An accessor's record has its start in `A` and `ADDR`, whatever its other operands are (R82). -/
@[simp] theorem startOf_accessorRecord_with (count value index : Word) (data : List Word) :
    startOf ⟨(accessorRecord op start).cmd, (accessorRecord op start).addr, count, value, index, data⟩ = start := by
  cases start <;> simp [startOf, accessorRecord, bareRecord]

@[simp] theorem startOf_accessorRecord : startOf (accessorRecord op start) = start :=
  startOf_accessorRecord_with op start _ _ _ _

@[simp] theorem cmd_plainRecord : (plainRecord op).cmd = commandWord op false 0 := rfl

@[simp] theorem cmd_bareRecord (cmd : Word) : (bareRecord cmd).cmd = cmd := rfl

end

@[simp] theorem regOfIndex_regIndex (r : RegName) : regOfIndex (regIndex r) = some r := by cases r <;> rfl

/-- Settles O2: each kind of row accepts the record the encoder builds for it, and reads its operands back. -/
theorem decodeOfEncode : Obligations.DecodeOfEncode := by
  intro i hwf
  cases i with
  | readU8 | readU16 | readU32 | readPtr | readU8N | readU16N | readU32N | writeU8 | writeU16 | writeU32 =>
    simp [encode, decodeEncoded, decode_eq_ok, decodeOp, accessorForm_eq_ok]
  | writeU8N _ data | writeU16N _ data | writeU32N _ data =>
    have count : data.length % 4294967296 = data.length := Nat.mod_eq_of_lt (of_decide_eq_true hwf)
    simp [encode, decodeEncoded, decode_eq_ok, decodeOp, bulkWriteForm_eq_ok, bulkWriteRecord, count]
  | lz77Decompress | paletteLoad | paletteGet | rgbUnpack | pixelGet =>
    simp [encode, decodeEncoded, decode_eq_ok, decodeOp, plainForm_eq_ok]
  | pixelLoad => simp [encode, decodeEncoded, decode_eq_ok, decodeOp, depthForm_eq_ok]
  | readReg => simp [encode, decodeEncoded, decode_eq_ok, decodeOp, readRegForm_eq_ok]
  | lz77Hdr | lz77Hdrx | lz77Flags | lz77Lit | lz77Ref => exact decodeEncoded_streamEncoding hwf

/-! ### A record the decoder accepts -/

section
variable {c : Command}

theorem cmd_accessorRecord_startOf {op : Byte} (hr : reservedField c.cmd = 0) (hop : (opField c.cmd).toNat = op.toNat)
    (hd : depthField c.cmd = 0) : (accessorRecord op (startOf c)).cmd = c.cmd := by
  have hword := commandWord_fields hr
  rw [hd, BitVec.eq_of_toNat_eq hop] at hword
  unfold startOf
  split <;> simp_all [accessorRecord]

theorem cmd_plainRecord_of {op : Byte} (hr : reservedField c.cmd = 0) (hop : (opField c.cmd).toNat = op.toNat)
    (ha : aField c.cmd = false) (hd : depthField c.cmd = 0) : (plainRecord op).cmd = c.cmd := by
  have hword := commandWord_fields hr
  rwa [ha, hd, BitVec.eq_of_toNat_eq hop] at hword

theorem dataFits_of_count (h : c.data.length = c.count.toNat) : dataFits c.data = true :=
  decide_eq_true (h ▸ c.count.isLt)

/-- Settles O4: the row's check fixes the fields of the command word that the encoder writes. -/
theorem decodedCommandKeepsItsWord : Obligations.DecodedCommandKeepsItsWord := by
  intro c i h
  obtain ⟨hres, h⟩ := decode_eq_ok.1 h
  unfold decodeOp at h
  split at h
  case h_1 hop | h_2 hop | h_3 hop | h_4 hop | h_5 hop | h_6 hop | h_7 hop | h_8 hop | h_9 hop | h_10 hop =>
    obtain ⟨hd, rfl⟩ := accessorForm_eq_ok.1 h
    exact ⟨rfl, rfl, _, rfl, cmd_accessorRecord_startOf hres hop hd⟩
  case h_11 hop | h_12 hop | h_13 hop =>
    obtain ⟨hcount, hd, rfl⟩ := bulkWriteForm_eq_ok.1 h
    exact ⟨dataFits_of_count hcount, rfl, _, rfl, cmd_accessorRecord_startOf hres hop hd⟩
  case h_14 hop | h_15 hop | h_16 hop | h_17 hop | h_19 hop =>
    obtain ⟨ha, hd, rfl⟩ := plainForm_eq_ok.1 h
    exact ⟨rfl, rfl, _, rfl, cmd_plainRecord_of hres hop ha hd⟩
  case h_18 hop =>
    obtain ⟨ha, rfl⟩ := depthForm_eq_ok.1 h
    have hword := commandWord_fields hres
    rw [ha, BitVec.eq_of_toNat_eq (y := 0x30#8) hop] at hword
    exact ⟨rfl, rfl, _, rfl, hword⟩
  case h_20 hop =>
    obtain ⟨r, -, ha, hd, rfl⟩ := readRegForm_eq_ok.1 h
    exact ⟨rfl, rfl, _, rfl, cmd_plainRecord_of hres hop ha hd⟩
  case h_21 => cases h

/-! ### Legal and illegal records -/

theorem exists_regOfIndex (index : Word) : (∃ r, regOfIndex index = some r) ↔ index.toNat < 7 := by
  constructor
  · rintro ⟨r, hr⟩
    refine Nat.lt_of_not_le fun h => ?_
    rw [Machine.regOfIndex_eq_none h] at hr; cases hr
  · intro h
    unfold regOfIndex
    generalize index.toNat = n at h
    match n, h with
    | 0, _ | 1, _ | 2, _ | 3, _ | 4, _ | 5, _ | 6, _ => exact ⟨_, rfl⟩
    | n + 7, h => omega

/-- One of the five conditions of spec/30_encoding.md R90 holds. -/
def Illegal (c : Command) : Prop :=
  let op := c.cmd.toNat % 256
  let a := c.cmd.toNat / 256 % 2
  let depth := c.cmd.toNat / 512 % 4;
  (op = 0x00 ∨ op = 0x08 ∨ op = 0x0C ∨ (0x11 ≤ op ∧ op ≤ 0x1F) ∨ (0x23 ≤ op ∧ op ≤ 0x2F) ∨
    (0x32 ≤ op ∧ op ≤ 0x3F) ∨ (0x41 ≤ op ∧ op ≤ 0xFF)) ∨
  c.cmd.toNat / 2048 ≠ 0 ∨
  ((a = 1 ∧ ¬(0x01 ≤ op ∧ op ≤ 0x0F)) ∨ (depth ≠ 0 ∧ op ≠ 0x30)) ∨
  ((op = 0x0D ∨ op = 0x0E ∨ op = 0x0F) ∧ c.data.length ≠ c.count.toNat) ∨
  (op = 0x40 ∧ 7 ≤ c.index.toNat)

theorem exists_readRegForm_eq_ok :
    (∃ i, readRegForm c = .ok i) ↔ c.index.toNat < 7 ∧ aField c.cmd = false ∧ depthField c.cmd = 0 := by
  rw [← exists_regOfIndex]
  simp only [readRegForm_eq_ok]
  constructor
  · rintro ⟨_, r, hr, ha, hd, -⟩; exact ⟨⟨r, hr⟩, ha, hd⟩
  · rintro ⟨⟨r, hr⟩, ha, hd⟩; exact ⟨_, r, hr, ha, hd, rfl⟩

/-- A record is accepted unless it is illegal, row by row of the opcode map. -/
theorem exists_decode_eq_ok : (∃ i, decode c = .ok i) ↔ ¬ Illegal c := by
  have hop := opField_toNat c.cmd
  unfold Illegal
  simp only [decode_eq_ok, exists_and_left, reservedField_eq_zero]
  unfold decodeOp
  split
  case h_1 | h_2 | h_3 | h_4 | h_5 | h_6 | h_7 | h_8 | h_9 | h_10 =>
    simp only [accessorForm_eq_ok, exists_and_left, exists_eq', and_true, depthField_eq_zero]
    omega
  case h_11 | h_12 | h_13 =>
    simp only [bulkWriteForm_eq_ok, exists_and_left, exists_eq', and_true, depthField_eq_zero]
    omega
  case h_14 | h_15 | h_16 | h_17 | h_19 =>
    simp only [plainForm_eq_ok, exists_and_left, exists_eq', and_true, depthField_eq_zero, aField_eq_false]
    omega
  case h_18 =>
    simp only [depthForm_eq_ok, exists_and_left, exists_eq', and_true, aField_eq_false]
    omega
  case h_20 =>
    simp only [exists_readRegForm_eq_ok, depthField_eq_zero, aField_eq_false]
    omega
  case h_21 =>
    simp only [imp_false, reduceCtorEq, exists_false, and_false, false_iff, Decidable.not_not] at *
    omega

end

/-! ### The step that takes a record -/

theorem decode_error_of_illegal {c : Command} (h : Illegal c) : ∃ r, decode c = .error r := by
  cases hd : decode c with
  | ok i => exact absurd h (exists_decode_eq_ok.1 ⟨i, hd⟩)
  | error r => exact ⟨r, rfl⟩

namespace Machine

theorem fetch_issue {s : State} {c : Command} {moves : List HostMove} (hw : s.work = none)
    (hin : s.inbox = .issue c :: moves) : fetch s = fetchCommand c (s.setInbox moves) := by
  simp [fetch, hw, hin]

theorem step_of_decode_error {s : State} {c : Command} {moves : List HostMove} {r : Reject} (hw : s.work = none)
    (hin : s.inbox = .issue c :: moves) (hr : decode c = .error r) :
    step s = .next (s.setInbox moves).rejectCommand := by
  simp [step, fetch_issue hw hin, fetchCommand, hr]

end Machine

/-- Settles O5: the decoder rejects the illegal records, and a step that takes a rejected one raises
`IllegalCommand`. -/
theorem illegalCommandsExactly : Obligations.IllegalCommandsExactly := by
  intro c
  refine ⟨fun (h : ¬ Illegal c) => exists_decode_eq_ok.2 h, fun (h : Illegal c) => ?_⟩
  obtain ⟨r, hr⟩ := decode_error_of_illegal h
  exact ⟨⟨r, hr⟩, fun s moves hw hin => Machine.step_of_decode_error hw hin hr⟩

/-! ### The fields a command ignores -/

section
variable {c c' : Command} (hcmd : c'.cmd = c.cmd)
include hcmd

theorem accessorForm_congr : accessorForm c' = accessorForm c := by
  funext i; rw [accessorForm, hcmd]; rfl

theorem plainForm_congr : plainForm c' = plainForm c := by
  funext i; rw [plainForm, hcmd, accessorForm_congr hcmd]; rfl

theorem depthForm_congr : depthForm c' = depthForm c := by
  funext i; rw [depthForm, hcmd]; rfl

theorem bulkWriteForm_congr (hcount : c'.count = c.count) (hdata : c'.data = c.data) :
    bulkWriteForm c' = bulkWriteForm c := by
  funext i; rw [bulkWriteForm, hcount, hdata, accessorForm_congr hcmd]; rfl

theorem readRegForm_congr (hindex : c'.index = c.index) : readRegForm c' = readRegForm c := by
  rw [readRegForm, hindex, plainForm_congr hcmd]; rfl

theorem startOf_congr (haddr : aField c.cmd = true → c'.addr = c.addr) : startOf c' = startOf c := by
  unfold startOf
  rw [hcmd]
  split
  · rw [haddr ‹_›]
  · rfl

end

/-- The two records have the same command word and agree on the fields the operand table gives that opcode (R86). -/
structure SameOperands (c c' : Command) : Prop where
  cmd : c'.cmd = c.cmd
  addr : (1 ≤ (opField c.cmd).toNat ∧ (opField c.cmd).toNat ≤ 0x0F ∧ aField c.cmd = true) ∨
    (opField c.cmd).toNat = 0x10 ∨ (opField c.cmd).toNat = 0x20 ∨ (opField c.cmd).toNat = 0x30 → c'.addr = c.addr
  count : (0x05 ≤ (opField c.cmd).toNat ∧ (opField c.cmd).toNat ≤ 0x07) ∨
    (0x0D ≤ (opField c.cmd).toNat ∧ (opField c.cmd).toNat ≤ 0x0F) ∨
    (opField c.cmd).toNat = 0x20 ∨ (opField c.cmd).toNat = 0x30 → c'.count = c.count
  value : (0x09 ≤ (opField c.cmd).toNat ∧ (opField c.cmd).toNat ≤ 0x0B) ∨ (opField c.cmd).toNat = 0x22 →
    c'.value = c.value
  index : (opField c.cmd).toNat = 0x21 ∨ (opField c.cmd).toNat = 0x31 ∨ (opField c.cmd).toNat = 0x40 →
    c'.index = c.index
  data : 0x0D ≤ (opField c.cmd).toNat ∧ (opField c.cmd).toNat ≤ 0x0F → c'.data = c.data

/-- Each row of the opcode map reads the fields that `SameOperands` keeps for it. -/
theorem decodeOp_congr {c c' : Command} (h : SameOperands c c') : decodeOp c' = decodeOp c := by
  have start (lo : 1 ≤ (opField c.cmd).toNat) (hi : (opField c.cmd).toNat ≤ 0x0F) : startOf c' = startOf c :=
    startOf_congr h.cmd fun ha => h.addr (.inl ⟨lo, hi, ha⟩)
  unfold decodeOp
  rw [h.cmd]
  split
  case h_1 | h_2 | h_3 | h_4 =>
    rw [accessorForm_congr h.cmd, start (by omega) (by omega)]
  case h_5 | h_6 | h_7 =>
    rw [accessorForm_congr h.cmd, start (by omega) (by omega), h.count (by omega)]
  case h_8 | h_9 | h_10 =>
    rw [accessorForm_congr h.cmd, start (by omega) (by omega), h.value (by omega)]
  case h_11 | h_12 | h_13 =>
    rw [bulkWriteForm_congr h.cmd (h.count (by omega)) (h.data (by omega)), start (by omega) (by omega),
      h.data (by omega)]
  case h_14 => rw [plainForm_congr h.cmd, h.addr (by omega)]
  case h_15 => rw [plainForm_congr h.cmd, h.addr (by omega), h.count (by omega)]
  case h_16 | h_19 => rw [plainForm_congr h.cmd, h.index (by omega)]
  case h_17 => rw [plainForm_congr h.cmd, h.value (by omega)]
  case h_18 => rw [depthForm_congr h.cmd, h.addr (by omega), h.count (by omega)]
  case h_20 => exact readRegForm_congr h.cmd (h.index (by omega))
  case h_21 => rfl

theorem decode_congr {c c' : Command} (h : SameOperands c c') : decode c' = decode c := by
  unfold decode
  rw [decodeOp_congr h, h.cmd]

namespace Machine

theorem fetchCommand_congr {c c' : Command} (h : decode c' = decode c) (s : State) :
    fetchCommand c' s = fetchCommand c s := by
  unfold fetchCommand
  rw [h]

/-- A record is seen through its decoding alone. -/
theorem step_issue_congr {s : State} {c c' : Command} (moves : List HostMove) (hw : s.work = none)
    (h : decode c' = decode c) :
    step { s with inbox := .issue c' :: moves } = step { s with inbox := .issue c :: moves } := by
  have hfetch : fetch { s with inbox := .issue c' :: moves } = fetch { s with inbox := .issue c :: moves } :=
    calc fetch { s with inbox := .issue c' :: moves }
      _ = fetchCommand c' (s.setInbox moves) := fetch_issue hw rfl
      _ = fetchCommand c (s.setInbox moves) := fetchCommand_congr h _
      _ = fetch { s with inbox := .issue c :: moves } :=
        (fetch_issue (s := { s with inbox := .issue c :: moves }) hw rfl).symm
  unfold step
  rw [hfetch]

end Machine

/-- Settles O6: the two records have the same decoding, an instruction or the same rejection. -/
theorem ignoredFieldsHaveNoEffect : Obligations.IgnoredFieldsHaveNoEffect := by
  intro s moves c c' op a hw hcmd haddr hcount hvalue hindex hdata
  refine Machine.step_issue_congr moves hw (decode_congr ⟨hcmd, ?_, ?_, ?_, ?_, ?_⟩)
  all_goals simpa only [opField_toNat, aField_eq_true]

/-! ### Words written out -/

/-- Settles O1: each command word is split into its fields and looked up in its row. -/
theorem specWordsDecode : Obligations.SpecWordsDecode := by
  refine ⟨fun c hc => ?_, fun c hc => ?_, fun c hc => ?_, fun c hc => ?_, fun c hc => ?_, fun c hc hi => ?_,
    fun _ => rfl, fun _ => rfl, fun _ => rfl⟩
  · have word : c.cmd = commandWord 0x02#8 true 0 := hc
    simp [decode_eq_ok, decodeOp, accessorForm_eq_ok, startOf, word]
  · have word : c.cmd = commandWord 0x09#8 false 0 := hc
    simp [decode_eq_ok, decodeOp, accessorForm_eq_ok, startOf, word]
  · have word : c.cmd = commandWord 0x10#8 false 0 := hc
    simp [decode_eq_ok, decodeOp, plainForm_eq_ok, word]
  · have word : c.cmd = commandWord 0x21#8 false 0 := hc
    simp [decode_eq_ok, decodeOp, plainForm_eq_ok, word]
  · have word : c.cmd = commandWord 0x30#8 false 2 := hc
    simp [decode_eq_ok, decodeOp, depthForm_eq_ok, word]
  · have word : c.cmd = commandWord 0x40#8 false 0 := hc
    have reg : regOfIndex c.index = some .pixDepth := hi ▸ rfl
    simp [decode_eq_ok, decodeOp, readRegForm_eq_ok, word, reg]

end Sys2Proof
end

section
/-! What each stream element does where its bytes are in the ROM: one equation per element and outcome, and where the
decoder goes after it (spec/41_lz77.md R152 to R162). -/
namespace Sys2Proof.Machine

theorem shortLength_toNat (l3 : BitVec 24) : (l3.setWidth 32 : Word).toNat = l3.toNat :=
  BitVec.toNat_setWidth_of_le (by decide)

theorem consume_fits {s : State} {n : Nat} (f : State → State) (h : s.cursor.toNat + n ≤ s.params.romSize.toNat) :
    consume n s f = f (s.moveCursor (s.cursor.toNat + n)) := if_pos (inBounds_eq_true.2 h)

/-! ### Where the decoder goes after an item -/

section
variable {w : Lz77Work} (s : State)

theorem mainLoop_of_lt (h : w.position < w.length.toNat) :
    mainLoop w s = s.setWork { w with phase := .group } := if_pos h

theorem mainLoop_of_ge (h : w.length.toNat ≤ w.position) :
    mainLoop w s = deliver w.consumer w.out true s := if_neg (Nat.not_lt.2 h)

/-- An item that leaves bits of its group and does not pass the declared length: the next bit down. -/
theorem afterItem_of_bit_succ {b : Fin 8} (hb : w.bit.val = b.val + 1) (hp : w.position ≤ w.length.toNat) :
    afterItem false w s = s.setWork { w with phase := .item, bit := b } := by
  have hbit : (⟨w.bit.val - 1, by omega⟩ : Fin 8) = b := Fin.ext (by simp only [hb]; omega)
  unfold afterItem
  rw [if_neg (by simp [hb, hp]), hbit]

theorem afterItem_of_bit_zero (leave : Bool) (hb : w.bit.val = 0) : afterItem leave w s = mainLoop w s :=
  if_pos (by simp [hb])

theorem afterItem_leave : afterItem true w s = mainLoop w s := if_pos rfl

end

/-- `LZ77_DECOMPRESS` answers the bytes, and their number in VALUE (R162). -/
theorem deliver_response_of_length {bytes : List Byte} {length : Word} (h : bytes.length = length.toNat) (comp : Bool)
    (s : State) (c : Nat) : deliver .response bytes comp (s.moveCursor c) =
      s.succeeded (BitVec.ofNat 32 c) length (bytes.map (BitVec.setWidth 32)) := by
  have hvalue : BitVec.ofNat 32 bytes.length = length := by rw [h, BitVec.ofNat_toNat, BitVec.setWidth_eq]
  rw [← hvalue]; rfl

/-! ### Each element, its bytes in the ROM -/

section
variable {s : State} {w : Lz77Work}

theorem takeHeader_fits {n : Nat} {length : Word} (hn : s.cursor.toNat + n ≤ s.params.romSize.toNat)
    (hcap : length.toNat ≤ s.params.bufCap.val) : takeHeader n length w s =
      mainLoop { w with length := length, position := 0, out := [] } (s.moveCursor (s.cursor.toNat + n)) := by
  unfold takeHeader
  rw [consume_fits _ hn, if_neg (Nat.not_lt.2 hcap)]

/-- A header with a nonzero length. -/
theorem takeHeader_starts {n : Nat} {length : Word} (hn : s.cursor.toNat + n ≤ s.params.romSize.toNat)
    (hcap : length.toNat ≤ s.params.bufCap.val) (hl : length ≠ 0) : takeHeader n length w s =
      (s.moveCursor (s.cursor.toNat + n)).setWork
        { w with phase := .group, length := length, position := 0, out := [] } := by
  rw [takeHeader_fits hn hcap]
  exact mainLoop_of_lt _ (Nat.pos_of_ne_zero fun h => hl (BitVec.eq_of_toNat_eq h))

theorem takeFlags_fits (f : Byte) (hn : s.cursor.toNat + 1 ≤ s.params.romSize.toNat) : takeFlags f w s =
    (s.moveCursor (s.cursor.toNat + 1)).setWork { w with phase := .item, flags := f, bit := 7 } :=
  consume_fits _ hn

theorem takeLiteral_stores (x : Byte) (hn : s.cursor.toNat + 1 ≤ s.params.romSize.toNat)
    (hp : w.position < w.length.toNat) : takeLiteral x w s =
      afterItem false { w with out := w.out ++ [x], position := w.position + 1 }
        (s.moveCursor (s.cursor.toNat + 1)) := by
  unfold takeLiteral
  rw [consume_fits _ hn, if_pos hp]

theorem takeLiteral_pad (x : Byte) (hn : s.cursor.toNat + 1 ≤ s.params.romSize.toNat)
    (hp : w.length.toNat ≤ w.position) : takeLiteral x w s =
      afterItem (decide (x = 0)) w (s.moveCursor (s.cursor.toNat + 1)) := by
  unfold takeLiteral
  rw [consume_fits _ hn, if_neg (Nat.not_lt.2 hp)]

/-- A back-reference that reaches into the output and stays within the declared length. -/
theorem takeRef_copies {len : BitVec 4} {offset : BitVec 12} (hn : s.cursor.toNat + 2 ≤ s.params.romSize.toNat)
    (ho : offset.toNat < w.position) (hl : w.position + (len.toNat + 3) ≤ w.length.toNat) : takeRef len offset w s =
      afterItem false
        { w with
          out := matchCopy w.position offset.toNat w.length.toNat (len.toNat + 3) w.out
          position := w.position + (len.toNat + 3) }
        (s.moveCursor (s.cursor.toNat + 2)) := by
  unfold takeRef
  rw [consume_fits _ hn, if_neg (Nat.not_le.2 ho), if_neg fun h => Nat.not_lt.2 hl h.2]

end

/-! ### The statements -/

/-- The meaning of an element where the decoder that runs expects its kind. -/
theorem whereExpected_eq {s t : State} {w : Lz77Work} {x : Expect} {f : Lz77Work → State} (hw : s.work = some w)
    (hx : nextExpect w = x) (ht : f w = t) : whereExpected x s f = .next t := whereExpected_next.2 ⟨w, hw, hx, ht⟩

/-- Settles O26: a nonzero length enters the loop of R154, the length 0 leaves it at once. -/
theorem headerDeclaresTheLength : Obligations.HeaderDeclaresTheLength := by
  intro s w hw hphase
  have hx := nextExpect_header.2 hphase
  refine ⟨fun l3 h0 hn hcap => whereExpected_eq hw hx ?_,
    fun l4 h0 hn hcap => whereExpected_eq hw hx (takeHeader_starts hn hcap h0),
    fun hcons hn => whereExpected_eq hw hx ?_⟩
  · refine takeHeader_starts hn (by rwa [shortLength_toNat]) fun h => h0 (BitVec.eq_of_toNat_eq ?_)
    rw [← shortLength_toNat, h]; rfl
  · rw [takeHeader_fits hn (Nat.zero_le _), mainLoop_of_ge _ (Nat.zero_le _), hcons]
    rfl

/-- Settles O28: a decoder before a group reads the flag byte, and takes it as the group's. -/
theorem flagByteOpensAGroup : Obligations.FlagByteOpensAGroup :=
  fun _ _ f hw hphase hn => whereExpected_eq hw (nextExpect_flags.2 hphase) (takeFlags_fits f hn)

/-- Settles O31: the output is the match copy's, and the flag bit and the declared length say where the
decoder goes. -/
theorem backReferenceCopies : Obligations.BackReferenceCopies := by
  intro s w len offset hw hphase hflag hout ho hl hn
  have run {t : State} (ht : _ = t) : exec (.lz77Ref len offset) s = .next t :=
    whereExpected_eq hw (nextExpect_backRef.2 ⟨hphase, hflag⟩) ((takeRef_copies hn ho hl).trans ht)
  obtain ⟨hlen, hkeep, hcopy⟩ :=
    matchCopy_spec w.position offset.toNat w.length.toNat (len.toNat + 3) w.out hout ho (by omega)
  generalize matchCopy w.position offset.toNat w.length.toNat (len.toNat + 3) w.out = out at run hlen hkeep hcopy
  rw [Nat.min_eq_left hl] at hlen
  refine ⟨out, ⟨hlen, hkeep, fun j hj => hcopy j hj (by omega)⟩, fun b hb => run ?_,
    fun hb hlt => run ?_, fun hb hfull hcons => run ?_⟩
  · refine (afterItem_of_bit_succ _ (by exact hb) (by exact hl)).trans ?_
    rw [← hphase]; rfl
  · exact (afterItem_of_bit_zero _ _ (by exact hb)).trans (mainLoop_of_lt _ (by exact hlt))
  · refine ((afterItem_of_bit_zero _ _ (by exact hb)).trans
      (mainLoop_of_ge _ (by exact Nat.le_of_eq hfull.symm))).trans ?_
    rw [hcons]
    exact deliver_response_of_length (hlen.trans hfull) _ _ _

end Sys2Proof.Machine
end

section
/-! A block that stores its bytes as literals decompresses to them (spec/41_lz77.md R150): each byte of its body is one
element, and the decoder that reads it goes on with the rest of the body. -/
namespace Sys2Proof.Machine

/-! ### Bytes that stand in the ROM -/

/-- The ROM holds the bytes from `a` on. -/
def Memory.Holds (m : Memory) (a : Nat) (bs : List Byte) : Prop := ∀ k, k < bs.length → m.byte (a + k) = bs.getD k 0

theorem Memory.holds_cons {m : Memory} {a : Nat} {b : Byte} {bs : List Byte} :
    m.Holds a (b :: bs) ↔ m.byte a = b ∧ m.Holds (a + 1) bs := by
  constructor
  · intro h
    refine ⟨h 0 (Nat.succ_pos _), fun k hk => ?_⟩
    rw [Nat.add_assoc, Nat.add_comm 1 k]
    exact h (k + 1) (Nat.succ_lt_succ hk)
  · rintro ⟨hb, h⟩ k hk
    cases k with
    | zero => exact hb
    | succ k =>
      rw [← Nat.add_assoc, Nat.add_right_comm]
      exact h k (Nat.lt_of_succ_lt_succ hk)

theorem Memory.holds_append {m : Memory} {a : Nat} {bs cs : List Byte} :
    m.Holds a (bs ++ cs) ↔ m.Holds a bs ∧ m.Holds (a + bs.length) cs := by
  induction bs generalizing a with
  | nil => exact ⟨fun h => ⟨nofun, h⟩, fun h => h.2⟩
  | cons b bs ih =>
    rw [List.cons_append, holds_cons, holds_cons, ih, and_assoc, List.length_cons, Nat.add_assoc, Nat.add_comm 1]

theorem Memory.bytes_of_holds {m : Memory} {a : Nat} {bs : List Byte} (h : m.Holds a bs) (n : Nat) :
    m.bytes a (bs.length + n) = bs ++ m.bytes (a + bs.length) n := by
  induction bs generalizing a with
  | nil => rw [List.length_nil, Nat.zero_add]; rfl
  | cons b bs ih =>
    obtain ⟨hb, hbs⟩ := holds_cons.1 h
    rw [List.length_cons, Nat.add_right_comm, bytes_succ, hb, ih hbs, Nat.add_right_comm a 1]
    rfl

theorem encodeElement_length_le (e : Element) : (encodeElement e).length ≤ 8 := by
  cases e <;> simp [encodeElement]

/-- The decoder reads the element whose bytes stand at `CURSOR`. -/
theorem fetchElement_of_holds {s : State} {w : Lz77Work} {e : Element} (hx : elementExpect e = nextExpect w)
    (hwf : (elementInstr e).wellFormed = true) (h : s.rom.Holds s.cursor.toNat (encodeElement e))
    (hn : s.cursor.toNat + (encodeElement e).length ≤ s.params.romSize.toNat) : fetchElement w s = .ok e := by
  have h8 := encodeElement_length_le e
  obtain ⟨n, hlen⟩ : ∃ n, min 8 (s.params.romSize.toNat - s.cursor.toNat) = (encodeElement e).length + n :=
    Nat.exists_eq_add_of_le (by omega)
  rw [fetchElement, streamBytes, hlen, Memory.bytes_of_holds h, ← hx]
  exact elementDecodesBeforeMoreBytes e _ hwf

theorem elementStep_of_fetch {s : State} {w : Lz77Work} {e : Element} (hw : s.work = some w)
    (he : fetchElement w s = .ok e) : elementStep s = takeElement e w s := by
  simp [elementStep, hw, he]

section
variable {s : State} {w : Lz77Work} {c : Nat}

theorem cursor_setWork_moveCursor (h : c ≤ s.params.romSize.toNat) :
    ((s.moveCursor c).setWork w).cursor.toNat = c := toNat_ofNat_of_le_romSize h

/-- The element whose bytes stand at `c` is the one a decompression at `c` runs next. -/
theorem elementStep_of_holds {e : Element} (hx : elementExpect e = nextExpect w)
    (hwf : (elementInstr e).wellFormed = true) (h : s.rom.Holds c (encodeElement e))
    (hn : c + (encodeElement e).length ≤ s.params.romSize.toNat) :
    elementStep ((s.moveCursor c).setWork w) = takeElement e w ((s.moveCursor c).setWork w) := by
  have hc : ((s.moveCursor c).setWork w).cursor.toNat = c := cursor_setWork_moveCursor (by omega)
  exact elementStep_of_fetch rfl (fetchElement_of_holds hx hwf (by rwa [hc]) (by rwa [hc]))

theorem mainLoop_setWork (v : Lz77Work) (c' : Nat) :
    mainLoop v (((s.moveCursor c).setWork w).moveCursor c') = mainLoop v (s.moveCursor c') := by
  unfold mainLoop
  split
  · rfl
  · exact setWork_moveCursor_deliver ..

end

/-! ### A body of literals -/

/-- A decoder that has read literals alone: the flag byte is 0. -/
structure OnlyLiterals (w : Lz77Work) : Prop where
  consumer : w.consumer = .response
  flags : w.flags = 0
  position : w.position = w.out.length

/-- The decoder before the item of flag bit `bit`. -/
def itemAt (bit : Nat) (w : Lz77Work) : Lz77Work := { w with phase := .item, bit := Fin.ofNat 8 bit }

/-- The decoder after the literal `x`. -/
def withLiteral (x : Byte) (w : Lz77Work) : Lz77Work := { w with position := w.position + 1, out := w.out ++ [x] }

/-- A decompression in a group with `left` of its items still to come. -/
def itemsLeft (left : Nat) (w : Lz77Work) (s : State) : State :=
  match left with
  | 0 => mainLoop w s
  | left + 1 => s.setWork (itemAt left w)

section
variable {s : State} {w : Lz77Work} {c left : Nat}

theorem OnlyLiterals.itemAt (h : OnlyLiterals w) : OnlyLiterals (itemAt left w) where
  consumer := h.consumer
  flags := h.flags
  position := h.position

theorem OnlyLiterals.withLiteral (h : OnlyLiterals w) (x : Byte) : OnlyLiterals (withLiteral x w) where
  consumer := h.consumer
  flags := h.flags
  position := by simp [Machine.withLiteral, h.position]

theorem OnlyLiterals.expect_literal (h : OnlyLiterals w) (hphase : w.phase = .item) : nextExpect w = .literal :=
  nextExpect_literal.2 ⟨hphase, by simp [h.flags]⟩

theorem OnlyLiterals.mainLoop_full (hw : OnlyLiterals w) (hfull : w.position = w.length.toNat) :
    mainLoop w (s.moveCursor c) = s.succeeded (BitVec.ofNat 32 c) w.length (w.out.map (BitVec.setWidth 32)) := by
  rw [mainLoop_of_ge _ (Nat.le_of_eq hfull.symm), hw.consumer]
  exact deliver_response_of_length (hw.position.symm.trans hfull) _ _ _

/-- A literal inside the declared length is stored, and one item fewer is left. -/
theorem elementStep_literal (hw : OnlyLiterals w) (hleft : left ≤ 7) (hp : w.position < w.length.toNat)
    (hn : c + 1 ≤ s.params.romSize.toNat) : elementStep (itemsLeft (left + 1) w (s.moveCursor c)) =
      itemsLeft left (withLiteral (s.rom.byte c) (itemAt left w)) (s.moveCursor (c + 1)) := by
  have hc := cursor_setWork_moveCursor (w := itemAt left w) (Nat.le_of_succ_le hn)
  have hbit : (Fin.ofNat 8 left).val = left := Nat.mod_eq_of_lt (by omega)
  have hstep := elementStep_of_holds (e := .lit (s.rom.byte c))
    ((hw.itemAt (left := left)).expect_literal rfl).symm rfl (Memory.holds_cons.2 ⟨rfl, nofun⟩) hn
  refine hstep.trans ((takeLiteral_stores (w := itemAt left w) _ (by rwa [hc]) hp).trans ?_)
  rw [hc]
  cases left with
  | zero => exact (afterItem_of_bit_zero _ _ hbit).trans (mainLoop_setWork ..)
  | succ left =>
    refine afterItem_of_bit_succ _ (b := Fin.ofNat 8 left) ?_ hp
    refine hbit.trans ?_
    rw [Fin.val_ofNat, Nat.mod_eq_of_lt (by omega)]

/-- A zero pad behind the last byte leaves the group (R160). -/
theorem elementStep_zeroPad (hw : OnlyLiterals w) (hp : w.position = w.length.toNat)
    (hn : c + 1 ≤ s.params.romSize.toNat) (hpad : s.rom.byte c = 0) :
    elementStep (itemsLeft (left + 1) w (s.moveCursor c)) = mainLoop (itemAt left w) (s.moveCursor (c + 1)) := by
  have hc := cursor_setWork_moveCursor (w := itemAt left w) (Nat.le_of_succ_le hn)
  have hstep := elementStep_of_holds (e := .lit 0) ((hw.itemAt (left := left)).expect_literal rfl).symm rfl
    (Memory.holds_cons.2 ⟨hpad, nofun⟩) hn
  refine hstep.trans ((takeLiteral_pad (w := itemAt left w) _ (by rwa [hc]) (Nat.le_of_eq hp.symm)).trans ?_)
  rw [hc]
  exact (afterItem_leave _).trans (mainLoop_setWork ..)

/-- A zero flag byte opens a group of eight literals. -/
theorem elementStep_zeroFlags (hw : OnlyLiterals w) (hp : w.position < w.length.toNat)
    (hn : c + 1 ≤ s.params.romSize.toNat) (hflags : s.rom.byte c = 0) :
    elementStep (itemsLeft 0 w (s.moveCursor c)) = itemsLeft 8 w (s.moveCursor (c + 1)) := by
  have hc := cursor_setWork_moveCursor (w := { w with phase := .group }) (Nat.le_of_succ_le hn)
  have hstep := elementStep_of_holds (w := { w with phase := .group }) (e := .flags 0)
    (nextExpect_flags.2 rfl).symm rfl (Memory.holds_cons.2 ⟨hflags, nofun⟩) hn
  rw [itemsLeft, mainLoop_of_lt _ hp]
  refine hstep.trans ((takeFlags_fits _ (by rwa [hc])).trans ?_)
  rw [hc, ← hw.flags]
  rfl

end

/-- Wherever the bytes `body` stand in the ROM, a decoder that has read literals alone, with `left` items of its group
to come and `bs` missing from its output, reads all of `body` and answers its output and `bs`. -/
def Completes (s : State) (left : Nat) (body bs : List Byte) : Prop :=
  ∀ (n c : Nat) (w : Lz77Work), OnlyLiterals w → w.position + bs.length = w.length.toNat → s.rom.Holds c body →
    c + body.length ≤ s.params.romSize.toNat → body.length ≤ n →
    drain n (itemsLeft left w (s.moveCursor c)) =
      s.succeeded (BitVec.ofNat 32 (c + body.length)) w.length ((w.out ++ bs).map (BitVec.setWidth 32))

section
variable {s : State} {left : Nat} {body bs : List Byte} {b : Byte}

theorem completes_full : Completes s 0 [] [] := by
  intro n c w hw hlength _ _ _
  rw [itemsLeft, hw.mainLoop_full hlength, List.append_nil]
  exact drain_none rfl

theorem completes_pad : Completes s (left + 1) [0#8] [] := by
  intro n c w hw hlength hrom hc hn
  obtain ⟨n, rfl⟩ := Nat.exists_eq_add_of_le' hn
  obtain ⟨hpad, -⟩ := Memory.holds_cons.1 hrom
  change drain (n + 1) _ = _
  rw [drain_succ rfl, elementStep_zeroPad hw hlength hc hpad, hw.itemAt.mainLoop_full hlength, List.append_nil]
  exact drain_none rfl

/-- One literal before a body that completes the rest. -/
theorem Completes.literal (h : Completes s left body bs) (hleft : left ≤ 7) :
    Completes s (left + 1) (b :: body) (b :: bs) := by
  intro n c w hw hlength hrom hc hn
  obtain ⟨rfl, hrest⟩ := Memory.holds_cons.1 hrom
  simp only [List.length_cons] at hlength hc hn ⊢
  obtain ⟨n, rfl⟩ := Nat.exists_eq_add_of_le' (Nat.le_of_add_left_le hn)
  rw [drain_succ rfl, elementStep_literal hw hleft (by omega) (by omega),
    h n (c + 1) _ (hw.itemAt.withLiteral _) (by simp only [withLiteral, itemAt]; omega) hrest (by omega) (by omega),
    Nat.add_right_comm c 1, Nat.add_assoc]
  simp [withLiteral, itemAt]

/-- A zero flag byte before the eight items of its group. -/
theorem Completes.zeroFlags (h : Completes s 8 body (b :: bs)) : Completes s 0 (0#8 :: body) (b :: bs) := by
  intro n c w hw hlength hrom hc hn
  obtain ⟨hflags, hrom⟩ := Memory.holds_cons.1 hrom
  rw [List.length_cons] at hc hn ⊢
  obtain ⟨n, rfl⟩ := Nat.exists_eq_add_of_le' (Nat.le_of_add_left_le hn)
  have hp : w.position < w.length.toNat := by rw [List.length_cons] at hlength; omega
  have hwork : (itemsLeft 0 w (s.moveCursor c)).work = some { w with phase := .group } := by
    rw [itemsLeft, mainLoop_of_lt _ hp]; rfl
  rw [drain_succ hwork, elementStep_zeroFlags hw hp (by omega) hflags,
    h n (c + 1) w hw hlength hrom (by omega) (by omega), Nat.add_right_comm c 1, Nat.add_assoc]

end

/-- A body of literals is read to its end, group by group. -/
theorem completes_storedBody (s : State) {left : Nat} (bs : List Byte) (hleft : left ≤ 7) :
    Completes s left (storedBody left bs) bs := by
  induction left, bs using storedBody.induct with
  | case1 => exact completes_full
  | case2 left hne =>
    obtain ⟨left, rfl⟩ := Nat.exists_eq_succ_of_ne_zero hne
    exact completes_pad
  | case3 b bs ih => exact ((ih (Nat.le_refl 7)).literal (Nat.le_refl 7)).zeroFlags
  | case4 left b bs ih => exact (ih (Nat.le_of_succ_le hleft)).literal (Nat.le_of_succ_le hleft)

/-! ### The block with its header -/

/-- `Lz77(a)` at a short header within the capacity goes on after it with the main loop. -/
theorem lz77_shortHeader {s : State} {a : Word} {l3 : BitVec 24} (consumer : Consumer) (h0 : l3 ≠ 0)
    (hrom : s.rom.Holds a.toNat (encodeElement (.hdr l3))) (hn : a.toNat + 4 ≤ s.params.romSize.toNat)
    (hcap : l3.toNat ≤ s.params.bufCap.val) :
    lz77 consumer a s = drain (s.params.romSize.toNat - a.toNat - 1)
      (mainLoop { freshWork consumer with length := l3.setWidth 32 } (s.moveCursor (a.toNat + 4))) := by
  have hc := cursor_setWork_moveCursor (w := freshWork consumer) (show a.toNat ≤ s.params.romSize.toNat by omega)
  obtain ⟨n, hfuel⟩ : ∃ n, s.params.romSize.toNat - a.toNat = n + 1 := ⟨_, (Nat.sub_add_cancel (by omega)).symm⟩
  rw [lz77, if_pos (inBounds_eq_true.2 (by omega)), hfuel, drain_succ rfl,
    elementStep_of_holds (e := .hdr l3) rfl (decide_eq_true h0) hrom hn, takeElement,
    takeHeader_fits (by rwa [hc]) (by rwa [shortLength_toNat]), mainLoop_setWork, hc]
  rfl

theorem storedBlock_eq (bs : List Byte) :
    storedBlock bs = encodeElement (.hdr (BitVec.ofNat 24 bs.length)) ++ storedBody 0 bs := by
  have byte (k : Nat) (hk : k < 3) :
      byteOf (BitVec.ofNat 24 bs.length) k = BitVec.ofNat 8 (bs.length / 2 ^ (8 * k)) := by
    refine BitVec.eq_of_toNat_eq ?_
    rw [byteOf_toNat, BitVec.toNat_ofNat, BitVec.toNat_ofNat]
    match k, hk with
    | 0, _ | 1, _ | 2, _ => omega
  simp [storedBlock, encodeElement, byte]

/-- Settles O35: the header declares the length of the list, and the body completes the empty output. -/
theorem storedBlockDecompresses : Obligations.StoredBlockDecompresses := by
  intro s a bs hpos hshort hcap hsize hrom
  have hlen : (BitVec.ofNat 24 bs.length).toNat = bs.length := Nat.mod_eq_of_lt hshort
  have h0 : BitVec.ofNat 24 bs.length ≠ 0 := fun h => by rw [h] at hlen; exact Nat.ne_of_lt hpos hlen
  rw [storedBlock_eq] at hsize hrom ⊢
  obtain ⟨hhdr, hbody⟩ := Memory.holds_append.1 hrom
  rw [List.length_append] at hsize ⊢
  have hfour : (encodeElement (.hdr (BitVec.ofNat 24 bs.length))).length = 4 := rfl
  rw [hfour] at hsize hbody ⊢
  refine congrArg Host.Outcome.next ((lz77_shortHeader .response h0 hhdr (by omega) (by omega)).trans ?_)
  have hlength : ((BitVec.ofNat 24 bs.length).setWidth 32 : Word).toNat = bs.length :=
    (shortLength_toNat _).trans hlen
  have hvalue : (BitVec.ofNat 24 bs.length).setWidth 32 = BitVec.ofNat 32 bs.length :=
    BitVec.setWidth_ofNat_of_le_of_lt (by decide) hshort
  rw [← Nat.add_assoc, ← hvalue]
  exact completes_storedBody s bs (Nat.zero_le 7) _ _ _ ⟨rfl, rfl, rfl⟩ ((Nat.zero_add _).trans hlength.symm) hbody
    (by omega) (by omega)

end Sys2Proof.Machine
end

section
/-! A successful `LZ77_DECOMPRESS` answers as many bytes as its header declares (spec/41_lz77.md R162): the length is
that of the header's bytes in the ROM, and every element after it keeps the length. -/
namespace Sys2Proof.Machine

/-! ### The declared length, as the ROM has it -/

/-- The length the header at `a` declares (spec/30_encoding.md R91, R92). -/
def declaredLength (m : Memory) (a : Nat) : Word :=
  if romU32 m a >>> 8 = 0 then romU32 m (a + 4) else romU32 m a >>> 8

/-- A byte put above the bits of a smaller value adds to it. -/
theorem or_byte_shiftLeft_toNat {x : Word} {k : Nat} (b : Byte) (hx : x.toNat < 2 ^ k) (hk : k ≤ 24) :
    (x ||| b.setWidth 32 <<< k).toNat = x.toNat + b.toNat * 2 ^ k := by
  have hb : b.toNat * 2 ^ k < 2 ^ 32 := calc
    b.toNat * 2 ^ k < 2 ^ 8 * 2 ^ k := Nat.mul_lt_mul_of_pos_right b.isLt (Nat.two_pow_pos k)
    _ = 2 ^ (8 + k) := (Nat.pow_add ..).symm
    _ ≤ 2 ^ 32 := Nat.pow_le_pow_right (by decide) (by omega)
  rw [BitVec.toNat_or, BitVec.toNat_shiftLeft, BitVec.toNat_setWidth_of_le (by decide), Nat.shiftLeft_eq,
    Nat.mod_eq_of_lt hb, Nat.or_comm, ← Nat.shiftLeft_eq, ← Nat.shiftLeft_add_eq_or_of_lt hx, Nat.shiftLeft_eq,
    Nat.add_comm]

theorem romU32_toNat (m : Memory) (a : Nat) : (romU32 m a).toNat =
    (m.byte a).toNat +
      256 * ((m.byte (a + 1)).toNat + 256 * ((m.byte (a + 2)).toNat + 256 * (m.byte (a + 3)).toNat)) := by
  have b0 := (m.byte a).isLt
  have b1 := (m.byte (a + 1)).isLt
  have b2 := (m.byte (a + 2)).isLt
  have h0 : (romU8 m a).toNat = (m.byte a).toNat := BitVec.toNat_setWidth_of_le (by decide)
  have h1 := or_byte_shiftLeft_toNat (k := 8) (m.byte (a + 1)) (by rw [h0]; exact b0) (by decide)
  have h2 := or_byte_shiftLeft_toNat (k := 16) (m.byte (a + 2)) (by rw [h1]; omega) (by decide)
  have h3 := or_byte_shiftLeft_toNat (k := 24) (m.byte (a + 3)) (by rw [h2]; omega) (by decide)
  refine h3.trans ?_
  omega

theorem romU32_shift (m : Memory) (a : Nat) :
    romU32 m a >>> 8 = (le24 (m.byte (a + 1)) (m.byte (a + 2)) (m.byte (a + 3))).setWidth 32 := by
  refine BitVec.eq_of_toNat_eq ?_
  rw [shortLength_toNat, le24_toNat, BitVec.toNat_ushiftRight, romU32_toNat, Nat.shiftRight_eq_div_pow]
  omega

theorem romU32_eq_le32 (m : Memory) (a : Nat) :
    romU32 m a = le32 (m.byte a) (m.byte (a + 1)) (m.byte (a + 2)) (m.byte (a + 3)) :=
  BitVec.eq_of_toNat_eq ((romU32_toNat m a).trans (le32_toNat ..).symm)

/-! ### The header the decoder reads -/

/-- The bytes of a header, and the element they are (spec/30_encoding.md R91, R92). -/
inductive HeaderRead : List Byte → Element → Prop where
  | short (m b1 b2 b3 : Byte) (rest : List Byte) (h : le24 b1 b2 b3 ≠ 0) :
    HeaderRead (m :: b1 :: b2 :: b3 :: rest) (.hdr (le24 b1 b2 b3))
  | extended (m b1 b2 b3 b4 b5 b6 b7 : Byte) (rest : List Byte) (h : le24 b1 b2 b3 = 0) :
    HeaderRead (m :: b1 :: b2 :: b3 :: b4 :: b5 :: b6 :: b7 :: rest) (.hdrx (le32 b4 b5 b6 b7))

theorem decodeLength_cases {m : Byte} {bs : List Byte} {e : Element} (h : decodeLength bs = .ok e) :
    HeaderRead (m :: bs) e := by
  unfold decodeLength at h
  split at h
  · split at h
    · cases h; exact .short _ _ _ _ _ ‹_›
    · split at h
      · cases h; exact .extended _ _ _ _ _ _ _ _ _ (Decidable.not_not.1 ‹_›)
      · cases h
  · cases h

theorem decodeElement_header_cases {bs : List Byte} {e : Element} (h : decodeElement .header bs = .ok e) :
    HeaderRead bs e := by
  cases bs with
  | nil => cases h
  | cons m bs =>
    by_cases hm : m = 0x10#8
    · exact decodeLength_cases ((if_pos hm).symm.trans h)
    · cases (if_neg hm).symm.trans h

theorem Memory.holds_bytes (m : Memory) (a n : Nat) : m.Holds a (m.bytes a n) := fun k hk =>
  (m.getD_bytes a n k (by rwa [m.length_bytes] at hk) 0).symm

/-- A header read from the ROM declares the length that stands there. -/
theorem HeaderRead.takeElement_eq {m : Memory} {a : Nat} {bs : List Byte} {e : Element} (h : HeaderRead bs e)
    (hrom : m.Holds a bs) (w : Lz77Work) (s : State) :
    ∃ n, takeElement e w s = takeHeader n (declaredLength m a) w s := by
  cases h with
  | short m' b1 b2 b3 rest h0 =>
    simp only [Memory.holds_cons] at hrom
    obtain ⟨-, rfl, rfl, rfl, -⟩ := hrom
    have hne : (le24 (m.byte (a + 1)) (m.byte (a + 1 + 1)) (m.byte (a + 1 + 1 + 1))).setWidth 32 ≠ (0 : Word) :=
      fun h => h0 (BitVec.eq_of_toNat_eq (by rw [← shortLength_toNat, h]; rfl))
    rw [declaredLength, romU32_shift, if_neg hne]
    exact ⟨4, rfl⟩
  | extended m' b1 b2 b3 b4 b5 b6 b7 rest h0 =>
    simp only [Memory.holds_cons] at hrom
    obtain ⟨-, rfl, rfl, rfl, rfl, rfl, rfl, rfl, -⟩ := hrom
    rw [declaredLength, romU32_shift, if_pos (by rw [h0]; rfl), romU32_eq_le32]
    exact ⟨8, rfl⟩

theorem fetchElement_header {s : State} {w : Lz77Work} {e : Element} (hw : w.phase = .header)
    (h : fetchElement w s = .ok e) :
    ∃ n, takeElement e w s = takeHeader n (declaredLength s.rom s.cursor.toNat) w s := by
  rw [fetchElement, nextExpect_header.2 hw] at h
  exact (decodeElement_header_cases h).takeElement_eq (Memory.holds_bytes _ _ _) w s

/-! ### The length is kept to the end -/

/-- If the response is a success it is as long as declared, one byte in each word. -/
def AnswersLength (length : Word) (t : State) : Prop :=
  ∀ v d, t.response = some ⟨0, v, d⟩ → d.length = v.toNat ∧ (∀ x ∈ d, x.toNat ≤ 255) ∧ v = length

theorem errorCode_ne_zero (e : Error) : errorCode e ≠ 0 := by cases e <;> decide

theorem raise_answersLength {length : Word} {s : State} {e : Error} {info : Word} :
    AnswersLength length (s.raise e info) := by
  intro v d h
  rw [State.raise_response, Option.some.injEq, Response.mk.injEq] at h
  exact absurd h.1 (errorCode_ne_zero e)

theorem deliver_answersLength {length : Word} {bytes : List Byte} (h : bytes.length = length.toNat)
    (s : State) (c : Nat) : AnswersLength length (deliver .response bytes true (s.moveCursor c)) := by
  rw [deliver_response_of_length h]
  rintro v d ⟨⟩
  refine ⟨by rw [List.length_map, h], fun x hx => ?_, rfl⟩
  obtain ⟨b, -, rfl⟩ := List.mem_map.1 hx
  rw [BitVec.toNat_setWidth_of_le (by decide)]
  exact Nat.le_of_lt_succ b.isLt

/-- An `LZ77_DECOMPRESS` past its header with this declared length, or ended. -/
inductive PastHeader (length : Word) (t : State) : Prop where
  | running (w : Lz77Work) (work : t.work = some w) (consumer : w.consumer = .response) (phase : w.phase ≠ .header)
      (declared : w.length = length) (sound : w.sound t.params.bufCap.val = true)
  | ended (work : t.work = none) (answer : AnswersLength length t)

theorem PastHeader.elementStep {length : Word} {t : State} (h : PastHeader length t) :
    PastHeader length (elementStep t) := by
  cases h with
  | ended work answer => rw [elementStep_none work]; exact .ended work answer
  | running w work consumer phase declared sound =>
    have taken := elementStep_cases work
    generalize Machine.elementStep t = u at taken ⊢
    cases taken with
    | goes w' c _ _ consumer' phase' length' sound' =>
      exact .running w' rfl (consumer'.trans consumer) phase' ((length' phase).trans declared) (sound' sound)
    | ends bytes c _ _ length' =>
      rw [consumer]
      exact .ended rfl (deliver_answersLength (declared ▸ length' phase sound) t c)
    | fails e info c => exact .ended rfl raise_answersLength

theorem takeHeader_pastHeader {n : Nat} {length : Word} {w : Lz77Work} {s : State} (hw : w.consumer = .response) :
    PastHeader length (takeHeader n length w s) := by
  unfold takeHeader consume
  split
  · dsimp only
    split
    · exact .ended rfl raise_answersLength
    · have hcap := Nat.le_of_not_lt ‹_›
      unfold mainLoop
      split
      · exact .running _ rfl hw (by simp) rfl ((sound_group rfl).2 ⟨‹_›, rfl, hcap⟩)
      · rw [hw]
        exact .ended rfl (deliver_answersLength (by exact (Nat.eq_zero_of_not_pos ‹_›).symm) s _)
  · exact .ended rfl raise_answersLength

theorem streamRejects_pastHeader (length : Word) (r : Reject) (s : State) :
    PastHeader length (streamRejects r s) := by
  cases r <;> exact .ended rfl raise_answersLength

theorem elementStep_pastHeader {s : State} {w : Lz77Work} (hw : s.work = some w) (hphase : w.phase = .header)
    (hcons : w.consumer = .response) : PastHeader (declaredLength s.rom s.cursor.toNat) (elementStep s) := by
  unfold elementStep
  rw [hw]
  dsimp only
  split
  · obtain ⟨n, hn⟩ := fetchElement_header hphase ‹_›
    rw [hn]
    exact takeHeader_pastHeader hcons
  · exact streamRejects_pastHeader ..

theorem lz77_answersLength (a : Word) (s : State) :
    AnswersLength (declaredLength s.rom a.toNat) (lz77 .response a s) := by
  by_cases ha : a.toNat + 1 ≤ s.params.romSize.toNat
  · obtain ⟨n, hfuel⟩ : ∃ n, s.params.romSize.toNat - a.toNat = n + 1 := ⟨_, (Nat.sub_add_cancel (by omega)).symm⟩
    have hend := drain_work (n + 1) ((s.moveCursor a.toNat).setWork (freshWork .response)) (by simp [hfuel])
    rw [lz77, if_pos (inBounds_eq_true.2 ha), hfuel]
    rw [drain_succ rfl] at hend ⊢
    have start := elementStep_pastHeader (s := (s.moveCursor a.toNat).setWork (freshWork .response)) rfl rfl rfl
    rw [cursor_setWork_moveCursor (by omega)] at start
    have h := drain_induct (PastHeader (declaredLength s.rom a.toNat)) (fun _ _ _ h => h.elementStep) n _ start
    cases h with
    | running w work => rw [work] at hend; cases hend
    | ended _ answer => exact answer
  · rw [lz77, if_neg (by rwa [inBounds_eq_true])]
    exact raise_answersLength

/-- Settles O37: past its header a decompression keeps the declared length until it delivers that many bytes. -/
theorem outputLengthIsTheDeclaredLength : Obligations.OutputLengthIsTheDeclaredLength := by
  intro s t a v d h hresponse
  cases h
  exact lz77_answersLength a s v d hresponse

end Sys2Proof.Machine
end

section
/-! Every command ends with one response whose code is in `STATUS.ERR` (spec/44_system.md R232, R233). -/
namespace Sys2Proof.Machine

/-- The state holds a response, and `STATUS.ERR` its code. -/
def Responded (t : State) : Prop := ∃ r, t.response = some r ∧ statusErr t.status = r.err

theorem finish_responded (s : State) (r : Response) : Responded (s.finish r) := ⟨r, rfl, statusErr_withErr ..⟩

theorem deliver_responded (consumer : Consumer) (bytes : List Byte) (comp : Bool) (s : State) :
    Responded (deliver consumer bytes comp s) := by
  obtain ⟨v, d, h⟩ := deliver_response consumer bytes comp s
  exact ⟨_, h, statusErr_deliver ..⟩

theorem Decompressed.responded {consumer : Consumer} {s t : State} {a : Word} (h : Decompressed consumer s a t) :
    Responded t := by
  cases h with
  | unread => exact finish_responded ..
  | done => exact deliver_responded ..
  | failed => exact finish_responded ..

theorem Loaded.responded {consumer : Consumer} {a : Word} {n : Nat} {s t : State} (h : Loaded consumer a n s t) :
    Responded t := by
  cases h with
  | unread | tooLong | tooLarge => exact finish_responded ..
  | compressed _ _ _ run => exact run.responded
  | copied => exact deliver_responded ..

theorem CommandEnd.responded {i : Instr} {s t : State} (h : CommandEnd s i t) : Responded t := by
  cases h with
  | accessed m c v d => exact finish_responded ((s.setRom m).moveCursor c) ⟨0, v, d⟩
  | answered v d => exact finish_responded s ⟨0, v, d⟩
  | outside info => exact finish_responded s ⟨1, info, []⟩
  | decompressed run => exact run.responded
  | paletteLoaded run => exact run.responded
  | planeLoaded run => exact run.responded

/-- Settles O51: each way a command can end is one response, and the decoder is gone with it. -/
theorem everyCommandIsAnswered : Obligations.EveryCommandIsAnswered := by
  intro i s hi
  obtain ⟨t, ht, hend⟩ := exec_command_end hi s
  obtain ⟨r, hr, herr⟩ := hend.responded
  exact ⟨t, r, ht, hend.work_eq_none, hr, herr⟩

end Sys2Proof.Machine
end

section
/-! The byte accessor commands (spec/40_rombuffer.md R110 to R126): their encodings, what each answers and stores where
its range lies in the ROM, and the one way each can fail. -/
namespace Sys2Proof.Machine

/-! ### A range that does not lie in the ROM (R126) -/

/-- Settles O19: each of the thirteen commands is one of four shared bodies, and each body checks its whole range
first. -/
theorem failedAccessChangesNothing : Obligations.FailedAccessChangesNothing := by
  intro i start n s a hi ha hb
  cases i with
  | readU8 | readU16 | readU32 | readPtr =>
    cases hi; exact congrArg Host.Outcome.next (scalarRead_fails _ _ ha hb)
  | readU8N =>
    cases hi; exact congrArg Host.Outcome.next (bulkRead_fails 1 _ ha (by rwa [Nat.mul_one]))
  | readU16N | readU32N =>
    cases hi; exact congrArg Host.Outcome.next (bulkRead_fails _ _ ha hb)
  | writeU8 | writeU16 | writeU32 =>
    cases hi; exact congrArg Host.Outcome.next (scalarWrite_fails _ _ ha hb)
  | writeU8N =>
    cases hi; exact congrArg Host.Outcome.next (bulkWrite_fails 1 _ ha (by rwa [Nat.mul_one]))
  | writeU16N | writeU32N =>
    cases hi; exact congrArg Host.Outcome.next (bulkWrite_fails _ _ ha hb)
  | lz77Decompress | paletteLoad | paletteGet | rgbUnpack | pixelLoad | pixelGet | readReg => cases hi
  | lz77Hdr | lz77Hdrx | lz77Flags | lz77Lit | lz77Ref => cases hi

theorem exec_of_outside {i : Instr} {start : Start} {n : Nat} {s : State} {a : Word}
    (hi : i.accessRange = some (start, n)) (h : startsAt start s a) (hb : s.params.romSize.toNat < a.toNat + n) :
    exec i s = .next (s.failed s.cursor 1 a) := failedAccessChangesNothing i start n s a hi h hb

/-! ### The encodings (R81, R82) -/

/-- The addressed form of an accessor has bit 8 set as well. -/
theorem commandWord_or_addressed (op : Byte) : commandWord op false 0 ||| 0x100#32 = commandWord op true 0 := by
  have low : op.toNat ||| 256 = 256 + op.toNat := by
    rw [Nat.or_comm]; exact (Nat.shiftLeft_add_eq_or_of_lt (a := 1) op.isLt).symm
  refine BitVec.eq_of_toNat_eq ?_
  simp [commandWord_toNat, low]

/-- A row of the opcode map whose decoding reads its start from `A` and `ADDR`. -/
theorem accessorOpcode_of_row (op : Byte) {legal : Command → Prop} {make : Start → Command → Instr}
    (row : ∀ c, opField c.cmd = op → depthField c.cmd = 0 → legal c → decodeOp c = .ok (make (startOf c) c)) :
    accessorOpcode (commandWord op false 0) legal make := by
  have decoded {c : Command} {a : Bool} (hl : legal c) (hc : c.cmd = commandWord op a 0) :
      decode c = .ok (make (if a then .addressed c.addr else .atCursor) c) := by
    have hstart : startOf c = if a then .addressed c.addr else .atCursor := by rw [startOf, hc, aField_commandWord]
    rw [← hstart]
    exact decode_eq_ok.2 ⟨by simp [hc], row c (by simp [hc]) (by simp [hc]) hl⟩
  exact fun c hl => ⟨fun hc => decoded hl hc, fun hc => decoded hl (hc.trans (commandWord_or_addressed op))⟩

/-- The rows that check nothing but `DEPTH` (R90 item 3). -/
theorem accessorOpcode_of_accessorForm (op : Byte) {make : Start → Command → Instr}
    (row : ∀ c, opField c.cmd = op → decodeOp c = accessorForm c (make (startOf c) c)) :
    accessorOpcode (commandWord op false 0) (fun _ => True) make :=
  accessorOpcode_of_row op fun c hop hd _ => (row c hop).trans (accessorForm_eq_ok.2 ⟨hd, rfl⟩)

/-- The rows that check `DATA` against `COUNT` too (R90 item 4). -/
theorem accessorOpcode_of_bulkWriteForm (op : Byte) {make : Start → Command → Instr}
    (row : ∀ c, opField c.cmd = op → decodeOp c = bulkWriteForm c (make (startOf c) c)) :
    accessorOpcode (commandWord op false 0) countMatches make :=
  accessorOpcode_of_row op fun c hop hd hl => (row c hop).trans (bulkWriteForm_eq_ok.2 ⟨hl, hd, rfl⟩)

/-! ### The shared bodies where the range lies in the ROM -/

/-- `FULL_WIDTH` stores every byte of an element, `LEGACY_BYTE` byte 0 alone (R122). -/
theorem lt_storedWidth {mode : BulkWriteMode} {w k : Nat} (hk : k < w) :
    k < storedWidth mode w ↔ mode = .fullWidth ∨ k = 0 := by
  cases mode with
  | fullWidth => simp [storedWidth, hk]
  | legacyByte => simp [storedWidth]

section
variable {s : State} {start : Start} {a : Word} (h : startsAt start s a)
include h

theorem scalarRead_answers (w : Nat) (f : Word → Word) {v : Word} (hv : f (s.rom.readLE a.toNat w) = v)
    (hb : a.toNat + w ≤ s.params.romSize.toNat) :
    scalarRead start w f s = s.succeeded (BitVec.ofNat 32 (a.toNat + w)) v [] := hv ▸ scalarRead_fits w f h hb

/-- The list of a bulk read holds the values in address order, at the stride of their width (R115). -/
theorem bulkRead_answers (w : Nat) {value : Memory → Nat → Word} (hvalue : ∀ m a, m.readLE a w = value m a)
    {count : Word} (hb : a.toNat + w * count.toNat ≤ s.params.romSize.toNat) :
    ∃ d, bulkRead start w count s = s.succeeded (BitVec.ofNat 32 (a.toNat + w * count.toNat)) count d ∧
      d.length = count.toNat ∧ ∀ i, i < count.toNat → d.getD i 0 = value s.rom (a.toNat + w * i) := by
  rw [Nat.mul_comm] at hb ⊢
  refine ⟨_, bulkRead_fits w count h hb, by simp, fun i hi => ?_⟩
  simp [hi, hvalue, Nat.mul_comm]

/-- A scalar write stores its bytes little-endian from the start on, and no other (R119 to R121). -/
theorem scalarWrite_stores (w : Nat) (v : Word) (hm : s.rom.wf = true)
    (hb : a.toNat + w ≤ s.params.romSize.toNat) :
    ∃ m, scalarWrite start w v s = (s.setRom m).succeeded (BitVec.ofNat 32 (a.toNat + w)) 0 [] ∧
      (∀ k, k < w → m.byte (a.toNat + k) = v.extractLsb' (8 * k) 8) ∧
      ∀ b, (b < a.toNat ∨ a.toNat + w ≤ b) → m.byte b = s.rom.byte b := by
  refine ⟨_, scalarWrite_fits w v h hb, fun k hk => ?_, fun b hout => ?_⟩
  · rw [Memory.byte_writeLE _ _ _ _ hm, if_pos (by omega), Nat.add_sub_cancel_left]
  · rw [Memory.byte_writeLE _ _ _ _ hm, if_neg (by omega)]

/-- A bulk write stores each element at the stride of its width, as much of it as the mode says, and no other byte
(R122). -/
theorem bulkWrite_stores {w : Nat} (hw : 1 ≤ w) {data : List Word} (hm : s.rom.wf = true)
    (hb : a.toNat + w * data.length ≤ s.params.romSize.toNat) :
    ∃ m, bulkWrite start w data s =
        (s.setRom m).succeeded (BitVec.ofNat 32 (a.toNat + w * data.length)) 0 [] ∧
      (∀ i k, i < data.length → k < w → m.byte (a.toNat + w * i + k) =
        if s.params.bulkWrite = .fullWidth ∨ k = 0 then (data.getD i 0).extractLsb' (8 * k) 8
        else s.rom.byte (a.toNat + w * i + k)) ∧
      ∀ b, (b < a.toNat ∨ a.toNat + w * data.length ≤ b) → m.byte b = s.rom.byte b := by
  rw [Nat.mul_comm] at hb ⊢
  obtain ⟨stored, kept⟩ := byte_bulkStore s.rom a.toNat w _ data (storedWidth_le s.params.bulkWrite w hw) hm
  refine ⟨_, bulkWrite_fits w data h hb, fun i k hi hk => ?_, kept⟩
  simp only [Nat.mul_comm w i, stored i k hi hk, lt_storedWidth hk]

end

/-! ### Scalar reads (R111 to R114) -/

/-- Settles O14: the three widths of one scalar read. -/
theorem scalarReads : Obligations.ScalarReads := by
  refine ⟨accessorOpcode_of_accessorForm 0x01#8 ?_, accessorOpcode_of_accessorForm 0x02#8 ?_,
    accessorOpcode_of_accessorForm 0x03#8 ?_, fun s start a h =>
      ⟨fun hb => congrArg Host.Outcome.next (scalarRead_answers h 1 id (readLE_one ..) hb), exec_of_outside rfl h,
        fun hb => congrArg Host.Outcome.next (scalarRead_answers h 2 id (readLE_two ..) hb), exec_of_outside rfl h,
        fun hb => congrArg Host.Outcome.next (scalarRead_answers h 4 id (readLE_four ..) hb),
        exec_of_outside rfl h⟩⟩
  all_goals intro c hop; rw [decodeOp, hop]; rfl

/-- The mask of R114 keeps the low 25 bits. -/
theorem pointerMask_eq (v : Word) : pointerMask v = (v.extractLsb' 0 25).setWidth 32 := by
  refine BitVec.eq_of_toNat_eq ?_
  rw [pointerMask, BitVec.toNat_and, BitVec.toNat_setWidth_of_le (by decide), BitVec.extractLsb'_toNat,
    Nat.shiftRight_zero]
  exact Nat.and_two_pow_sub_one_eq_mod v.toNat 25

/-- Settles O15: a scalar read of four bytes, its value passed through the pointer mask. -/
theorem pointerRead : Obligations.PointerRead := by
  refine ⟨accessorOpcode_of_accessorForm 0x04#8 fun c hop => ?_,
    fun s start a h => ⟨fun hb => ?_, exec_of_outside rfl h⟩⟩
  · rw [decodeOp, hop]; rfl
  · refine congrArg Host.Outcome.next (scalarRead_answers h 4 pointerMask ?_ hb)
    rw [readLE_four, pointerMask_eq]

/-! ### Bulk reads (R115 to R118) -/

/-- Settles O16: the three widths of one bulk read. -/
theorem bulkReads : Obligations.BulkReads := by
  refine ⟨accessorOpcode_of_accessorForm 0x05#8 ?u8, accessorOpcode_of_accessorForm 0x06#8 ?u16,
    accessorOpcode_of_accessorForm 0x07#8 ?u32, fun s start a count h => ⟨fun hb => ?_, exec_of_outside rfl h,
      fun hb => ?_, fun hb => exec_of_outside rfl h (by rwa [Nat.mul_comm]),
      fun hb => ?_, fun hb => exec_of_outside rfl h (by rwa [Nat.mul_comm])⟩⟩
  case u8 | u16 | u32 => intro c hop; rw [decodeOp, hop]; rfl
  · obtain ⟨d, run, values⟩ := bulkRead_answers h 1 readLE_one (by rwa [Nat.one_mul])
    simp only [Nat.one_mul] at run values
    exact ⟨d, congrArg Host.Outcome.next run, values⟩
  · obtain ⟨d, run, values⟩ := bulkRead_answers h 2 readLE_two hb
    exact ⟨d, congrArg Host.Outcome.next run, values⟩
  · obtain ⟨d, run, values⟩ := bulkRead_answers h 4 readLE_four hb
    exact ⟨d, congrArg Host.Outcome.next run, values⟩

/-! ### Scalar writes (R119 to R121) -/

/-- Settles O17: the three widths of one scalar write. -/
theorem scalarWrites : Obligations.ScalarWrites := by
  refine ⟨accessorOpcode_of_accessorForm 0x09#8 ?u8, accessorOpcode_of_accessorForm 0x0A#8 ?u16,
    accessorOpcode_of_accessorForm 0x0B#8 ?u32, fun s start a v hm h => ⟨fun hb => ?_, exec_of_outside rfl h,
      fun hb => ?_, exec_of_outside rfl h, fun hb => ?_, exec_of_outside rfl h⟩⟩
  case u8 | u16 | u32 => intro c hop; rw [decodeOp, hop]; rfl
  · obtain ⟨m, run, stored, kept⟩ := scalarWrite_stores h 1 v hm hb
    exact ⟨m, congrArg Host.Outcome.next run, stored 0 (by decide), kept⟩
  · obtain ⟨m, run, stored, kept⟩ := scalarWrite_stores h 2 v hm hb
    exact ⟨m, congrArg Host.Outcome.next run, stored 0 (by decide), stored 1 (by decide), kept⟩
  · obtain ⟨m, run, stored, kept⟩ := scalarWrite_stores h 4 v hm hb
    exact ⟨m, congrArg Host.Outcome.next run, stored 0 (by decide), stored 1 (by decide), stored 2 (by decide),
      stored 3 (by decide), kept⟩

/-! ### Bulk writes (R122 to R125) -/

/-- A bulk write whose `DATA` is not `COUNT` long is illegal (R90 item 4). -/
theorem decode_error_of_not_countMatches {c : Command} (hop : c.cmd.toNat % 256 = 0x0D ∨
    c.cmd.toNat % 256 = 0x0E ∨ c.cmd.toNat % 256 = 0x0F) (h : ¬ countMatches c) : ∃ r, decode c = .error r :=
  decode_error_of_illegal (.inr (.inr (.inr (.inl ⟨hop, h⟩))))

/-- Settles O18: the three widths of one bulk write. -/
theorem bulkWrites : Obligations.BulkWrites := by
  refine ⟨accessorOpcode_of_bulkWriteForm 0x0D#8 ?u8, accessorOpcode_of_bulkWriteForm 0x0E#8 ?u16,
    accessorOpcode_of_bulkWriteForm 0x0F#8 ?u32, fun c hcount hc => decode_error_of_not_countMatches ?_ hcount,
    fun s start a data hm h => ⟨fun hb => ?_, exec_of_outside rfl h,
      fun hb => ?_, fun hb => exec_of_outside rfl h (by rwa [Nat.mul_comm]),
      fun hb => ?_, fun hb => exec_of_outside rfl h (by rwa [Nat.mul_comm])⟩⟩
  case u8 | u16 | u32 => intro c hop; rw [decodeOp, hop]; rfl
  · rcases hc with hc | hc | hc | hc | hc | hc <;> simp [hc]
  · obtain ⟨m, run, stored, kept⟩ := bulkWrite_stores h (w := 1) (by decide) hm (by rwa [Nat.one_mul])
    simp only [Nat.one_mul] at run stored kept
    exact ⟨m, congrArg Host.Outcome.next run,
      fun i hi => (stored i 0 hi (by decide)).trans (if_pos (.inr rfl)), kept⟩
  · obtain ⟨m, run, stored, kept⟩ := bulkWrite_stores h (w := 2) (by decide) hm hb
    exact ⟨m, congrArg Host.Outcome.next run, stored, kept⟩
  · obtain ⟨m, run, stored, kept⟩ := bulkWrite_stores h (w := 4) (by decide) hm hb
    exact ⟨m, congrArg Host.Outcome.next run, stored, kept⟩

/-! ### The bytes a write leaves -/

section
variable {s : State} {start : Start} {a : Word} (h : startsAt start s a) (hm : s.rom.wf = true) {b : Nat}
include h hm

theorem scalarWrite_byte_outside {w : Nat} {v : Word} (hout : b < a.toNat ∨ a.toNat + w ≤ b) :
    (scalarWrite start w v s).rom.byte b = s.rom.byte b := by
  rcases Nat.lt_or_ge s.params.romSize.toNat (a.toNat + w) with hb | hb
  · rw [scalarWrite_fails w v h hb]; rfl
  · obtain ⟨m, run, -, kept⟩ := scalarWrite_stores h w v hm hb
    rw [run]; exact kept b hout

theorem bulkWrite_byte_outside {w : Nat} (hw : 1 ≤ w) {data : List Word}
    (hout : b < a.toNat ∨ a.toNat + data.length * w ≤ b) :
    (bulkWrite start w data s).rom.byte b = s.rom.byte b := by
  rcases Nat.lt_or_ge s.params.romSize.toNat (a.toNat + data.length * w) with hb | hb
  · rw [bulkWrite_fails w data h hb]; rfl
  · rw [Nat.mul_comm] at hb hout
    obtain ⟨m, run, -, kept⟩ := bulkWrite_stores h hw hm hb
    rw [run]; exact kept b hout

end

/-- Settles O23: a write stores inside its range or fails; the rest of the state is that of any write. -/
theorem frameOfWritingCommands : Obligations.FrameOfWritingCommands := by
  intro i start n s t a hi hrange h hm run
  refine ⟨fun b hout => ?_, exec_write_keeps_buffers hi run⟩
  cases i with
  | writeU8 | writeU16 | writeU32 => cases hrange; cases run; exact scalarWrite_byte_outside h hm hout
  | writeU8N => cases hrange; cases run; exact bulkWrite_byte_outside h hm (by decide) (by rwa [Nat.mul_one])
  | writeU16N | writeU32N => cases hrange; cases run; exact bulkWrite_byte_outside h hm (by decide) hout
  | _ => cases hi

end Sys2Proof.Machine
end

section
/-! Stream elements one by one: headers above the capacity, literals stored and dropped, back-references that clip or
fail (spec/41_lz77.md R153 to R162). -/
namespace Sys2Proof.Machine

section
variable {s t : State} {w : Lz77Work}

theorem takeHeader_aboveCapacity {n : Nat} {length : Word}
    (hn : s.cursor.toNat + n ≤ s.params.romSize.toNat) (hcap : s.params.bufCap.val < length.toNat) :
    takeHeader n length w s = (s.moveCursor (s.cursor.toNat + n)).raise .outputTooLarge length := by
  unfold takeHeader
  rw [consume_fits _ hn, if_pos hcap]

/-- A back-reference whose two bytes are in the ROM: the two checks, then the copy. -/
theorem takeRef_fits {len : BitVec 4} {offset : BitVec 12}
    (hn : s.cursor.toNat + 2 ≤ s.params.romSize.toNat) : takeRef len offset w s =
      if w.position ≤ offset.toNat then (s.moveCursor (s.cursor.toNat + 2)).raise .invalidBackReference s.cursor
      else if s.params.overrun = .fault ∧ w.length.toNat < w.position + (len.toNat + 3) then
        (s.moveCursor (s.cursor.toNat + 2)).raise .overrun s.cursor
      else
        afterItem false
          { w with
            out := matchCopy w.position offset.toNat w.length.toNat (len.toNat + 3) w.out
            position := w.position + (len.toNat + 3) } (s.moveCursor (s.cursor.toNat + 2)) := by
  unfold takeRef
  rw [consume_fits _ hn]

theorem afterItem_of_end {leave : Bool} (h : (leave || decide (w.length.toNat < w.position)) = true) :
    afterItem leave w s = mainLoop w s := if_pos (by simp [h])

theorem exec_lit (x : Byte) (hw : s.work = some w) (hphase : w.phase = .item)
    (hflag : w.flags.getLsbD w.bit.val = false) (ht : takeLiteral x w s = t) : exec (.lz77Lit x) s = .next t :=
  whereExpected_eq hw (nextExpect_literal.2 ⟨hphase, hflag⟩) ht

theorem exec_ref (len : BitVec 4) (offset : BitVec 12) (hw : s.work = some w) (hphase : w.phase = .item)
    (hflag : w.flags.getLsbD w.bit.val = true) (ht : takeRef len offset w s = t) :
    exec (.lz77Ref len offset) s = .next t :=
  whereExpected_eq hw (nextExpect_backRef.2 ⟨hphase, hflag⟩) ht

end

/-- Settles O27: the capacity is checked behind the header's bytes. -/
theorem headerAboveCapacity : Obligations.HeaderAboveCapacity := by
  intro s w hw hphase
  have hx := nextExpect_header.2 hphase
  exact ⟨fun l3 hn hcap => whereExpected_eq hw hx (takeHeader_aboveCapacity hn (by rwa [shortLength_toNat])),
    fun l4 hn hcap => whereExpected_eq hw hx (takeHeader_aboveCapacity hn hcap)⟩

/-- Settles O29: a literal is appended, and the flag bit and the declared length say where the decoder goes. -/
theorem literalIsStored : Obligations.LiteralIsStored := by
  intro s w x hw hphase hflag hp hn
  have run {t : State} (ht : _ = t) : exec (.lz77Lit x) s = .next t :=
    exec_lit x hw hphase hflag ((takeLiteral_stores x hn hp).trans ht)
  refine ⟨fun b hb => run ?_, fun hb hlt => run ?_, fun hb hfull hcons => run ?_⟩
  · refine (afterItem_of_bit_succ _ (by exact hb) (by exact hp)).trans ?_
    rw [← hphase]; rfl
  · exact (afterItem_of_bit_zero _ _ (by exact hb)).trans (mainLoop_of_lt _ (by exact hlt))
  · refine ((afterItem_of_bit_zero _ _ (by exact hb)).trans
      (mainLoop_of_ge _ (by exact Nat.le_of_eq hfull.symm))).trans ?_
    have hlen : (w.out ++ [x]).length = w.out.length + 1 := List.length_append
    rw [hcons, ← hlen]
    rfl

/-- Settles O30: a pad leaves the working state as it is, and ends the group where it is 0 or at bit 0. -/
theorem trailingPadIsDropped : Obligations.TrailingPadIsDropped := by
  intro s w x hw hphase hflag hp hn
  have hfull := Nat.le_of_eq hp.symm
  have run {t : State} (ht : _ = t) : exec (.lz77Lit x) s = .next t :=
    exec_lit x hw hphase hflag ((takeLiteral_pad x hn hfull).trans ht)
  refine ⟨fun hend hcons => run ?_, fun b hx hb => run ?_⟩
  · have hleave : afterItem (decide (x = 0)) w (s.moveCursor (s.cursor.toNat + 1)) = _ :=
      if_pos (by simpa [or_right_comm] using hend.imp_left .inl)
    rw [hleave, mainLoop_of_ge _ hfull, hcons]
    rfl
  · rw [decide_eq_false hx, afterItem_of_bit_succ _ hb (Nat.le_of_eq hp), ← hphase]
    rfl

/-- Settles O32: the copy stops at the declared length, and behind it the decoder delivers. -/
theorem backReferenceClips : Obligations.BackReferenceClips := by
  intro s w len offset hw hphase hflag hcons hout ho hp hover hclip hn
  obtain ⟨hlen, hkeep, hcopy⟩ :=
    matchCopy_spec w.position offset.toNat w.length.toNat (len.toNat + 3) w.out hout ho hp
  rw [Nat.min_eq_right (Nat.le_of_lt hover)] at hlen
  refine ⟨_, exec_ref len offset hw hphase hflag ?_, hlen, hkeep, fun j hj => hcopy j (by omega) hj⟩
  rw [takeRef_fits hn, if_neg (Nat.not_le.2 ho), if_neg (by simp [hclip]),
    afterItem_of_end (by simpa using hover), mainLoop_of_ge _ (Nat.le_of_lt hover), hcons]
  exact deliver_response_of_length hlen _ _ _

/-- Settles O33: the two checks of a back-reference, in their order. -/
theorem backReferenceErrors : Obligations.BackReferenceErrors := by
  intro s w len offset hw hphase hflag hn
  refine ⟨fun ho => exec_ref len offset hw hphase hflag ?_,
    fun ho hover hfault => exec_ref len offset hw hphase hflag ?_⟩
  · rw [takeRef_fits hn, if_pos ho]; rfl
  · rw [takeRef_fits hn, if_neg (Nat.not_le.2 ho), if_pos ⟨hfault, hover⟩]; rfl

end Sys2Proof.Machine
end

section
/-! The procedure of spec/41_lz77.md R151 read by read (`Proc`), and the end of a decompression as a relation
(`EndsIn`), which needs no count of its elements. -/
namespace Sys2Proof.Machine

/-! ### Procedures -/

section
variable {α β : Type} {p : Proc α} {k : α → Proc β} {c c' : Nat}

theorem Proc.bind_of_ok {x : α} (h : p c = .ok x c') : (p >>= k) c = k x c' := by
  simp [bind, EStateM.bind, h]

theorem Proc.bind_of_error {e : Error × Nat} (h : p c = .error e c') : (p >>= k) c = .error e c' := by
  simp [bind, EStateM.bind, h]

end

section
variable {s : State} {α β : Type} {c : Nat}

theorem procRdB_bind {k : Byte → Proc α} (h : c + 1 ≤ s.params.romSize.toNat) :
    (procRdB s >>= k) c = k (s.rom.byte c) (c + 1) := Proc.bind_of_ok (if_pos h)

/-- The procedure reads at least `n` bytes: with fewer left it stops at the end of the ROM (spec/20_memory.md R58). -/
def Proc.Needs (s : State) (n : Nat) (p : Proc α) : Prop :=
  ∀ c, c ≤ s.params.romSize.toNat → s.params.romSize.toNat < c + n →
    p c = .error (.outOfBounds, s.params.romSize.toNat) s.params.romSize.toNat

theorem Proc.needs_zero (p : Proc α) : p.Needs s 0 := fun _ hc hn => absurd hn (Nat.not_lt.2 hc)

theorem Proc.needs_rdB {k : Byte → Proc α} {n : Nat} (h : ∀ x, (k x).Needs s n) :
    Proc.Needs s (n + 1) (procRdB s >>= k) := by
  intro c hc hn
  by_cases hin : c + 1 ≤ s.params.romSize.toNat
  · rw [procRdB_bind hin]
    exact h _ _ hin (by omega)
  · obtain rfl : c = s.params.romSize.toNat := by omega
    exact Proc.bind_of_error (if_neg hin)

theorem Proc.Needs.bind {p : Proc α} {n : Nat} (h : p.Needs s n) (k : α → Proc β) : (p >>= k).Needs s n :=
  fun c hc hn => Proc.bind_of_error (h c hc hn)

theorem procLiteral_needs {length : Nat} {b : WorkBuffer} : (procLiteral s length b).Needs s 1 :=
  Proc.needs_rdB fun _ => Proc.needs_zero _

theorem procRef_needs {length : Nat} {b : WorkBuffer} : (procRef s length b).Needs s 2 := fun c =>
  Proc.needs_rdB (fun _ => Proc.needs_rdB fun _ => Proc.needs_zero _) c

theorem procLength_needs : (procLength s).Needs s 3 :=
  Proc.needs_rdB fun _ => Proc.needs_rdB fun _ => Proc.needs_rdB fun _ => Proc.needs_zero _

end

/-! ### The end of a decompression -/

/-- The decompression that runs in `t` ends in `u`. -/
inductive EndsIn : State → State → Prop where
  | ended {t : State} (work : t.work = none) : EndsIn t t
  | element {t u : State} (w : Lz77Work) (work : t.work = some w) (rest : EndsIn (elementStep t) u) : EndsIn t u

theorem EndsIn.drain {t u : State} (h : EndsIn t u) {n : Nat} (hn : (drain n t).work = none) : drain n t = u := by
  induction h generalizing n with
  | ended work => exact drain_none work
  | element w work _ ih =>
    cases n with
    | zero =>
      have hend : Machine.drain 0 (elementStep _) = elementStep _ := drain_none hn
      exact hend.symm.trans (ih (by rw [hend]; exact hn))
    | succ n => rw [drain_succ work] at hn ⊢; exact ih hn

end Sys2Proof.Machine
end

section
/-! The decoder and the procedure of R151 on one element at `c`: the bytes the decoder reads there, the work buffer
beside the bytes produced so far, and one item (spec/41_lz77.md R155 to R160). -/
namespace Sys2Proof.Machine

/-! ### One element at `c` -/

section
variable {s : State} {w : Lz77Work} {c : Nat}

theorem afterItem_setWork (leave : Bool) (v : Lz77Work) (c' : Nat) :
    afterItem leave v (((s.moveCursor c).setWork w).moveCursor c') = afterItem leave v (s.moveCursor c') := by
  unfold afterItem
  split
  · exact mainLoop_setWork ..
  · rfl

theorem elementStep_of_reject {r : Reject} (hw : s.work = some w) (hr : fetchElement w s = .error r) :
    elementStep s = streamRejects r s := by
  simp [elementStep, hw, hr]

/-- An element that is cut off ends the decompression at the end of the ROM. -/
theorem elementStep_truncated (hc : c ≤ s.params.romSize.toNat)
    (hr : decodeElement (nextExpect w) (streamBytes ((s.moveCursor c).setWork w)) = .error .truncated) :
    elementStep ((s.moveCursor c).setWork w) =
      (s.moveCursor s.params.romSize.toNat).raise .outOfBounds (BitVec.ofNat 32 s.params.romSize.toNat) := by
  have hstep : elementStep ((s.moveCursor c).setWork w) = streamEnds ((s.moveCursor c).setWork w) :=
    elementStep_of_reject rfl hr
  rw [hstep, streamEnds, cursor_setWork_moveCursor hc]
  simp only [State.setWork_params, State.moveCursor_params, Nat.max_eq_right hc]
  rfl

theorem streamBytes_running {n : Nat} (h8 : n ≤ 8) (hn : c + n ≤ s.params.romSize.toNat) :
    ∃ k, streamBytes ((s.moveCursor c).setWork w) = s.rom.bytes c (k + n) := by
  obtain ⟨k, hk⟩ : ∃ k, min 8 (s.params.romSize.toNat - c) = k + n := Nat.exists_eq_add_of_le' (by omega)
  refine ⟨k, ?_⟩
  rw [← hk, streamBytes, cursor_setWork_moveCursor (Nat.le_of_add_right_le hn)]
  rfl

theorem streamBytes_short (hc : c ≤ s.params.romSize.toNat) {n : Nat} (hn : s.params.romSize.toNat < c + n) :
    (streamBytes ((s.moveCursor c).setWork w)).length < n := by
  rw [streamBytes_length, cursor_setWork_moveCursor hc]
  simp only [State.setWork_params, State.moveCursor_params]
  omega

/-- At the end of the ROM there is no next element. -/
theorem decodeElement_at_end (x : Expect) (hc : c ≤ s.params.romSize.toNat) (hn : s.params.romSize.toNat < c + 1) :
    decodeElement x (streamBytes ((s.moveCursor c).setWork w)) = .error .truncated := by
  rw [List.eq_nil_of_length_eq_zero (Nat.lt_one_iff.1 (streamBytes_short hc hn))]
  exact decodeElement_nil x

theorem elementStep_flags (hw : w.phase = .group) (hn : c + 1 ≤ s.params.romSize.toNat) :
    elementStep ((s.moveCursor c).setWork w) =
      (s.moveCursor (c + 1)).setWork { w with phase := .item, flags := s.rom.byte c, bit := 7 } := by
  have hc := cursor_setWork_moveCursor (w := w) (Nat.le_of_succ_le hn)
  refine (elementStep_of_holds (e := .flags (s.rom.byte c)) (nextExpect_flags.2 hw).symm rfl
    (Memory.holds_cons.2 ⟨rfl, nofun⟩) hn).trans ((takeFlags_fits _ (by rwa [hc])).trans ?_)
  rw [hc]
  rfl

section
variable (hx : nextExpect w = .literal) (hn : c + 1 ≤ s.params.romSize.toNat)
include hx hn

theorem elementStep_lit : elementStep ((s.moveCursor c).setWork w) =
    takeLiteral (s.rom.byte c) w ((s.moveCursor c).setWork w) :=
  elementStep_of_holds (e := .lit (s.rom.byte c)) hx.symm rfl (Memory.holds_cons.2 ⟨rfl, nofun⟩) hn

theorem elementStep_stores (hp : w.position < w.length.toNat) : elementStep ((s.moveCursor c).setWork w) =
    afterItem false { w with out := w.out ++ [s.rom.byte c], position := w.position + 1 } (s.moveCursor (c + 1)) := by
  have hc := cursor_setWork_moveCursor (w := w) (Nat.le_of_succ_le hn)
  rw [elementStep_lit hx hn, takeLiteral_stores _ (by rwa [hc]) hp, afterItem_setWork, hc]

theorem elementStep_pad (hp : w.length.toNat ≤ w.position) : elementStep ((s.moveCursor c).setWork w) =
    afterItem (decide (s.rom.byte c = 0)) w (s.moveCursor (c + 1)) := by
  have hc := cursor_setWork_moveCursor (w := w) (Nat.le_of_succ_le hn)
  rw [elementStep_lit hx hn, takeLiteral_pad _ (by rwa [hc]) hp, afterItem_setWork, hc]

end

/-- The two bytes of a back-reference at `CURSOR`. -/
theorem elementStep_backRef (hx : nextExpect w = .backRef) (hn : c + 2 ≤ s.params.romSize.toNat) :
    elementStep ((s.moveCursor c).setWork w) =
      takeRef ((s.rom.byte c).extractLsb' 4 4) ((s.rom.byte c).extractLsb' 0 4 ++ s.rom.byte (c + 1)) w
        ((s.moveCursor c).setWork w) := by
  obtain ⟨k, hk⟩ := streamBytes_running (w := w) (by decide) hn
  refine elementStep_of_fetch (e := .ref _ _) rfl ?_
  rw [fetchElement, hx, hk, Memory.bytes_succ, Memory.bytes_succ]
  rfl

end

/-- The length of a back-reference, as R95 has it in `v`. -/
theorem refLength_eq (v : Byte) : (v >>> 4).toNat = (v.extractLsb' 4 4).toNat := by
  have hv := v.isLt
  rw [BitVec.toNat_ushiftRight, BitVec.extractLsb'_toNat, Nat.shiftRight_eq_div_pow, Nat.mod_eq_of_lt (by omega)]

/-- The offset of a back-reference, as R95 has it in `v` and `e`. -/
theorem refOffset_eq (v e : Byte) :
    ((v &&& 0x0F#8).toNat <<< 8) ||| e.toNat = (v.extractLsb' 0 4 ++ e).toNat := by
  have hlow : (v &&& 0x0F#8).toNat = (v.extractLsb' 0 4).toNat := by
    rw [BitVec.toNat_and, BitVec.extractLsb'_toNat, Nat.shiftRight_zero]
    exact Nat.and_two_pow_sub_one_eq_mod v.toNat 4
  rw [hlow, BitVec.toNat_append]

/-! ### The work buffer and the bytes produced so far -/

/-- The work buffer of the procedure holds the decoder's bytes, and 0 where nothing has been written. -/
structure Mirrors (w : Lz77Work) (b : WorkBuffer) : Prop where
  position : b.position = w.position
  filled : w.out.length = min w.position w.length.toNat
  buffer : b.out = w.out ++ List.replicate (w.length.toNat - w.out.length) 0

theorem Mirrors.length_out {w : Lz77Work} {b : WorkBuffer} (h : Mirrors w b) (hp : w.position ≤ w.length.toNat) :
    w.out.length = w.position := h.filled.trans (Nat.min_eq_left hp)

/-- The next byte written in place is the next byte appended. -/
theorem set_append_replicate {out : List Byte} {length : Nat} (h : out.length < length) (x : Byte) :
    (out ++ List.replicate (length - out.length) 0).set out.length x =
      (out ++ [x]) ++ List.replicate (length - (out ++ [x]).length) 0 := by
  obtain ⟨n, hn⟩ : ∃ n, length - out.length = n + 1 := ⟨_, (Nat.sub_add_cancel (Nat.sub_pos_of_lt h)).symm⟩
  have hrest : length - (out ++ [x]).length = n := by rw [List.length_append, List.length_singleton]; omega
  rw [hn, hrest, List.replicate_succ, List.set_append_right _ _ (Nat.le_refl _), Nat.sub_self]
  simp

theorem procCopy_succ (length offset n : Nat) (b : WorkBuffer) :
    procCopy length offset (n + 1) b =
      if b.position + n < length then
        (procCopy length offset n b).set (b.position + n)
          ((procCopy length offset n b).getD (b.position - offset - 1 + n) 0)
      else procCopy length offset n b := by
  simp [procCopy, List.range_succ]

/-- The copy in place writes the bytes the match copy appends (R157, R158). -/
theorem Mirrors.procCopy_eq {w : Lz77Work} {b : WorkBuffer} (h : Mirrors w b) {offset : Nat}
    (ho : offset < w.position) (hp : w.position ≤ w.length.toNat) (n : Nat) :
    procCopy w.length.toNat offset n b =
      matchCopy w.position offset w.length.toNat n w.out ++
        List.replicate (w.length.toNat - (matchCopy w.position offset w.length.toNat n w.out).length) 0 := by
  have hout := h.length_out hp
  induction n with
  | zero => exact h.buffer
  | succ n ih =>
    obtain ⟨hlen, -, -⟩ := matchCopy_spec w.position offset w.length.toNat n w.out hout ho hp
    rw [procCopy_succ, matchCopy_succ, ih, h.position]
    generalize matchCopy w.position offset w.length.toNat n w.out = out at hlen ⊢
    by_cases hn : w.position + n < w.length.toNat
    · rw [Nat.min_eq_left (Nat.le_of_lt hn)] at hlen
      rw [if_pos hn, copyByte_inside hn, getD_append_lt _ _ _ _ (by omega), ← hlen]
      exact set_append_replicate (hlen ▸ hn) _
    · rw [if_neg hn, copyByte_outside (Nat.le_of_not_lt hn)]

/-! ### One item -/

/-- The decoder and the procedure take the same item at `c`: both end with the same error, or both go on behind the
same byte with the same output. -/
inductive SameItem (s : State) (w : Lz77Work) (c : Nat) (p : Proc (WorkBuffer × Bool)) : Prop where
  | fails (e : Error) (info c' : Nat) (proc : p c = .error (e, info) c')
      (decoder : elementStep ((s.moveCursor c).setWork w) = (s.moveCursor c').raise e (BitVec.ofNat 32 info))
  | taken (out : List Byte) (position : Nat) (b : WorkBuffer) (leave : Bool) (c' : Nat)
      (proc : p c = .ok (b, leave) c')
      (decoder : elementStep ((s.moveCursor c).setWork w) =
        afterItem leave { w with out := out, position := position } (s.moveCursor c'))
      (mirrors : Mirrors { w with out := out, position := position } b) (inRom : c' ≤ s.params.romSize.toNat)
      (progress : w.position + 1 ≤ position ∨ w.length.toNat ≤ position)

section
variable {s : State} {w : Lz77Work} {b : WorkBuffer} {c : Nat} (hb : Mirrors w b)
  (hp : w.position ≤ w.length.toNat) (hc : c ≤ s.params.romSize.toNat)
include hb hp hc

theorem sameItem_literal (hx : nextExpect w = .literal) : SameItem s w c (procLiteral s w.length.toNat b) := by
  by_cases hn : c + 1 ≤ s.params.romSize.toNat
  · have hproc : procLiteral s w.length.toNat b c = _ := procRdB_bind hn
    rw [hb.position] at hproc
    by_cases hlt : w.position < w.length.toNat
    · have hout := hb.length_out hp
      rw [if_pos hlt] at hproc
      refine .taken _ _ _ _ _ hproc (elementStep_stores hx hn hlt) ⟨rfl, ?_, ?_⟩ hn (.inl (Nat.le_refl _))
      · simp only [List.length_append, List.length_singleton]; omega
      · rw [hb.buffer, ← hout]
        exact set_append_replicate (hout ▸ hlt) _
    · have hfull := Nat.le_of_not_lt hlt
      rw [if_neg hlt] at hproc
      exact .taken w.out w.position _ _ _ hproc (elementStep_pad hx hn hfull) hb hn (.inr hfull)
  · have hend := Nat.lt_of_not_le hn
    exact .fails _ _ _ (procLiteral_needs c hc hend) (elementStep_truncated hc (decodeElement_at_end _ hc hend))

theorem sameItem_backRef (hx : nextExpect w = .backRef) : SameItem s w c (procRef s w.length.toNat b) := by
  by_cases hn : c + 2 ≤ s.params.romSize.toNat
  · have hcur := cursor_setWork_moveCursor (w := w) hc
    have hstep := elementStep_backRef hx hn
    have hproc : procRef s w.length.toNat b c = _ := (procRdB_bind (by omega)).trans (procRdB_bind hn)
    rw [takeRef_fits (by rwa [hcur]), hcur] at hstep
    rw [hb.position, refLength_eq, refOffset_eq] at hproc
    generalize (s.rom.byte c).extractLsb' 4 4 = len,
      (s.rom.byte c).extractLsb' 0 4 ++ s.rom.byte (c + 1) = offset at hstep hproc
    by_cases ho : w.position ≤ offset.toNat
    · rw [if_pos ho] at hproc hstep
      exact .fails _ _ _ hproc hstep
    · rw [if_neg ho] at hproc hstep
      by_cases hover : s.params.overrun = .fault ∧ w.length.toNat < w.position + (len.toNat + 3)
      · rw [if_pos hover] at hproc
        exact .fails _ _ _ hproc (hstep.trans (if_pos hover))
      · rw [if_neg hover] at hproc
        have hout := hb.length_out hp
        refine .taken _ _ _ _ _ hproc (hstep.trans ((if_neg hover).trans (afterItem_setWork ..))) ⟨rfl, ?_, ?_⟩ hn
          (.inl (by omega))
        · exact (matchCopy_spec _ _ _ _ _ hout (Nat.lt_of_not_le ho) hp).1
        · exact hb.procCopy_eq (Nat.lt_of_not_le ho) hp _
  · have hend := Nat.lt_of_not_le hn
    refine .fails _ _ _ (procRef_needs c hc hend) (elementStep_truncated hc ?_)
    rw [hx]
    exact decodeElement_backRef_truncated (streamBytes_short hc hend)

theorem sameItem (hphase : w.phase = .item) : SameItem s w c
    (if w.flags.getLsbD w.bit.val then procRef s w.length.toNat b else procLiteral s w.length.toNat b) := by
  cases hflag : w.flags.getLsbD w.bit.val with
  | true => exact sameItem_backRef hb hp hc (nextExpect_backRef.2 ⟨hphase, hflag⟩)
  | false => exact sameItem_literal hb hp hc (nextExpect_literal.2 ⟨hphase, hflag⟩)

end

end Sys2Proof.Machine
end

section
/-! The decoder that runs element by element is the procedure of R151: its main loop is the while loop, its groups are
the for loop, and its header is the header (spec/41_lz77.md R152 to R162). -/
namespace Sys2Proof.Machine

/-! ### The loops -/

section
variable {s : State} {length n : Nat} {b : WorkBuffer} {c : Nat}

/-- The procedure from the test of its while loop on (R154, R162). -/
def procRest (s : State) (length n : Nat) (b : WorkBuffer) : Proc (List Byte) := do
  let b' ← procLoop s length n b
  pure b'.out

/-- The procedure from the test of its for loop on (R155). -/
def procGroupRest (s : State) (length n : Nat) (flags : Byte) (k : Nat) (b : WorkBuffer) : Proc (List Byte) := do
  let b' ← procGroup s length flags k b
  procRest s length n b'

theorem procRest_full (h : length ≤ b.position) : procRest s length n b c = .ok b.out c := by
  cases n with
  | zero => rfl
  | succ n => simp only [procRest, procLoop, if_neg (Nat.not_lt.2 h)]; rfl

theorem procRest_group (h : b.position < length) : procRest s length (n + 1) b =
    procRdB s >>= fun flags => procGroupRest s length n flags 8 b := by
  simp [procRest, procLoop, procGroupRest, h]

theorem procGroupRest_zero (flags : Byte) : procGroupRest s length n flags 0 b = procRest s length n b := by
  simp [procGroupRest, procGroup]

theorem procGroupRest_succ (flags : Byte) (k : Nat) : procGroupRest s length n flags (k + 1) b =
    (if flags.getLsbD k then procRef s length b else procLiteral s length b) >>= fun r =>
      if r.2 || decide (length < r.1.position) then procRest s length n r.1
      else procGroupRest s length n flags k r.1 := by
  cases hflag : flags.getLsbD k
  all_goals
    simp only [procGroupRest, procGroup, hflag, Bool.false_eq_true, if_true, if_false, bind_assoc]
    refine bind_congr fun r => ?_
    split
    · exact pure_bind (m := EStateM (Error × Nat) Nat) _ _
    · rfl

end

/-- With `n` passes to come, the decoder's main loop ends as the while loop does. -/
def LoopAgrees (s : State) (n : Nat) : Prop :=
  ∀ w b c, Mirrors w b → c ≤ s.params.romSize.toNat → w.length.toNat ≤ w.position + n →
    EndsIn (mainLoop w (s.moveCursor c)) (procEnd w.consumer s (procRest s w.length.toNat n b c))

section
variable {s : State} {w : Lz77Work} {b : WorkBuffer} {c n : Nat}

theorem endsIn_deliver (consumer : Consumer) (bytes : List Byte) (comp : Bool) (t : State) :
    EndsIn (deliver consumer bytes comp t) (deliver consumer bytes comp t) := .ended (by simp)

/-- The decoder before an item ends as the for loop does, bit by bit down. -/
theorem LoopAgrees.group (loop : LoopAgrees s n) (hphase : w.phase = .item) (hb : Mirrors w b)
    (hp : w.position ≤ w.length.toNat) (hc : c ≤ s.params.romSize.toNat)
    (hn : w.length.toNat ≤ w.position + 1 + n) : EndsIn ((s.moveCursor c).setWork w)
      (procEnd w.consumer s (procGroupRest s w.length.toNat n w.flags (w.bit.val + 1) b c)) := by
  induction hbit : w.bit.val using Nat.strongRecOn generalizing w b c with
  | ind k ih =>
    refine .element w rfl ?_
    have item := sameItem hb hp hc hphase
    rw [hbit] at item
    rw [procGroupRest_succ]
    cases item with
    | fails e info c' proc decoder =>
      rw [decoder, Proc.bind_of_error proc]
      exact .ended rfl
    | taken out position b' leave c' proc decoder mirrors inRom progress =>
      rw [decoder, Proc.bind_of_ok proc, mirrors.position]
      have rest := loop _ b' c' mirrors inRom (by dsimp only; omega)
      by_cases hend : (leave || decide (w.length.toNat < position)) = true
      · rwa [if_pos hend, afterItem_of_end (by exact hend)]
      · rw [if_neg hend]
        obtain ⟨rfl, hle⟩ : leave = false ∧ position ≤ w.length.toNat := by simpa using hend
        cases k with
        | zero => rwa [procGroupRest_zero, afterItem_of_bit_zero _ _ (by exact hbit)]
        | succ k =>
          rw [afterItem_of_bit_succ _ (b := ⟨k, by omega⟩) (by exact hbit) (by exact hle)]
          exact ih k (Nat.lt_succ_self k) rfl ⟨mirrors.position, mirrors.filled, mirrors.buffer⟩ hle inRom
            (by dsimp only; omega) rfl

/-- A stream that is cut off ends the decoder as it ends the procedure. -/
theorem endsIn_truncated {r : EStateM.Result (Error × Nat) Nat (List Byte)} (consumer : Consumer)
    (hc : c ≤ s.params.romSize.toNat)
    (hproc : r = .error (.outOfBounds, s.params.romSize.toNat) s.params.romSize.toNat)
    (hdec : decodeElement (nextExpect w) (streamBytes ((s.moveCursor c).setWork w)) = .error .truncated) :
    EndsIn ((s.moveCursor c).setWork w) (procEnd consumer s r) := by
  refine .element w rfl ?_
  rw [elementStep_truncated hc hdec, hproc]
  exact .ended rfl

theorem endsIn_mainLoop_full (hb : Mirrors w b) (hfull : w.length.toNat ≤ w.position) :
    EndsIn (mainLoop w (s.moveCursor c)) (procEnd w.consumer s (procRest s w.length.toNat n b c)) := by
  have hout : b.out = w.out := by
    have hlen : w.out.length = w.length.toNat := hb.filled.trans (Nat.min_eq_right hfull)
    rw [hb.buffer, hlen, Nat.sub_self, List.replicate_zero, List.append_nil]
  rw [mainLoop_of_ge _ hfull, procRest_full (by rwa [hb.position]), hout]
  exact endsIn_deliver ..

/-- The decoder's main loop and the while loop end alike, pass by pass. -/
theorem loopAgrees (s : State) (n : Nat) : LoopAgrees s n := by
  induction n with
  | zero => exact fun w b c hb _ hn => endsIn_mainLoop_full hb hn
  | succ n ih =>
    intro w b c hb hc hn
    rcases Nat.lt_or_ge w.position w.length.toNat with hlt | hfull
    · rw [mainLoop_of_lt _ hlt, procRest_group (by rwa [hb.position])]
      by_cases hin : c + 1 ≤ s.params.romSize.toNat
      · refine .element _ rfl ?_
        rw [elementStep_flags rfl hin, procRdB_bind hin]
        exact ih.group rfl ⟨hb.position, hb.filled, hb.buffer⟩ (Nat.le_of_lt hlt) hin (by dsimp only; omega)
      · have hend := Nat.lt_of_not_le hin
        exact endsIn_truncated _ hc (Proc.needs_rdB (fun _ => Proc.needs_zero _) c hc hend)
          (decodeElement_at_end _ hc hend)
    · exact endsIn_mainLoop_full hb hfull

end

/-! ### The header -/

section
variable {s : State} {c : Nat}

/-- The four length bytes of an extended header (R92). -/
def procLongLength (s : State) : Proc Nat := do
  let b4 ← procRdB s
  let b5 ← procRdB s
  let b6 ← procRdB s
  let b7 ← procRdB s
  pure (b4.toNat ||| (b5.toNat <<< 8) ||| (b6.toNat <<< 16) ||| (b7.toNat <<< 24))

/-- The procedure behind the header (R153). -/
def procBody (s : State) (length : Nat) : Proc (List Byte) :=
  if s.params.bufCap.val < length then throw (.outputTooLarge, length)
  else procRest s length length ⟨List.replicate length 0, 0⟩

theorem procLz77_marker {a : Nat} (ha : a + 1 ≤ s.params.romSize.toNat) (hm : s.rom.byte a = 0x10#8) :
    procLz77 s a c = (procLength s >>= procBody s) (a + 1) :=
  (Proc.bind_of_ok (if_pos ha)).trans (by rw [if_pos hm]; rfl)

theorem procLz77_noMarker {a : Nat} (ha : a + 1 ≤ s.params.romSize.toNat) (hm : s.rom.byte a ≠ 0x10#8) :
    procLz77 s a c = .error (.invalidOpcode, a) (a + 1) :=
  (Proc.bind_of_ok (if_pos ha)).trans (by rw [if_neg hm]; rfl)

theorem or_shiftLeft_eq {x k : Nat} (y : Nat) (hx : x < 2 ^ k) : x ||| (y <<< k) = x + 2 ^ k * y := by
  rw [Nat.or_comm, ← Nat.shiftLeft_add_eq_or_of_lt hx, Nat.shiftLeft_eq, Nat.add_comm, Nat.mul_comm]

theorem le24_eq_or (b1 b2 b3 : Byte) :
    b1.toNat ||| (b2.toNat <<< 8) ||| (b3.toNat <<< 16) = (le24 b1 b2 b3).toNat := by
  have h1 := b1.isLt
  have h2 := b2.isLt
  rw [or_shiftLeft_eq _ h1, or_shiftLeft_eq _ (by omega), le24_toNat]
  omega

theorem le32_eq_or (b4 b5 b6 b7 : Byte) :
    b4.toNat ||| (b5.toNat <<< 8) ||| (b6.toNat <<< 16) ||| (b7.toNat <<< 24) = (le32 b4 b5 b6 b7).toNat := by
  have h4 := b4.isLt
  have h5 := b5.isLt
  have h6 := b6.isLt
  have h45 : b4.toNat + 2 ^ 8 * b5.toNat < 2 ^ 16 := by omega
  rw [or_shiftLeft_eq _ h4, or_shiftLeft_eq _ h45, or_shiftLeft_eq _ (by omega), le32_toNat]
  omega

theorem procLength_eq (hn : c + 3 ≤ s.params.romSize.toNat) :
    procLength s c =
      (if le24 (s.rom.byte c) (s.rom.byte (c + 1)) (s.rom.byte (c + 2)) = 0 then procLongLength s
        else pure (le24 (s.rom.byte c) (s.rom.byte (c + 1)) (s.rom.byte (c + 2))).toNat) (c + 3) := by
  refine (procRdB_bind (by omega)).trans ((procRdB_bind (by omega)).trans ((procRdB_bind hn).trans ?_))
  rw [le24_eq_or]
  by_cases h0 : le24 (s.rom.byte c) (s.rom.byte (c + 1)) (s.rom.byte (c + 2)) = 0
  · rw [if_pos h0, if_pos (by rw [h0]; rfl)]
    rfl
  · have hne : (le24 (s.rom.byte c) (s.rom.byte (c + 1)) (s.rom.byte (c + 2))).toNat ≠ 0 :=
      fun h => h0 (BitVec.eq_of_toNat_eq h)
    rw [if_neg h0, if_neg hne]

theorem procLongLength_eq (hn : c + 4 ≤ s.params.romSize.toNat) : procLongLength s c =
    .ok (le32 (s.rom.byte c) (s.rom.byte (c + 1)) (s.rom.byte (c + 2)) (s.rom.byte (c + 3))).toNat (c + 4) := by
  rw [← le32_eq_or]
  exact (procRdB_bind (by omega)).trans
    ((procRdB_bind (by omega)).trans ((procRdB_bind (by omega)).trans (procRdB_bind hn)))

theorem procLongLength_needs : (procLongLength s).Needs s 4 :=
  Proc.needs_rdB fun _ => Proc.needs_rdB fun _ => Proc.needs_rdB fun _ => Proc.needs_rdB fun _ => Proc.needs_zero _

/-- Behind a header the decoder is at the start of its main loop, as the procedure is. -/
theorem endsIn_takeHeader (consumer : Consumer) {n : Nat} (hn : c + n ≤ s.params.romSize.toNat) (length : Word) :
    EndsIn (takeHeader n length (freshWork consumer) ((s.moveCursor c).setWork (freshWork consumer)))
      (procEnd consumer s (procBody s length.toNat (c + n))) := by
  have hc := cursor_setWork_moveCursor (w := freshWork consumer) (Nat.le_of_add_right_le hn)
  unfold procBody
  rcases Nat.lt_or_ge s.params.bufCap.val length.toNat with hcap | hcap
  · rw [if_pos hcap, takeHeader_aboveCapacity (by rwa [hc]) (by exact hcap), hc]
    change EndsIn _ ((s.moveCursor (c + n)).raise .outputTooLarge (BitVec.ofNat 32 length.toNat))
    rw [BitVec.ofNat_toNat, BitVec.setWidth_eq]
    exact .ended rfl
  · rw [if_neg (Nat.not_lt.2 hcap), takeHeader_fits (by rwa [hc]) (by exact hcap), mainLoop_setWork, hc]
    exact loopAgrees s _ { freshWork consumer with length := length } _ _
      ⟨rfl, (Nat.zero_min _).symm, rfl⟩ hn (Nat.le_add_left ..)

theorem le24_eq_zero {b1 b2 b3 : Byte} (h : le24 b1 b2 b3 = 0) : b1 = 0 ∧ b2 = 0 ∧ b3 = 0 := by
  have hn : 0 = b1.toNat + 256 * (b2.toNat + 256 * b3.toNat) := (congrArg BitVec.toNat h).symm.trans (le24_toNat ..)
  have zero {x : Byte} (hx : x.toNat = 0) : x = 0 := BitVec.eq_of_toNat_eq hx
  exact ⟨zero (by omega), zero (by omega), zero (by omega)⟩

section
variable {a : Nat} {w : Lz77Work} (hm : s.rom.byte a = 0x10#8) (hx : nextExpect w = .header)
include hm hx

/-- A nonzero 3-byte length behind the marker (R91). -/
theorem elementStep_short (hn : a + 4 ≤ s.params.romSize.toNat)
    (h0 : le24 (s.rom.byte (a + 1)) (s.rom.byte (a + 2)) (s.rom.byte (a + 3)) ≠ 0) :
    elementStep ((s.moveCursor a).setWork w) =
      takeHeader 4 ((le24 (s.rom.byte (a + 1)) (s.rom.byte (a + 2)) (s.rom.byte (a + 3))).setWidth 32) w
        ((s.moveCursor a).setWork w) := by
  obtain ⟨k, hk⟩ := streamBytes_running (w := w) (by decide) hn
  refine elementStep_of_fetch (e := .hdr _) rfl ?_
  rw [fetchElement, hx, hk, Memory.bytes_succ, Memory.bytes_succ, Memory.bytes_succ, Memory.bytes_succ, hm]
  exact decodeLength_short _ h0

/-- A zero 3-byte length behind the marker, and four bytes more (R92). -/
theorem elementStep_extended (hn : a + 8 ≤ s.params.romSize.toNat)
    (h0 : le24 (s.rom.byte (a + 1)) (s.rom.byte (a + 2)) (s.rom.byte (a + 3)) = 0) :
    elementStep ((s.moveCursor a).setWork w) =
      takeHeader 8 (le32 (s.rom.byte (a + 4)) (s.rom.byte (a + 5)) (s.rom.byte (a + 6)) (s.rom.byte (a + 7))) w
        ((s.moveCursor a).setWork w) := by
  obtain ⟨k, hk⟩ := streamBytes_running (w := w) (by decide) hn
  refine elementStep_of_fetch (e := .hdrx _) rfl ?_
  rw [fetchElement, hx, hk, Memory.bytes_succ, hm]
  simp only [Memory.bytes_succ]
  exact decodeLength_extended _ _ _ _ (s.rom.bytes (a + 8) k) h0

/-- A header that the ROM cuts off, inside its first four bytes or behind a zero 3-byte length. -/
theorem decodeElement_running_truncated (hc : a < s.params.romSize.toNat)
    (cut : s.params.romSize.toNat < a + 4 ∨
      (le24 (s.rom.byte (a + 1)) (s.rom.byte (a + 2)) (s.rom.byte (a + 3)) = 0 ∧ s.params.romSize.toNat < a + 8)) :
    decodeElement (nextExpect w) (streamBytes ((s.moveCursor a).setWork w)) = .error .truncated := by
  have hcur := cursor_setWork_moveCursor (w := w) (Nat.le_of_lt hc)
  have h := decodeElement_header_truncated (s := (s.moveCursor a).setWork w) (by rwa [hcur]) (by rwa [hcur])
  rw [hcur] at h
  rw [hx]
  refine h (cut.imp id fun ⟨h0, hend⟩ => ?_)
  obtain ⟨h1, h2, h3⟩ := le24_eq_zero h0
  exact ⟨h1, h2, h3, hend⟩

end

/-- The decoder before the header ends as the procedure does whose first byte is the marker (R152, R153). -/
theorem endsIn_header (consumer : Consumer) {a : Nat} (ha : a + 1 ≤ s.params.romSize.toNat)
    (hm : s.rom.byte a = 0x10#8) :
    EndsIn ((s.moveCursor a).setWork (freshWork consumer)) (procEnd consumer s (procLz77 s a c)) := by
  have hc := Nat.le_of_succ_le ha
  rw [procLz77_marker ha hm]
  rcases Nat.lt_or_ge s.params.romSize.toNat (a + 4) with hshort | h4
  · exact endsIn_truncated _ hc (procLength_needs.bind _ _ ha (by omega))
      (decodeElement_running_truncated hm rfl ha (.inl hshort))
  · have hlength : procLength s (a + 1) = _ := procLength_eq (by omega)
    by_cases h0 : le24 (s.rom.byte (a + 1)) (s.rom.byte (a + 2)) (s.rom.byte (a + 3)) = 0
    · rw [if_pos h0] at hlength
      rcases Nat.lt_or_ge s.params.romSize.toNat (a + 8) with hlong | h8
      · exact endsIn_truncated _ hc
          (Proc.bind_of_error (hlength.trans (procLongLength_needs _ h4 (by omega))))
          (decodeElement_running_truncated hm rfl ha (.inr ⟨h0, hlong⟩))
      · refine .element _ rfl ?_
        rw [elementStep_extended hm rfl h8 h0, Proc.bind_of_ok (hlength.trans (procLongLength_eq (by omega)))]
        exact endsIn_takeHeader consumer h8 _
    · rw [if_neg h0] at hlength
      refine .element _ rfl ?_
      rw [elementStep_short hm rfl h4 h0, Proc.bind_of_ok hlength, ← shortLength_toNat]
      exact endsIn_takeHeader consumer h4 _

/-- A first byte that is not the marker is read, and ends both with its address (R152). -/
theorem endsIn_noMarker (consumer : Consumer) {a : Nat} (ha : a + 1 ≤ s.params.romSize.toNat)
    (hm : s.rom.byte a ≠ 0x10#8) :
    EndsIn ((s.moveCursor a).setWork (freshWork consumer)) (procEnd consumer s (procLz77 s a c)) := by
  have hcur := cursor_setWork_moveCursor (w := freshWork consumer) (Nat.le_of_succ_le ha)
  have hfetch : fetchElement (freshWork consumer) ((s.moveCursor a).setWork (freshWork consumer)) =
      .error .badMarker := by
    obtain ⟨k, hk⟩ := streamBytes_running (w := freshWork consumer) (by decide) ha
    rw [fetchElement, hk, Memory.bytes_succ]
    exact if_neg hm
  refine .element _ rfl ?_
  rw [elementStep_of_reject rfl hfetch, procLz77_noMarker ha hm, streamRejects, hcur]
  exact .ended rfl

end

/-! ### The whole command -/

theorem State.moveCursor_self (s : State) : s.moveCursor s.cursor.toNat = s := by
  rw [State.moveCursor, BitVec.ofNat_toNat, BitVec.setWidth_eq]

/-- `Lz77(a)` ends as the procedure does. `CURSOR` as it was before is seen only where the first byte is not read. -/
theorem lz77_eq_procEnd (consumer : Consumer) (a : Word) (s : State) (c : Nat)
    (hc : s.params.romSize.toNat ≤ a.toNat → c = s.cursor.toNat) :
    lz77 consumer a s = procEnd consumer s (procLz77 s a.toNat c) := by
  unfold lz77
  by_cases ha : a.toNat + 1 ≤ s.params.romSize.toNat
  · rw [if_pos (inBounds_eq_true.2 ha)]
    refine EndsIn.drain ?_ (drain_work _ _ (by simp))
    by_cases hm : s.rom.byte a.toNat = 0x10#8
    · exact endsIn_header consumer ha hm
    · exact endsIn_noMarker consumer ha hm
  · have hproc : procLz77 s a.toNat c = _ := Proc.bind_of_error (if_neg ha)
    rw [if_neg (by rwa [inBounds_eq_true]), hproc, hc (Nat.le_of_lt_succ (Nat.lt_of_not_le ha)), procEnd,
      State.moveCursor_self, BitVec.ofNat_toNat, BitVec.setWidth_eq]

/-- A load whose first byte is the marker is `Lz77(a)` (spec/42_palette.md R191). -/
theorem loadAsset_marker (consumer : Consumer) {a : Word} (n : Nat) (ha : a.toNat < s.params.romSize.toNat)
    (hm : s.rom.byte a.toNat = 0x10#8) : loadAsset consumer a n s = lz77 consumer a s := by
  have hin : inBounds s a.toNat 1 = true := inBounds_eq_true.2 ha
  unfold loadAsset lz77
  rw [if_pos hin]
  dsimp only
  rw [if_pos hm, if_pos (by exact hin), if_pos hin]
  rfl

/-- Settles O34: the decoder before its header ends where the procedure ends, element by element, loop by loop. -/
theorem decoderRefinesTheProcedure : Obligations.DecoderRefinesTheProcedure := by
  have load (consumer : Consumer) {s : State} {a : Word} (n : Nat) (ha : a.toNat < s.params.romSize.toNat)
      (hm : s.rom.byte a.toNat = 0x10#8) :
      loadAsset consumer a n s = procEnd consumer s (procLz77 s a.toNat (a.toNat + 1)) :=
    (loadAsset_marker consumer n ha hm).trans
      (lz77_eq_procEnd consumer a s _ fun h => absurd ha (Nat.not_lt.2 h))
  exact ⟨fun s a => congrArg Host.Outcome.next (lz77_eq_procEnd .response a s _ fun _ => rfl),
    fun s a count ha hm => congrArg Host.Outcome.next (load .palette _ ha hm),
    fun s a count depth ha hm => congrArg Host.Outcome.next (load (.pixels depth) _ ha hm)⟩

end Sys2Proof.Machine
end

section
/-! What a decompression depends on, and where it leaves `CURSOR` (spec/41_lz77.md R152, R163, R165): the procedure
reads the ROM forward from its address, so two states with the same stream run it alike. -/
namespace Sys2Proof.Machine

/-! ### Procedures that run alike -/

/-- `CURSOR` where a procedure ends. -/
def cursorAfter {α : Type} : EStateM.Result (Error × Nat) Nat α → Nat
  | .ok _ c => c
  | .error _ c => c

/-- From every `CURSOR` between `lo` and `hi` the two procedures do the same, and leave `CURSOR` between them. -/
def Proc.Alike {α : Type} (lo hi : Nat) (p p' : Proc α) : Prop :=
  ∀ c, lo ≤ c → c ≤ hi → p' c = p c ∧ lo ≤ cursorAfter (p c) ∧ cursorAfter (p c) ≤ hi

section
variable {α β : Type} {lo hi : Nat}

theorem Proc.alike_pure (x : α) : Proc.Alike lo hi (pure x) (pure x) := fun _ hlo hhi => ⟨rfl, hlo, hhi⟩

theorem Proc.alike_throw (e : Error × Nat) : Proc.Alike lo hi (throw e : Proc α) (throw e) :=
  fun _ hlo hhi => ⟨rfl, hlo, hhi⟩

theorem alike_procCursor : Proc.Alike lo hi procCursor procCursor := fun _ hlo hhi => ⟨rfl, hlo, hhi⟩

theorem Proc.Alike.bind {p p' : Proc α} {k k' : α → Proc β} (h : Proc.Alike lo hi p p')
    (hk : ∀ x, Proc.Alike lo hi (k x) (k' x)) : Proc.Alike lo hi (p >>= k) (p' >>= k') := by
  intro c hlo hhi
  obtain ⟨same, inLo, inHi⟩ := h c hlo hhi
  cases hr : p c with
  | ok x c' =>
    rw [hr] at same inLo inHi
    rw [Proc.bind_of_ok hr, Proc.bind_of_ok same]
    exact hk x c' inLo inHi
  | error e c' =>
    rw [hr] at same inLo inHi
    rw [Proc.bind_of_error hr, Proc.bind_of_error same]
    exact ⟨rfl, inLo, inHi⟩

theorem Proc.Alike.ite {P : Prop} [Decidable P] {p p' q q' : Proc α} (hp : Proc.Alike lo hi p p')
    (hq : Proc.Alike lo hi q q') : Proc.Alike lo hi (if P then p else q) (if P then p' else q') := by
  split
  · exact hp
  · exact hq

end

/-! ### The procedure reads its stream and three parameters -/

/-- The two states have the same stream from `a` on and the same three parameters (R165). -/
structure SameStream (a : Nat) (s s' : State) : Prop where
  bytes : ∀ k, a ≤ k → s'.rom.byte k = s.rom.byte k
  romSize : s'.params.romSize = s.params.romSize
  bufCap : s'.params.bufCap = s.params.bufCap
  overrun : s'.params.overrun = s.params.overrun

theorem SameStream.refl (a : Nat) (s : State) : SameStream a s s := ⟨fun _ _ => rfl, rfl, rfl, rfl⟩

section
variable {s s' : State} {a : Nat} (h : SameStream a s s')
include h

theorem SameStream.rdB : Proc.Alike a s.params.romSize.toNat (procRdB s) (procRdB s') := by
  intro c hlo hhi
  unfold procRdB
  rw [h.romSize, h.bytes c hlo]
  split
  · exact ⟨rfl, Nat.le_succ_of_le hlo, ‹_›⟩
  · exact ⟨rfl, hlo, hhi⟩

theorem SameStream.ref (length : Nat) (b : WorkBuffer) :
    Proc.Alike a s.params.romSize.toNat (procRef s length b) (procRef s' length b) := by
  unfold procRef
  rw [h.overrun]
  exact alike_procCursor.bind fun _ => h.rdB.bind fun _ => h.rdB.bind fun _ =>
    .ite (Proc.alike_throw _) (.ite (Proc.alike_throw _) (Proc.alike_pure _))

theorem SameStream.literal (length : Nat) (b : WorkBuffer) :
    Proc.Alike a s.params.romSize.toNat (procLiteral s length b) (procLiteral s' length b) :=
  h.rdB.bind fun _ => .ite (Proc.alike_pure _) (Proc.alike_pure _)

theorem SameStream.group (length : Nat) (flags : Byte) (k : Nat) (b : WorkBuffer) :
    Proc.Alike a s.params.romSize.toNat (procGroup s length flags k b) (procGroup s' length flags k b) := by
  induction k generalizing b with
  | zero => exact Proc.alike_pure b
  | succ k ih =>
    have next (r : WorkBuffer × Bool) := Proc.Alike.ite
      (P := (r.2 || decide (length < r.1.position)) = true) (Proc.alike_pure r.1) (ih r.1)
    exact .ite ((h.ref length b).bind next) ((h.literal length b).bind next)

theorem SameStream.loop (length n : Nat) (b : WorkBuffer) :
    Proc.Alike a s.params.romSize.toNat (procLoop s length n b) (procLoop s' length n b) := by
  induction n generalizing b with
  | zero => exact Proc.alike_pure b
  | succ n ih =>
    exact .ite (h.rdB.bind fun flags => (h.group length flags 8 b).bind ih) (Proc.alike_pure b)

theorem SameStream.length : Proc.Alike a s.params.romSize.toNat (procLength s) (procLength s') :=
  h.rdB.bind fun _ => h.rdB.bind fun _ => h.rdB.bind fun _ =>
    .ite (h.rdB.bind fun _ => h.rdB.bind fun _ => h.rdB.bind fun _ => h.rdB.bind fun _ => Proc.alike_pure _)
      (Proc.alike_pure _)

/-- Behind the marker the two states run the procedure alike. -/
theorem SameStream.body : Proc.Alike a s.params.romSize.toNat
    (procLength s >>= procBody s) (procLength s' >>= procBody s') := by
  refine h.length.bind fun length => ?_
  unfold procBody
  rw [h.bufCap]
  exact .ite (Proc.alike_throw _) ((h.loop _ _ _).bind fun _ => Proc.alike_pure _)

theorem SameStream.procLz77_eq (ha : a < s.params.romSize.toNat) (c c' : Nat) :
    procLz77 s' a c' = procLz77 s a c := by
  have ha' : a < s'.params.romSize.toNat := by rwa [h.romSize]
  by_cases hm : s.rom.byte a = 0x10#8
  · rw [procLz77_marker ha hm, procLz77_marker ha' (by rwa [h.bytes a (Nat.le_refl a)])]
    exact (h.body (a + 1) (Nat.le_succ a) ha).1
  · rw [procLz77_noMarker ha hm, procLz77_noMarker ha' (by rwa [h.bytes a (Nat.le_refl a)])]

end

/-! ### The ends -/

theorem procEnd_cursor (consumer : Consumer) (s : State) (r : EStateM.Result (Error × Nat) Nat (List Byte)) :
    (procEnd consumer s r).cursor = BitVec.ofNat 32 (cursorAfter r) := by
  cases r with
  | ok => exact deliver_cursor ..
  | error => rfl

theorem procEnd_response (s s' : State) (r : EStateM.Result (Error × Nat) Nat (List Byte)) :
    (procEnd .response s' r).response = (procEnd .response s r).response := by
  cases r with
  | ok => rfl
  | error => rfl

theorem lz77_outside (consumer : Consumer) {a : Word} {s : State} (ha : s.params.romSize.toNat ≤ a.toNat) :
    lz77 consumer a s = s.failed s.cursor 1 a := by
  unfold lz77
  rw [if_neg (by rw [inBounds_eq_true]; omega)]
  rfl

/-- Settles O36: the procedure reads one byte, or none. -/
theorem decompressionNeedsTheMarker : Obligations.DecompressionNeedsTheMarker := by
  refine fun s a => ⟨fun ha => congrArg Host.Outcome.next (lz77_outside _ ha),
    fun ha hm => congrArg Host.Outcome.next ?_⟩
  rw [lz77_eq_procEnd .response a s s.cursor.toNat fun _ => rfl, procLz77_noMarker ha hm, procEnd,
    State.moveCursor_raise, BitVec.ofNat_toNat, BitVec.setWidth_eq]
  rfl

theorem lz77_marker_cursor (consumer : Consumer) {a : Word} {s : State} (ha : a.toNat < s.params.romSize.toNat)
    (hm : s.rom.byte a.toNat = 0x10#8) : a.toNat < (lz77 consumer a s).cursor.toNat ∧
      (lz77 consumer a s).cursor.toNat ≤ s.params.romSize.toNat := by
  obtain ⟨-, inLo, inHi⟩ := (SameStream.refl (a.toNat + 1) s).body (a.toNat + 1) (Nat.le_refl _) ha
  rw [lz77_eq_procEnd consumer a s s.cursor.toNat fun _ => rfl, procLz77_marker ha hm, procEnd_cursor,
    toNat_ofNat_of_le_romSize inHi]
  exact ⟨inLo, inHi⟩

/-- Settles O39: the procedure has read the marker, and every read after it moves `CURSOR` forward inside the ROM. -/
theorem cursorAfterDecompression : Obligations.CursorAfterDecompression := by
  intro i s t a ha hm hi hexec
  rcases hi with rfl | ⟨n, rfl⟩ | ⟨n, depth, rfl⟩
  · cases hexec
    exact lz77_marker_cursor .response ha hm
  · cases hexec
    rw [loadAsset_marker _ _ ha hm]
    exact lz77_marker_cursor .palette ha hm
  · cases hexec
    rw [loadAsset_marker _ _ ha hm]
    exact lz77_marker_cursor (.pixels depth) ha hm

theorem SameStream.lz77_eq {s s' : State} {a : Word} (h : SameStream a.toNat s s') :
    (lz77 .response a s').response = (lz77 .response a s).response ∧
      (a.toNat < s.params.romSize.toNat → (lz77 .response a s').cursor = (lz77 .response a s).cursor) := by
  rcases Nat.lt_or_ge a.toNat s.params.romSize.toNat with ha | ha
  · rw [lz77_eq_procEnd .response a s s.cursor.toNat fun _ => rfl,
      lz77_eq_procEnd .response a s' s'.cursor.toNat fun _ => rfl, h.procLz77_eq ha s.cursor.toNat]
    exact ⟨procEnd_response .., fun _ => by rw [procEnd_cursor, procEnd_cursor]⟩
  · rw [lz77_outside _ ha, lz77_outside _ (by rwa [h.romSize])]
    exact ⟨rfl, fun h => absurd h (Nat.not_lt.2 ha)⟩

/-- A decompression leaves the stream it read. -/
theorem Decompressed.sameStream {s t : State} {a : Word} (run : Decompressed .response s a t) :
    SameStream a.toNat s t := by
  obtain ⟨rom, -, -, params, -⟩ := run.framed
  exact ⟨fun k _ => by rw [rom], by rw [params], by rw [params], by rw [params]⟩

/-- Settles O38: the second state, and the state after the first run, have the stream of the first. -/
theorem decompressionIsPure : Obligations.DecompressionIsPure := by
  intro s s' a bytes romSize bufCap overrun
  obtain ⟨response, cursor⟩ := SameStream.lz77_eq ⟨bytes, romSize, bufCap, overrun⟩
  have stream := (lz77_cases .response a s).sameStream
  obtain ⟨again, cursorAgain⟩ := stream.lz77_eq
  refine ⟨_, _, _, rfl, rfl, response, cursor, rfl, again, ?_⟩
  rcases Nat.lt_or_ge a.toNat s.params.romSize.toNat with ha | ha
  · exact cursorAgain ha
  · rw [lz77_outside _ (by rwa [stream.romSize])]
    rfl

end Sys2Proof.Machine
end

section
/-! A command that fails changes nothing but `STATUS.ERR` and, where it reads a stream, `CURSOR` (spec/60_exceptions.md
R245). -/
namespace Sys2Proof.Machine

/-- If `t` ends a command with an error, its response has no data and the rest of the state is framed. -/
def FailsFramed (s t : State) : Prop := ∀ r, t.response = some r → r.err ≠ 0 → r.data = [] ∧ Framed s t

section
variable {s t : State}

theorem Framed.raise (h : Framed s t) (e : Error) (info : Word) : FailsFramed s (t.raise e info) := by
  rintro r ⟨⟩ -
  exact ⟨rfl, h.finish _⟩

theorem deliver_failsFramed (consumer : Consumer) (bytes : List Byte) (comp : Bool) :
    FailsFramed s (deliver consumer bytes comp t) := by
  intro r hr herr
  obtain ⟨v, d, hok⟩ := deliver_response consumer bytes comp t
  rw [hok] at hr
  cases hr
  exact absurd rfl herr

theorem succeeded_failsFramed (c v : Word) (d : List Word) : FailsFramed s (t.succeeded c v d) := by
  rintro r ⟨⟩ herr
  exact absurd rfl herr

theorem Decompressed.failsFramed {consumer : Consumer} {u : State} {a : Word} (run : Decompressed consumer t a u)
    (h : Framed s t) : FailsFramed s u := by
  cases run with
  | unread => exact h.raise _ _
  | done => exact deliver_failsFramed _ _ _
  | failed e info c => exact (h.moveCursor c).raise _ _

theorem Loaded.failsFramed {consumer : Consumer} {a : Word} {n : Nat} (run : Loaded consumer a n s t) :
    FailsFramed s t := by
  cases run with
  | unread => exact (Framed.refl s).raise _ _
  | compressed _ _ _ run => exact run.failsFramed ((Framed.refl s).moveCursor _)
  | tooLong | tooLarge => exact ((Framed.refl s).moveCursor _).raise _ _
  | copied => exact deliver_failsFramed _ _ _

theorem CommandEnd.failsFramed {i : Instr} (run : CommandEnd s i t) : FailsFramed s t := by
  cases run with
  | accessed | answered => exact succeeded_failsFramed _ _ _
  | outside info => exact (Framed.refl s).raise .outOfBounds info
  | decompressed run => exact run.failsFramed (Framed.refl s)
  | paletteLoaded run => exact run.failsFramed
  | planeLoaded run => exact run.failsFramed

/-- A command that reads no stream and fails leaves `CURSOR`. -/
theorem CommandEnd.cursor_of_error {i : Instr} {r : Response} (run : CommandEnd s i t) (hr : t.response = some r)
    (herr : r.err ≠ 0) (hi : i.readsStream = false) : t.cursor = s.cursor := by
  cases run with
  | accessed => cases hr; exact absurd rfl herr
  | answered | outside => rfl
  | decompressed | paletteLoaded | planeLoaded => cases hi

end

/-- Settles O53: of the ways a command can end, those with an error are raised on a state that is framed. -/
theorem errorsChangeNothingElse : Obligations.ErrorsChangeNothingElse := by
  intro i s t r hi hexec hr herr
  have run := exec_command_cases hi hexec
  obtain ⟨data, rom, palette, plane, block⟩ := run.failsFramed r hr herr
  exact ⟨data, rom, palette, plane, block, run.cursor_of_error hr herr⟩

end Sys2Proof.Machine
end

section
/-! The compressed path of both loads (spec/42_palette.md R191, R192; spec/43_pixelplane.md R215): one run of the
procedure of R151, whose end each command takes in its own way. -/
namespace Sys2Proof.Machine

section
variable {s : State} {a : Word}

/-- A load whose first byte is the marker runs the procedure `LZ77_DECOMPRESS` runs, whatever byte count it has. -/
theorem loadAsset_marker_eq_procEnd (consumer : Consumer) (n : Nat) (ha : a.toNat < s.params.romSize.toNat)
    (hm : s.rom.byte a.toNat = 0x10#8) :
    loadAsset consumer a n s = procEnd consumer s (procLz77 s a.toNat s.cursor.toNat) :=
  (loadAsset_marker consumer n ha hm).trans (lz77_eq_procEnd consumer a s _ fun _ => rfl)

/-- The bytes of a block are as many as a 32-bit register can count. -/
theorem toNat_ofNat_length_of_procLz77 {bytes : List Byte} {c : Nat}
    (hrun : procLz77 s a.toNat s.cursor.toNat = .ok bytes c) :
    (BitVec.ofNat 32 bytes.length).toNat = bytes.length := by
  have answer : (lz77 .response a s).response =
      some ⟨0, BitVec.ofNat 32 bytes.length, bytes.map (BitVec.setWidth 32)⟩ := by
    rw [lz77_eq_procEnd .response a s _ fun _ => rfl, hrun]
    rfl
  obtain ⟨hlen, -⟩ := lz77_answersLength a s _ _ answer
  rw [← hlen, List.length_map]

end

/-- Settles O42: the three commands end one run of the procedure, with the same bytes or the same error. -/
theorem compressedLoadsAreDecompressions : Obligations.CompressedLoadsAreDecompressions := by
  intro s t a count depth r ha hm hexec hr
  cases hexec
  refine ⟨_, _, rfl, rfl, ?_⟩
  rw [lz77_eq_procEnd .response a s _ fun _ => rfl] at hr ⊢
  rw [loadAsset_marker_eq_procEnd _ _ ha hm, loadAsset_marker_eq_procEnd _ _ ha hm]
  simp only [procEnd_cursor, true_and]
  cases hrun : procLz77 s a.toNat s.cursor.toNat with
  | ok bytes c =>
    rw [hrun] at hr
    cases hr
    have hlen := toNat_ofNat_length_of_procLz77 hrun
    exact ⟨fun _ => by simp [procEnd, deliver, hlen], fun h => absurd rfl h⟩
  | error e c =>
    rw [hrun] at hr
    cases hr
    obtain ⟨-, palette, plane, -⟩ :=
      ((Framed.refl s).moveCursor c).finish ⟨errorCode e.1, BitVec.ofNat 32 e.2, []⟩
    exact ⟨fun h => absurd h (errorCode_ne_zero e.1), fun _ => ⟨rfl, palette, rfl, plane⟩⟩

end Sys2Proof.Machine
end

section
/-! What a load leaves unchanged (spec/42_palette.md R192, spec/43_pixelplane.md R215). -/
namespace Sys2Proof.Machine

/-- `t` has the ROM and the block of `s`, and each buffer that this consumer does not fill, with its registers. -/
def FramedFor (consumer : Consumer) (s t : State) : Prop :=
  t.rom = s.rom ∧ sameBlock s t ∧ (consumer ≠ .palette → samePalette s t) ∧
    ((∀ depth, consumer ≠ .pixels depth) → samePlane s t)

section
variable {consumer : Consumer} {s t : State} {a : Word}

theorem Framed.framedFor (h : Framed s t) : FramedFor consumer s t := by
  obtain ⟨rom, palette, plane, block⟩ := h
  exact ⟨rom, block, fun _ => palette, fun _ => plane⟩

theorem raise_framedFor (e : Error) (info : Word) (c : Nat) :
    FramedFor consumer s ((s.moveCursor c).raise e info) :=
  (((Framed.refl s).moveCursor c).finish _).framedFor

theorem deliver_framedFor (bytes : List Byte) (comp : Bool) (c : Nat) :
    FramedFor consumer s (deliver consumer bytes comp (s.moveCursor c)) :=
  ⟨by simp, deliver_sameBlock (s.moveCursor c) .., deliver_samePalette (s.moveCursor c) _ _ _,
    deliver_samePlane (s.moveCursor c) _ _ _⟩

theorem Decompressed.framedFor (run : Decompressed consumer s a t) : FramedFor consumer s t := by
  cases run with
  | unread => exact ((Framed.refl s).finish _).framedFor
  | done bytes c => exact deliver_framedFor bytes true c
  | failed e info c => exact raise_framedFor e info c

theorem Loaded.framedFor {n : Nat} (run : Loaded consumer a n s t) : FramedFor consumer s t := by
  cases run with
  | unread => exact ((Framed.refl s).finish _).framedFor
  | compressed _ _ _ run => exact run.framedFor
  | tooLong | tooLarge => exact raise_framedFor _ _ _
  | copied => exact deliver_framedFor _ false _

end

/-- Settles O24: in each of its cases a load ends on a state framed for the buffer it fills. -/
theorem frameOfLoads : Obligations.FrameOfLoads := by
  constructor
  · intro addr count s t h
    cases h
    obtain ⟨rom, block, -, plane⟩ := (loadAsset_cases .palette addr (2 * count.toNat) s).framedFor
    exact ⟨fun b => by rw [rom], rom, plane nofun, block⟩
  · intro addr count depth s t h
    cases h
    obtain ⟨rom, block, palette, -⟩ := (loadAsset_cases (.pixels depth) addr count.toNat s).framedFor
    exact ⟨fun b => by rw [rom], rom, palette nofun, block⟩

end Sys2Proof.Machine
end

section
/-! The direct path of both loads, and the errors before its copy (spec/42_palette.md R191). -/
namespace Sys2Proof.Machine

section
variable {consumer : Consumer} {s : State} {a : Word} {n : Nat}

theorem loadAsset_outside (ha : s.params.romSize.toNat ≤ a.toNat) :
    loadAsset consumer a n s = s.failed s.cursor 1 a := by
  unfold loadAsset
  rw [if_neg (by rw [inBounds_eq_true]; omega)]
  rfl

section
variable (ha : a.toNat < s.params.romSize.toNat) (hm : s.rom.byte a.toNat ≠ 0x10#8)
include ha hm

/-- Past a first byte that is not the marker: the range check, the capacity check, the copy. -/
theorem loadAsset_direct : loadAsset consumer a n s =
    if s.params.romSize.toNat < a.toNat + n then s.failed (BitVec.ofNat 32 (a.toNat + 1)) 1 a
    else if s.params.bufCap.val < n then s.failed (BitVec.ofNat 32 (a.toNat + 1)) 5 (BitVec.ofNat 32 n)
    else deliver consumer (s.rom.bytes a.toNat n) false (s.moveCursor (a.toNat + n)) := by
  unfold loadAsset
  rw [if_pos (inBounds_eq_true.2 ha)]
  dsimp only
  rw [if_neg hm]
  simp only [Bool.not_eq_true', inBounds_eq_false]
  rfl

theorem loadAsset_tooLong (hr : s.params.romSize.toNat < a.toNat + n) :
    loadAsset consumer a n s = s.failed (BitVec.ofNat 32 (a.toNat + 1)) 1 a :=
  (loadAsset_direct ha hm).trans (if_pos hr)

variable (hr : a.toNat + n ≤ s.params.romSize.toNat)
include hr

theorem loadAsset_tooLarge (hc : s.params.bufCap.val < n) :
    loadAsset consumer a n s = s.failed (BitVec.ofNat 32 (a.toNat + 1)) 5 (BitVec.ofNat 32 n) := by
  rw [loadAsset_direct ha hm, if_neg (Nat.not_lt.2 hr), if_pos hc]

theorem loadAsset_copies (hc : n ≤ s.params.bufCap.val) : loadAsset consumer a n s =
    deliver consumer (s.rom.bytes a.toNat n) false (s.moveCursor (a.toNat + n)) := by
  rw [loadAsset_direct ha hm, if_neg (Nat.not_lt.2 hr), if_neg (Nat.not_lt.2 hc)]

end

end

/-- Settles O41: the four checks of a load in their order. -/
theorem directLoadErrors : Obligations.DirectLoadErrors := by
  refine fun s a count depth => ⟨fun ha => ⟨congrArg Host.Outcome.next (loadAsset_outside ha),
    congrArg Host.Outcome.next (loadAsset_outside ha)⟩, fun ha hm => ⟨fun hr => ?_, fun hr => ?_, fun hr hc => ?_,
    fun hr hc => ?_⟩⟩
  · exact congrArg Host.Outcome.next (loadAsset_tooLong ha hm hr)
  · exact congrArg Host.Outcome.next (loadAsset_tooLong ha hm hr)
  · exact congrArg Host.Outcome.next (loadAsset_tooLarge ha hm hr hc)
  · have h := loadAsset_tooLarge (consumer := .pixels depth) ha hm hr hc
    rw [BitVec.ofNat_toNat, BitVec.setWidth_eq] at h
    exact congrArg Host.Outcome.next h

/-- Settles O40: each load copies its bytes, and its length register has room for their number. -/
theorem directLoads : Obligations.DirectLoads := by
  intro s a count ha hm
  refine ⟨fun hr hc => ⟨_, congrArg Host.Outcome.next (loadAsset_copies ha hm hr hc), ?_⟩,
    fun depth hr hc => ⟨_, congrArg Host.Outcome.next (loadAsset_copies ha hm hr hc), ?_⟩⟩
  · have hlen := toNat_ofNat_of_le_romSize (Nat.le_of_add_left_le hr)
    have hbytes := s.rom.length_bytes a.toNat (2 * count.toNat)
    refine ⟨hbytes, fun k hk => Memory.getD_bytes _ _ _ _ hk 0, ?_, by simp [deliver], by simp,
      toNat_ofNat_of_le_romSize hr, by simp [deliver, hbytes], rfl⟩
    rwa [deliver, State.respond_palLen, State.setPalette_palLen, hbytes]
  · have hbytes := s.rom.length_bytes a.toNat count.toNat
    exact ⟨hbytes, fun k hk => Memory.getD_bytes _ _ _ _ hk 0, by simp [deliver, hbytes], rfl, by simp [deliver],
      by simp, toNat_ofNat_of_le_romSize hr, by simp [deliver, hbytes], rfl⟩

end Sys2Proof.Machine
end

section
/-! Colors (spec/42_palette.md R190, R193, R194). -/
namespace Sys2Proof.Machine

/-! ### The encodings (R81) -/

/-- The rows that check `A` and `DEPTH` alone (R90 item 3). -/
theorem plainOpcode_of_plainForm (op : Byte) {make : Command → Instr}
    (row : ∀ c, opField c.cmd = op → decodeOp c = plainForm c (make c)) :
    plainOpcode (commandWord op false 0) make := fun c hc =>
  have accepted : decodeOp c = .ok (make c) :=
    (row c (by simp [hc])).trans (plainForm_eq_ok.2 ⟨by simp [hc], by simp [hc], rfl⟩)
  decode_eq_ok.2 ⟨by simp [hc], accepted⟩

/-! ### The color function (R190) -/

/-- A mask of five bits from `lo` on selects the field there. -/
theorem and_mask_eq_field {mask : BitVec 16} (lo : Nat) (w : BitVec 16) (hmask : mask = 0x1F#16 <<< lo) :
    w &&& mask = (w.extractLsb' lo 5).setWidth 16 <<< lo := by
  have ones (k : Nat) (hk : k < 16) : (0x1F#16).getLsbD k = decide (k < 5) := by
    rw [show (0x1F#16) = (BitVec.allOnes 5).setWidth 16 from rfl, BitVec.getLsbD_setWidth, BitVec.getLsbD_allOnes]
    simp [hk]
  refine BitVec.eq_of_getLsbD_eq fun i hi => ?_
  rw [hmask, BitVec.getLsbD_and, BitVec.getLsbD_shiftLeft, BitVec.getLsbD_shiftLeft, ones _ (by omega),
    BitVec.getLsbD_setWidth, BitVec.getLsbD_extractLsb']
  by_cases h : i < lo
  · simp [h]
  · simp [h, hi, show i - lo < 16 by omega, Nat.add_sub_cancel' (Nat.le_of_not_lt h), Bool.and_comm]

theorem rgb_eq_packedColor (w : BitVec 16) : rgb w = packedColor w := by
  have red : ∀ x : BitVec 5, ((x.setWidth 16 <<< 0) <<< 3).setWidth 32 = x.setWidth 32 <<< 3 := by decide
  have green : ∀ x : BitVec 5, ((x.setWidth 16 <<< 5) >>> 2).setWidth 32 = x.setWidth 32 <<< 3 := by decide
  have blue : ∀ x : BitVec 5, ((x.setWidth 16 <<< 10) >>> 7).setWidth 32 = x.setWidth 32 <<< 3 := by decide
  unfold rgb packedColor
  dsimp only
  rw [and_mask_eq_field (mask := 0x001F#16) 0 w rfl, and_mask_eq_field (mask := 0x03E0#16) 5 w rfl,
    and_mask_eq_field (mask := 0x7C00#16) 10 w rfl, red, green, blue]

/-- Settles O43: the masks and shifts of R190 move each field to its channel. -/
theorem rgbUnpacks : Obligations.RgbUnpacks := by
  refine ⟨plainOpcode_of_plainForm 0x22#8 fun c hop => ?_, fun s v => ?_⟩
  · rw [decodeOp, hop]; rfl
  · rw [← rgb_eq_packedColor]; rfl

/-! ### The entries (R193) -/

theorem colorEntry_eq_append (buf : List Byte) (i : Nat) :
    colorEntry buf i = buf.getD (2 * i + 1) 0 ++ buf.getD (2 * i) 0 := by
  rw [colorEntry, bufferByte, bufferByte, BitVec.or_comm, ← BitVec.setWidth_append_eq_shiftLeft_setWidth_or,
    BitVec.setWidth_eq]

/-- Settles O44: an entry below the count is read from the buffer, and any other is raised. -/
theorem paletteEntries : Obligations.PaletteEntries := by
  refine ⟨plainOpcode_of_plainForm 0x21#8 fun c hop => ?_, fun s i => ⟨fun _ hi => ?_, fun hi => if_pos hi⟩⟩
  · rw [decodeOp, hop]; rfl
  · rw [← rgb_eq_packedColor, ← colorEntry_eq_append]
    exact if_neg (Nat.not_le.2 hi)

end Sys2Proof.Machine
end

section
/-! Pixels (spec/43_pixelplane.md R210 to R216). -/
namespace Sys2Proof.Machine

/-! ### The extraction formulas as arithmetic (R210, R212, R213) -/

theorem depthBits_eq_two_pow (code : BitVec 2) : depthBits code = 2 ^ code.toNat :=
  Nat.one_shiftLeft code.toNat

theorem depthBits_le_eight (code : BitVec 2) : depthBits code ≤ 8 := by
  rw [depthBits_eq_two_pow]
  exact Nat.pow_le_pow_right (n := 2) (j := 3) (by decide) (Nat.le_of_lt_succ code.isLt)

/-- The mask of R212 selects the low `D` bits. -/
theorem toNat_pixGen (raw : Byte) (index : Nat) (code : BitVec 2) : (pixGen raw index code).toNat =
    raw.toNat / 2 ^ (index % pixelsPerByte code * depthBits code) % 2 ^ depthBits code := by
  have fits : 2 ^ depthBits code - 1 < 2 ^ 8 :=
    Nat.sub_one_lt_of_le (Nat.two_pow_pos _) (Nat.pow_le_pow_right (by decide) (depthBits_le_eight code))
  rw [pixGen, BitVec.toNat_and, BitVec.toNat_ushiftRight, Nat.shiftRight_eq_div_pow, BitVec.toNat_ofNat,
    Nat.one_shiftLeft, Nat.mod_eq_of_lt fits, Nat.and_two_pow_sub_one_eq_mod]

/-- The masks of R213 select the two halves of the byte. -/
theorem toNat_pixLegacy (raw : Byte) (index : Nat) (code : BitVec 2) : (pixLegacy raw index code).toNat =
    if index % 2 = 0 then raw.toNat % 16 else raw.toNat / 16 * 16 / 2 ^ depthBits code := by
  have low : (raw &&& 0x0F#8).toNat = raw.toNat % 16 := Nat.and_two_pow_sub_one_eq_mod raw.toNat 4
  have high : ∀ x : Byte, (x &&& 0xF0#8).toNat = x.toNat / 16 * 16 := by decide
  rw [pixLegacy, apply_ite BitVec.toNat, low, BitVec.toNat_ushiftRight, high, Nat.shiftRight_eq_div_pow]

/-- R214: at 4 bits each formula takes the low half of the byte at an even index and the high half at an odd one. -/
theorem pixGen_eq_pixLegacy_of_depth_four (raw : Byte) (index : Nat) : pixGen raw index 2 = pixLegacy raw index 2 := by
  have two : pixelsPerByte 2 = 2 := rfl
  have four : depthBits 2 = 4 := rfl
  refine BitVec.eq_of_toNat_eq ?_
  rw [toNat_pixGen, toNat_pixLegacy, two, four]
  have high : raw.toNat / 16 < 16 := Nat.div_lt_of_lt_mul raw.isLt
  obtain even | odd := Nat.mod_two_eq_zero_or_one index
  · simp [even]
  · simp [odd, Nat.mod_eq_of_lt high]

theorem pixelOf_depth_four (mode : PixelMode) (raw : Byte) (index : Nat) :
    pixelOf mode raw index 2 = pixGen raw index 2 := by
  cases mode with
  | generalized => rfl
  | legacy => exact (pixGen_eq_pixLegacy_of_depth_four raw index).symm

/-! ### The command (R211, R216) -/

theorem exec_pixelGet_inBounds {s : State} {i : Word} (h : i.toNat < s.pixLen.toNat * pixelsPerByte s.pixDepth) :
    exec (.pixelGet i) s = .next (s.succeeded s.cursor (BitVec.ofNat 32 (pixelOf s.params.pixel
      (s.pixBuf.getD (i.toNat / pixelsPerByte s.pixDepth) 0) i.toNat s.pixDepth).toNat) []) := by
  rw [BitVec.ofNat_toNat]
  exact if_neg (Nat.not_le.2 h)

theorem exec_pixelGet_beyond {s : State} {i : Word} (h : s.pixLen.toNat * pixelsPerByte s.pixDepth ≤ i.toNat) :
    exec (.pixelGet i) s = .next (s.failed s.cursor 1 i) := if_pos h

/-- Settles O45: an index below the count is read by the formula of the mode, and any other is raised. -/
theorem pixelValues : Obligations.PixelValues := by
  refine ⟨plainOpcode_of_plainForm 0x31#8 fun c hop => ?_, fun s i => ?_⟩
  · rw [decodeOp, hop]; rfl
  · dsimp only
    rw [← depthBits_eq_two_pow, ← pixelsPerByte]
    refine ⟨fun _ hi mode => ?_, fun _ hi mode => ?_, exec_pixelGet_beyond⟩
    · rw [exec_pixelGet_inBounds hi, mode, pixelOf, toNat_pixGen]
    · rw [exec_pixelGet_inBounds hi, mode, pixelOf, toNat_pixLegacy]

/-- Settles O46: the two formulas agree on every byte, and beyond the count no formula is used. -/
theorem pixelModesAgreeAtDepthFour : Obligations.PixelModesAgreeAtDepthFour := by
  intro s i m depth
  by_cases hi : s.pixLen.toNat * pixelsPerByte s.pixDepth ≤ i.toNat
  · exact ⟨_, _, exec_pixelGet_beyond hi, exec_pixelGet_beyond hi, rfl⟩
  · have inBounds := Nat.lt_of_not_le hi
    refine ⟨_, _, exec_pixelGet_inBounds inBounds, exec_pixelGet_inBounds inBounds, ?_⟩
    simp only [State.succeeded, depth, pixelOf_depth_four]

end Sys2Proof.Machine
end

section
/-! One step at the host's interface (spec/44_system.md R230 to R235, spec/70_reset_and_hazards.md R270, R272): a record
that decodes is run, a whole image is loaded, an incomplete one stops the model, and nothing else does. -/
namespace Sys2Proof.Machine

section
variable {s : State} {moves : List HostMove}

/-! ### A command -/

theorem step_of_decode_ok {c : Command} {i : Instr} (hw : s.work = none) (hin : s.inbox = .issue c :: moves)
    (hi : decode c = .ok i) : step s = exec i (s.setInbox moves) := by
  simp [step, fetch_issue hw hin, fetchCommand, hi]

/-! ### A reset -/

theorem fetch_reset {image : Option (List Byte)} (hw : s.work = none) (hin : s.inbox = .reset image :: moves) :
    fetch s = fetchReset s image moves := by
  simp [fetch, hw, hin]

theorem step_of_hostReset_ok {t : State} {image : Option (List Byte)} (hw : s.work = none)
    (hin : s.inbox = .reset image :: moves) (ht : hostReset s image moves = .ok t) : step s = .next t := by
  simp [step, fetch_reset hw hin, fetchReset, ht]

theorem step_of_hostReset_error {r : Fault} {image : Option (List Byte)} (hw : s.work = none)
    (hin : s.inbox = .reset image :: moves) (hr : hostReset s image moves = .error r) : step s = .fault r := by
  simp [step, fetch_reset hw hin, fetchReset, hr]

/-- A whole image is the ROM of the reset state (R272). -/
theorem step_reset_whole {image : List Byte} (hw : s.work = none) (hin : s.inbox = .reset (some image) :: moves)
    (hlen : image.length = s.params.romSize.toNat) :
    step s = .next (State.afterReset s.params (imageFrom 0 image) moves) :=
  step_of_hostReset_ok hw hin (if_pos hlen)

/-- An image of another length is no move of the host (R235); the fault is the model's (log 8). -/
theorem step_reset_incomplete {image : List Byte} (hw : s.work = none) (hin : s.inbox = .reset (some image) :: moves)
    (hlen : image.length ≠ s.params.romSize.toNat) : step s = .fault .imageIncomplete :=
  step_of_hostReset_error hw hin (if_neg hlen)

end

/-- Settles O7: the step fetches the record, decodes it and runs it. -/
theorem stepRunsTheDecodedCommand : Obligations.StepRunsTheDecodedCommand :=
  fun _ _ _ _ hw hin hi => step_of_decode_ok hw hin hi

/-- Settles O13: a whole image is written into an empty memory, which holds its bytes and no other. -/
theorem loadedImageIsInTheRom : Obligations.LoadedImageIsInTheRom := by
  intro s image moves hw hin
  refine ⟨fun hlen => ⟨_, step_reset_whole hw hin hlen, rfl, rfl, rfl, rfl, rfl, rfl, rfl, rfl, rfl, rfl, ?bytes,
    imageFrom_wf 0 image, ?below⟩, step_reset_incomplete hw hin⟩
  case bytes =>
    intro k _
    have hbyte := imageFrom_byte 0 image k
    rwa [Nat.zero_add] at hbyte
  case below => exact hlen ▸ imageFrom_below image

/-! ### Where a step stops -/

/-- An element the decoder reads is one it expects, so it has a meaning (spec/30_encoding.md R97). -/
theorem exec_elementInstr {s : State} {w : Lz77Work} {e : Element} (hw : s.work = some w)
    (he : fetchElement w s = .ok e) : exec (elementInstr e) s = .next (takeElement e w s) := by
  have hx : nextExpect w = elementExpect e := (decodeElement_expect he).symm
  cases e with
  | hdr | hdrx | flags | lit | ref => exact whereExpected_eq hw hx rfl

theorem exists_step_of_work {s : State} {w : Lz77Work} (hw : s.work = some w) : ∃ t, step s = .next t := by
  cases hf : fetchElement w s with
  | ok e => exact ⟨_, (step_of_fetchElement_ok hw hf).trans (exec_elementInstr hw hf)⟩
  | error r => exact ⟨_, step_of_fetchElement_error hw hf⟩

theorem step_idle {s : State} (hw : s.work = none) (hin : s.inbox = []) : step s = .next s := by
  simp [step, fetch, hw, hin]

theorem exists_step_of_issue {s : State} {c : Command} {moves : List HostMove} (hw : s.work = none)
    (hin : s.inbox = .issue c :: moves) : ∃ t, step s = .next t := by
  cases hd : decode c with
  | ok i =>
    obtain ⟨-, hcommand, -⟩ := decodedCommandKeepsItsWord c i hd
    obtain ⟨t, ht, -⟩ := exec_command_end hcommand (s.setInbox moves)
    exact ⟨t, (step_of_decode_ok hw hin hd).trans ht⟩
  | error r => exact ⟨_, step_of_decode_error hw hin hd⟩

/-- The host's next move breaks its duty of R272: it loads an image that is not `P_ROM_SIZE` bytes long. -/
def HostBreach (s : State) : Prop :=
  s.work = none ∧ ∃ image moves, s.inbox = .reset (some image) :: moves ∧ image.length ≠ s.params.romSize.toNat

theorem step_of_hostBreach {s : State} (h : HostBreach s) : step s = .fault .imageIncomplete := by
  obtain ⟨hw, image, moves, hin, hlen⟩ := h
  exact step_reset_incomplete hw hin hlen

/-- A host that keeps its duty always has a next state. -/
theorem exists_step_or_hostBreach (s : State) : (∃ t, step s = .next t) ∨ HostBreach s := by
  cases hw : s.work with
  | some w => exact .inl (exists_step_of_work hw)
  | none =>
    cases hin : s.inbox with
    | nil => exact .inl ⟨s, step_idle hw hin⟩
    | cons move moves =>
      cases move with
      | issue c => exact .inl (exists_step_of_issue hw hin)
      | reset image =>
        cases image with
        | none => exact .inl ⟨_, step_of_hostReset_ok hw hin rfl⟩
        | some image =>
          by_cases hlen : image.length = s.params.romSize.toNat
          · exact .inl ⟨_, step_reset_whole hw hin hlen⟩
          · exact .inr ⟨hw, image, moves, hin, hlen⟩

/-- Settles O57: a step has a next state, or the host broke its duty and the model stops with its fault. -/
theorem stepStopsOnlyOnAHostBreach : Obligations.StepStopsOnlyOnAHostBreach := by
  intro s
  rcases exists_step_or_hostBreach s with ⟨t, ht⟩ | breach
  · rw [ht]; exact ⟨nofun, nofun⟩
  · rw [step_of_hostBreach breach]; exact ⟨nofun, fun _ _ => breach⟩

/-! ### `STATUS` after a command -/

/-- Settles O48: the command leaves its code in `STATUS.ERR`, and `READ_REG 1` shows it before it writes its own 0. -/
theorem statusShowsTheLastError : Obligations.StatusShowsTheLastError := by
  intro i s t r hi run hr
  obtain ⟨r', hr', herr⟩ := (exec_command_cases hi run).responded
  have hsame : r' = r := Option.some.inj (hr'.symm.trans hr)
  exact ⟨_, _, _, _, exec_readReg .status t, rfl, hsame ▸ herr, exec_readReg .status _, rfl,
    statusErr_withErr t.status 0⟩

end Sys2Proof.Machine
end

section
/-! Which error codes a command can end with (spec/60_exceptions.md R241, R242): those of a decompression at most, and
without `InvalidOpcode` where a load has seen the marker itself. -/
namespace Sys2Proof.Machine

/-- The errors a load can raise: those of a decompression (`streamErrors`) but for `InvalidOpcode`, since a load
decompresses only behind the marker (spec/42_palette.md R191). -/
def loadErrors : List Error := [.outOfBounds, .outputTooLarge, .invalidBackReference, .overrun]

/-! ### The procedure behind the marker -/

/-- The procedure ends with no error but these. -/
def Proc.RaisesOnly {α : Type} (errors : List Error) (p : Proc α) : Prop :=
  ∀ c e c', p c = .error e c' → e.1 ∈ errors

section
variable {α β : Type} {errors : List Error}

theorem Proc.raisesOnly_pure (x : α) : Proc.RaisesOnly errors (pure x) := nofun

theorem Proc.raisesOnly_throw {e : Error × Nat} (h : e.1 ∈ errors) : Proc.RaisesOnly errors (throw e : Proc α) := by
  rintro _ _ _ ⟨⟩
  exact h

theorem raisesOnly_procCursor : Proc.RaisesOnly errors procCursor := nofun

theorem Proc.RaisesOnly.bind {p : Proc α} {k : α → Proc β} (h : p.RaisesOnly errors)
    (hk : ∀ x, (k x).RaisesOnly errors) : (p >>= k).RaisesOnly errors := by
  intro c e c' hrun
  cases hp : p c with
  | ok x d => exact hk x d e c' ((Proc.bind_of_ok hp).symm.trans hrun)
  | error e' d =>
    cases (Proc.bind_of_error hp).symm.trans hrun
    exact h c _ _ hp

theorem Proc.RaisesOnly.ite {P : Prop} [Decidable P] {p q : Proc α} (hp : p.RaisesOnly errors)
    (hq : q.RaisesOnly errors) : (if P then p else q).RaisesOnly errors := by
  split
  · exact hp
  · exact hq

end

section
variable (s : State)

theorem procRdB_raisesOnly : (procRdB s).RaisesOnly loadErrors := by
  intro c e c' hrun
  unfold procRdB at hrun
  split at hrun
  · cases hrun
  · cases hrun
    simp [loadErrors]

theorem procRef_raisesOnly (length : Nat) (b : WorkBuffer) : (procRef s length b).RaisesOnly loadErrors :=
  raisesOnly_procCursor.bind fun _ => (procRdB_raisesOnly s).bind fun _ => (procRdB_raisesOnly s).bind fun _ =>
    .ite (Proc.raisesOnly_throw (by simp [loadErrors]))
      (.ite (Proc.raisesOnly_throw (by simp [loadErrors])) (Proc.raisesOnly_pure _))

theorem procLiteral_raisesOnly (length : Nat) (b : WorkBuffer) : (procLiteral s length b).RaisesOnly loadErrors :=
  (procRdB_raisesOnly s).bind fun _ => .ite (Proc.raisesOnly_pure _) (Proc.raisesOnly_pure _)

theorem procGroup_raisesOnly (length : Nat) (flags : Byte) (k : Nat) (b : WorkBuffer) :
    (procGroup s length flags k b).RaisesOnly loadErrors := by
  induction k generalizing b with
  | zero => exact Proc.raisesOnly_pure b
  | succ k ih =>
    have next (r : WorkBuffer × Bool) := Proc.RaisesOnly.ite
      (P := (r.2 || decide (length < r.1.position)) = true) (Proc.raisesOnly_pure r.1) (ih r.1)
    exact .ite ((procRef_raisesOnly s length b).bind next) ((procLiteral_raisesOnly s length b).bind next)

theorem procLoop_raisesOnly (length n : Nat) (b : WorkBuffer) : (procLoop s length n b).RaisesOnly loadErrors := by
  induction n generalizing b with
  | zero => exact Proc.raisesOnly_pure b
  | succ n ih =>
    exact .ite ((procRdB_raisesOnly s).bind fun flags => (procGroup_raisesOnly s length flags 8 b).bind ih)
      (Proc.raisesOnly_pure b)

theorem procLongLength_raisesOnly : (procLongLength s).RaisesOnly loadErrors :=
  have read := procRdB_raisesOnly s
  read.bind fun _ => read.bind fun _ => read.bind fun _ => read.bind fun _ => Proc.raisesOnly_pure _

theorem procLength_raisesOnly : (procLength s).RaisesOnly loadErrors :=
  have read := procRdB_raisesOnly s
  read.bind fun _ => read.bind fun _ => read.bind fun _ =>
    .ite (procLongLength_raisesOnly s) (Proc.raisesOnly_pure _)

theorem procBody_raisesOnly (length : Nat) : (procBody s length).RaisesOnly loadErrors :=
  .ite (Proc.raisesOnly_throw (by simp [loadErrors]))
    ((procLoop_raisesOnly s _ _ _).bind fun _ => Proc.raisesOnly_pure _)

/-- Behind the marker the one `throw` of `InvalidOpcode` is passed (R152). -/
theorem procLz77_marker_raisesOnly {a c c' : Nat} {e : Error × Nat} (ha : a < s.params.romSize.toNat)
    (hm : s.rom.byte a = 0x10#8) (h : procLz77 s a c = .error e c') : e.1 ∈ loadErrors := by
  rw [procLz77_marker ha hm] at h
  exact (procLength_raisesOnly s).bind (procBody_raisesOnly s) _ _ _ h

end

/-! ### The code a command leaves -/

/-- If `t` ends a command, its response has the code 0 or that of one of these errors. -/
def RaisesOnly (errors : List Error) (t : State) : Prop :=
  ∀ r, t.response = some r → r.err ∈ 0 :: errors.map errorCode

section
variable {errors : List Error} {s t : State}

theorem RaisesOnly.mono {more : List Error} (h : RaisesOnly errors t) (hsub : errors ⊆ more) : RaisesOnly more t :=
  fun r hr => List.cons_subset_cons 0 (List.map_subset errorCode hsub) (h r hr)

theorem raise_raisesOnly {e : Error} (h : e ∈ errors) (info : Word) : RaisesOnly errors (s.raise e info) := by
  rintro r ⟨⟩
  exact List.mem_cons_of_mem 0 (List.mem_map_of_mem h)

theorem succeeded_raisesOnly (c v : Word) (d : List Word) : RaisesOnly errors (s.succeeded c v d) := by
  rintro r ⟨⟩
  exact List.mem_cons_self

theorem deliver_raisesOnly (consumer : Consumer) (bytes : List Byte) (comp : Bool) :
    RaisesOnly errors (deliver consumer bytes comp s) := by
  intro r hr
  obtain ⟨v, d, hok⟩ := deliver_response consumer bytes comp s
  cases hok.symm.trans hr
  exact List.mem_cons_self

theorem Decompressed.raisesOnly {consumer : Consumer} {a : Word} (run : Decompressed consumer s a t) :
    RaisesOnly streamErrors t := by
  cases run with
  | unread => exact raise_raisesOnly (by simp [streamErrors]) _
  | done => exact deliver_raisesOnly _ _ _
  | failed e info c _ _ error => exact raise_raisesOnly error _

theorem lz77_marker_raisesOnly (consumer : Consumer) {a : Word} (ha : a.toNat < s.params.romSize.toNat)
    (hm : s.rom.byte a.toNat = 0x10#8) : RaisesOnly loadErrors (lz77 consumer a s) := by
  rw [lz77_eq_procEnd consumer a s _ fun _ => rfl]
  cases hrun : procLz77 s a.toNat s.cursor.toNat with
  | ok bytes c => exact deliver_raisesOnly _ _ _
  | error e c => exact raise_raisesOnly (procLz77_marker_raisesOnly s ha hm hrun) _

/-- A load decompresses only behind the marker; its direct path has its own two errors. -/
theorem loadAsset_raisesOnly (consumer : Consumer) (a : Word) (n : Nat) (s : State) :
    RaisesOnly loadErrors (loadAsset consumer a n s) := by
  have run := loadAsset_cases consumer a n s
  generalize ht : loadAsset consumer a n s = t at run
  cases run with
  | unread => exact raise_raisesOnly (by simp [loadErrors]) _
  | compressed inside marker =>
    rw [← ht, loadAsset_marker consumer n inside marker]
    exact lz77_marker_raisesOnly consumer inside marker
  | tooLong | tooLarge => exact raise_raisesOnly (by simp [loadErrors]) _
  | copied => exact deliver_raisesOnly _ _ _

theorem exec_raisesOnly {i : Instr} (hi : i.isCommand = true) (h : exec i s = .next t) :
    RaisesOnly streamErrors t := by
  have loadErrors_subset : loadErrors ⊆ streamErrors := by decide
  cases exec_command_cases hi h with
  | accessed | answered => exact succeeded_raisesOnly _ _ _
  | outside info => exact raise_raisesOnly (e := .outOfBounds) (by simp [streamErrors]) info
  | decompressed run => exact run.raisesOnly
  | paletteLoaded | planeLoaded =>
    cases h
    exact (loadAsset_raisesOnly _ _ _ s).mono loadErrors_subset

end

/-- Settles O54: every command raises at most what a decompression can, a load not `InvalidOpcode`, and `RGB_UNPACK` and
`READ_REG` always succeed. -/
theorem errorCodesRaised : Obligations.ErrorCodesRaised := by
  intro i s t r hi hexec hr
  have streamCodes : ∀ code ∈ 0 :: streamErrors.map errorCode, code.toNat ≤ 6 ∧ code ≠ 4 := by decide
  have loadCodes : ∀ code ∈ 0 :: loadErrors.map errorCode, code ≠ 2 := by decide
  obtain ⟨highest, notIllegal⟩ := streamCodes r.err (exec_raisesOnly hi hexec r hr)
  refine ⟨highest, notIllegal, ?paletteLoad, ?pixelLoad, ?rgbUnpack, ?readReg⟩
  case paletteLoad | pixelLoad =>
    intros
    subst i
    cases hexec
    exact loadCodes r.err (loadAsset_raisesOnly _ _ _ s r hr)
  case rgbUnpack | readReg =>
    intros
    subst i
    cases hexec
    cases hr
    rfl

/-- Settles O10: with nothing to run and nothing sent, the block meets no instruction. -/
theorem idleBlockKeepsItsState : Obligations.IdleBlockKeepsItsState := fun _ => step_idle

end Sys2Proof.Machine
end

section
/-! The reset state (spec/70_reset_and_hazards.md R270, R271), which has no palette entry and no pixel to get. -/
namespace Sys2Proof.Machine

/-- A reset without an image keeps the ROM (R271). -/
theorem step_reset_keepingRom {s : State} {moves : List HostMove} (hw : s.work = none)
    (hin : s.inbox = .reset none :: moves) : step s = .next (State.afterReset s.params s.rom moves) :=
  step_of_hostReset_ok hw hin rfl

/-- With no palette byte in the buffer, every index is beyond the count (spec/42_palette.md R193). -/
theorem exec_paletteGet_of_palLen_zero {s : State} (h : s.palLen = 0) (index : Word) :
    exec (.paletteGet index) s = .next (s.failed s.cursor 1 index) := by
  have beyond : s.palLen.toNat / 2 ≤ index.toNat := by simp [h]
  exact (paletteEntries.2 s index).2 beyond

/-- With no pixel byte in the buffer, every index is beyond the count at every depth (spec/43_pixelplane.md R216). -/
theorem exec_pixelGet_of_pixLen_zero {s : State} (h : s.pixLen = 0) (index : Word) :
    exec (.pixelGet index) s = .next (s.failed s.cursor 1 index) := by
  have beyond : s.pixLen.toNat * pixelsPerByte s.pixDepth ≤ index.toNat := by simp [h]
  exact exec_pixelGet_beyond beyond

/-- Settles O11: the step answers the reset state on the ROM it found, whose two lengths leave no index in range. -/
theorem resetGivesTheResetValues : Obligations.ResetGivesTheResetValues := fun _ _ hw hin =>
  ⟨_, step_reset_keepingRom hw hin, rfl, rfl, rfl, rfl, rfl, rfl, rfl, rfl, rfl, rfl, fun index =>
    ⟨exec_paletteGet_of_palLen_zero rfl index, exec_pixelGet_of_pixLen_zero rfl index⟩⟩

/-- Settles O12: `State.reset` is a reset state, on the parameters and the image the model chose. -/
theorem startStateHasTheResetValues : Obligations.StartStateHasTheResetValues :=
  ⟨rfl, rfl, rfl, rfl, rfl, rfl, rfl, rfl⟩

end Sys2Proof.Machine
end
